-- ==== Sys2Proof/Word.lean ====
section
/-! DEFINITION. The word types: a byte of the wire and the sample rate as the host presents it. -/

namespace Sys2Proof

/-- A byte: 8 bits, bit 7 the most significant (00_scope.md R9). -/
abbrev Byte := BitVec 8

/-- The width of `fs` and of `cfg_fs`, FS_W = 32 bits (00_scope.md R8, 92_eei_decisions.md D25). -/
abbrev SampleRate := BitVec 32

/-- The width of `cmd_len`, `rsp_len` and `byte_idx`, 6 bits (10_state.md R37). -/
abbrev Length6 := BitVec 6

end Sys2Proof
end

