-- ==== Sys2Proof/Config.lean ====
section
/-! DEFINITION. What the spec leaves to the implementation: the one OPEN parameter that a rule reads,
`BIT_MID_US[CONTROLLER]` (00_scope.md R8, 40_timing_profile.md R132, 92_eei_decisions.md D11). -/

namespace Sys2Proof

/-- A number of microseconds written as the rational `num / den` (40_timing_profile.md R121). -/
structure Micros where
  num : Nat
  den : Nat
deriving DecidableEq, Repr

/-- DESIGN CHOICE (log 8), safe. The numerator of `BIT_MID_US[CONTROLLER]`, less one. No body: nothing
can be proved of its value. -/
opaque Config.controllerMidNumPred : Nat

/-- DESIGN CHOICE (log 8), safe. The denominator of `BIT_MID_US[CONTROLLER]`, less one. -/
opaque Config.controllerMidDenPred : Nat

/-- `BIT_MID_US[CONTROLLER]`, "a positive rational number of microseconds" (00_scope.md R8): every
positive rational is one of these, and no particular one (log 8). -/
def Config.controllerMid : Micros :=
  ⟨Config.controllerMidNumPred + 1, Config.controllerMidDenPred + 1⟩

end Sys2Proof
end

