-- ==== Sys2Proof/Syntax.lean ====
section
/-! DEFINITION. What the host and the wire can say: the 15 commands of spec/opcode_table.json, a frame
with its operand bytes, a row of the CommandTable, and the three input events. -/

namespace Sys2Proof

/-- One constructor per row of the opcode table (30_encoding.md R98, 43_commands.md R211). The opcode
is the whole first byte, with no sub-field (R98), so no constructor has an argument; the operand
bytes of a frame follow on the wire and stand in `Frame` (log 2, log 3). -/
inductive Instr where
  | info
  | controllerState
  | readAccessory
  | writeAccessory
  | readEeprom
  | writeEeprom
  | readGba
  | writeGba
  | shortPoll
  | readOrigin
  | calibrate
  | longPoll
  | fixDevice
  | keyboardPoll
  | reset
deriving DecidableEq, Repr

/-- The 15 commands in the table's order. -/
def Instr.all : List Instr :=
  [.info, .controllerState, .readAccessory, .writeAccessory, .readEeprom, .writeEeprom, .readGba,
   .writeGba, .shortPoll, .readOrigin, .calibrate, .longPoll, .fixDevice, .keyboardPoll, .reset]

/-- A row of the CommandTable, "immutable record {opcode: byte, name: string, command_len: uint (total
command bytes including opcode), response_len: uint}" (43_commands.md R211). -/
structure CommandSpec where
  opcode : Byte
  name : String
  commandLen : Nat
  responseLen : Nat
deriving DecidableEq, Repr

/-- A frame as bytes: the command, its command-data bytes after the opcode, and its response-data
bytes (30_encoding.md R95, R96). The bytes are opaque (43_commands.md R210). -/
structure Frame where
  instr : Instr
  cmdData : List Byte
  rspData : List Byte
deriving DecidableEq, Repr

/-- The bus-speed role, a configuration input (00_scope.md R7). -/
inductive Role where
  | console
  | controller
deriving DecidableEq, Repr

/-- The input events, each one atomic step of the block (00_scope.md R15). A sample `true` is the line
high (00_scope.md R10). -/
inductive InputEvent where
  | reset
  | configure (fs : SampleRate) (role : Role)
  | sample (x : Bool)
deriving DecidableEq, Repr

end Sys2Proof
end

