-- ==== Sys2Proof/Machine/Table.lean ====
section
/-! DEFINITION. The CommandTable space (20_memory.md R66, 43_commands.md R211) and the names of opcodes
(30_encoding.md R101, R106). -/

namespace Sys2Proof

/-- The row of the CommandTable that a command selects (43_commands.md R211 to R226). -/
def Instr.spec : Instr → CommandSpec
  | .info => ⟨0x00, "Info", 1, 3⟩
  | .controllerState => ⟨0x01, "Controller State", 1, 4⟩
  | .readAccessory => ⟨0x02, "Read Accessory", 3, 33⟩
  | .writeAccessory => ⟨0x03, "Write Accessory", 35, 1⟩
  | .readEeprom => ⟨0x04, "Read EEPROM", 2, 8⟩
  | .writeEeprom => ⟨0x05, "Write EEPROM", 10, 1⟩
  | .readGba => ⟨0x14, "Read GBA", 3, 33⟩
  | .writeGba => ⟨0x15, "Write GBA", 35, 1⟩
  | .shortPoll => ⟨0x40, "Short Poll", 3, 8⟩
  | .readOrigin => ⟨0x41, "Read Origin", 1, 10⟩
  | .calibrate => ⟨0x42, "Calibrate", 3, 10⟩
  | .longPoll => ⟨0x43, "Long Poll", 3, 10⟩
  | .fixDevice => ⟨0x4E, "Fix Device", 3, 3⟩
  | .keyboardPoll => ⟨0x54, "Keyboard Poll", 3, 8⟩
  | .reset => ⟨0xFF, "Reset", 1, 3⟩

/-- `Table(op)`: the row whose opcode is `op`, or `none` for the 241 unknown opcodes
(20_memory.md R66, 30_encoding.md R99). -/
def lookup (op : Byte) : Option CommandSpec :=
  (Instr.all.map Instr.spec).find? (fun c => c.opcode == op)

/-- A ROM entry of the table, `valid(1) ++ command_len(6) ++ response_len(6)` (20_memory.md R66). An
empty address has `valid` 0. DESIGN CHOICE (log 21), unsafe: its twelve length bits, of which the spec
says nothing, are 0. No step reads an entry. -/
def romEntry (op : Byte) : BitVec 13 :=
  match lookup op with
  | some c => 1#1 ++ BitVec.ofNat 6 c.commandLen ++ BitVec.ofNat 6 c.responseLen
  | none => 0

/-- One upper-case hexadecimal digit (30_encoding.md R106). -/
def hexDigit (d : Nat) : Char :=
  ['0', '1', '2', '3', '4', '5', '6', '7', '8', '9', 'A', 'B', 'C', 'D', 'E', 'F'].getD (d % 16) '0'

/-- The characters of an unknown opcode's name: `0x` and two digits, most significant first
(30_encoding.md R106). -/
def hexName (op : Byte) : List Char :=
  ['0', 'x', hexDigit (op.toNat / 16), hexDigit (op.toNat % 16)]

/-- `Name(op)` (30_encoding.md R106). -/
def resolvedName (op : Byte) : String :=
  match lookup op with
  | some c => c.name
  | none => String.ofList (hexName op)

end Sys2Proof
end

