-- ==== Sys2Proof/WellFormed.lean ====
section
/-! DEFINITION. Which terms of the syntax the spec admits. -/

namespace Sys2Proof

/-- "In every row command_len >= 1 and response_len >= 1" (43_commands.md R211), and both fit the 6-bit
registers that latch them (10_state.md R37). -/
def CommandSpec.wellFormed (c : CommandSpec) : Bool :=
  decide (1 ≤ c.commandLen) && decide (c.commandLen < 64) &&
    decide (1 ≤ c.responseLen) && decide (c.responseLen < 64)

/-- A command is well formed when its row is, and its opcode finds its own row ("unique keys",
20_memory.md R66). -/
def Instr.wellFormed (i : Instr) : Bool :=
  i.spec.wellFormed && lookup i.spec.opcode == some i.spec

/-- The command segment has `command_len - 1` data bytes after the opcode and the response segment
`response_len` bytes (30_encoding.md R96). -/
def Frame.wellFormed (f : Frame) : Bool :=
  f.instr.wellFormed && f.cmdData.length + 1 == f.instr.spec.commandLen &&
    f.rspData.length == f.instr.spec.responseLen

/-- A microsecond constant is a positive rational (40_timing_profile.md R121, R132). -/
def Micros.wellFormed (m : Micros) : Bool :=
  decide (0 < m.num) && decide (0 < m.den)

end Sys2Proof
end

