-- ==== Sys2Proof/Decode.lean ====
section
/-! DEFINITION. The decoder of opcodes and of frames, total on any bytes and rejecting by name, and
after it the encoder (30_encoding.md R95 to R102). -/

namespace Sys2Proof

/-- Why a sequence of bytes is no command or no frame. -/
inductive DecodeError where
  /-- There is no opcode byte. -/
  | noOpcode
  /-- The opcode is one of the 241 values outside the table (30_encoding.md R99). -/
  | unknownOpcode (op : Byte)
  /-- Fewer bytes follow the opcode than the table's two lengths ask for (30_encoding.md R100). -/
  | tooShort (i : Instr)
deriving DecidableEq, Repr

/-- A row of spec/opcode_table.json: a first byte `b` selects the row when `(b & mask) == match`
(30_encoding.md R102). -/
structure OpcodeRow where
  pattern : Byte
  mask : Byte
  instr : Instr
deriving DecidableEq, Repr

/-- The machine-readable opcode map (30_encoding.md R102, spec/opcode_table.json). -/
def opcodeRows : List OpcodeRow :=
  [⟨0x00, 0xFF, .info⟩, ⟨0x01, 0xFF, .controllerState⟩, ⟨0x02, 0xFF, .readAccessory⟩,
   ⟨0x03, 0xFF, .writeAccessory⟩, ⟨0x04, 0xFF, .readEeprom⟩, ⟨0x05, 0xFF, .writeEeprom⟩,
   ⟨0x14, 0xFF, .readGba⟩, ⟨0x15, 0xFF, .writeGba⟩, ⟨0x40, 0xFF, .shortPoll⟩,
   ⟨0x41, 0xFF, .readOrigin⟩, ⟨0x42, 0xFF, .calibrate⟩, ⟨0x43, 0xFF, .longPoll⟩,
   ⟨0x4E, 0xFF, .fixDevice⟩, ⟨0x54, 0xFF, .keyboardPoll⟩, ⟨0xFF, 0xFF, .reset⟩]

/-- Whether a first byte selects a row (30_encoding.md R102). -/
def OpcodeRow.selects (r : OpcodeRow) (b : Byte) : Bool :=
  (b &&& r.mask) == r.pattern

/-- Opcode decoding: the row that the whole first byte selects (30_encoding.md R98). -/
def decodeOpcode (b : Byte) : Option Instr :=
  (opcodeRows.find? (fun r => r.selects b)).map (·.instr)

/-- The command that a sequence of bytes begins with, and the bytes after the opcode. -/
def decode : List Byte → Except DecodeError (Instr × List Byte)
  | [] => .error .noOpcode
  | b :: rest =>
    match decodeOpcode b with
    | some i => .ok (i, rest)
    | none => .error (.unknownOpcode b)

/-- The frame that a sequence of bytes begins with, and the bytes after it. The lengths come from the
opcode alone (30_encoding.md R100). -/
def decodeFrame (bs : List Byte) : Except DecodeError (Frame × List Byte) :=
  match decode bs with
  | .error e => .error e
  | .ok (i, rest) =>
    let c := i.spec.commandLen - 1
    let r := i.spec.responseLen
    if rest.length < c + r then .error (.tooShort i)
    else .ok (⟨i, rest.take c, (rest.drop c).take r⟩, rest.drop (c + r))

/-- The opcode byte of a command (30_encoding.md R98). -/
def encodeOpcode : Instr → Byte
  | .info => 0b00000000
  | .controllerState => 0b00000001
  | .readAccessory => 0b00000010
  | .writeAccessory => 0b00000011
  | .readEeprom => 0b00000100
  | .writeEeprom => 0b00000101
  | .readGba => 0b00010100
  | .writeGba => 0b00010101
  | .shortPoll => 0b01000000
  | .readOrigin => 0b01000001
  | .calibrate => 0b01000010
  | .longPoll => 0b01000011
  | .fixDevice => 0b01001110
  | .keyboardPoll => 0b01010100
  | .reset => 0b11111111

/-- The words of a command: its one opcode byte. -/
def encode (i : Instr) : List Byte := [encodeOpcode i]

/-- The bytes of a frame in wire order (30_encoding.md R95): opcode, command data, response data. -/
def encodeFrame (f : Frame) : List Byte :=
  encode f.instr ++ f.cmdData ++ f.rspData

/-- The bytes of an instruction whose bits are `w`, first byte in bits 7 to 0. -/
def wordBytes (nbits w : Nat) : List Byte :=
  (List.range (nbits / 8)).map (fun k => BitVec.ofNat 8 (w / 256 ^ k))

/-- What the decoder reads from a row's bits. -/
def decodeTableWord (nbits w : Nat) : Option Instr :=
  match decode (wordBytes nbits w) with
  | .ok (i, _) => some i
  | .error _ => none

end Sys2Proof
end

