-- ==== Sys2Proof/Machine/Profile.lean ====
section
/-! DEFINITION. The timing-profile unit: the microsecond constants (00_scope.md R6) and the function
Profile (40_timing_profile.md R120 to R123). -/

namespace Sys2Proof.Machine

/-- `IDLE_US`, 100 µs (00_scope.md R6). -/
def idleUs : Micros := ⟨100, 1⟩

/-- `BIT_MID_US[CONSOLE]`, 5/2 µs (00_scope.md R6). -/
def bitMidConsoleUs : Micros := ⟨5, 2⟩

/-- `BIT_TIMEOUT_US`, 10 µs (00_scope.md R6). -/
def bitTimeoutUs : Micros := ⟨10, 1⟩

/-- `RESPONSE_TIMEOUT_US`, 50 µs (00_scope.md R6). -/
def responseTimeoutUs : Micros := ⟨50, 1⟩

/-- `STOP_US[role]`, 5 µs and 4 µs (00_scope.md R6). -/
def stopUs : Role → Micros
  | .console => ⟨5, 1⟩
  | .controller => ⟨4, 1⟩

/-- `Samples(fs, p/q) = (fs * p) div (1_000_000 * q)` (40_timing_profile.md R121). -/
def samples (fs : Nat) (m : Micros) : Nat :=
  (fs * m.num) / (1000000 * m.den)

/-- A TimingProfile, "all counts in elapsed samples" (10_state.md R28). -/
structure TimingProfile where
  idleMin : Nat
  bitMidpoint : Nat
  bitTimeout : Nat
  responseTimeout : Nat
  stopBitWidth : Nat
deriving DecidableEq, Repr

/-- "Invariant: all fields strictly positive" (10_state.md R28). -/
def TimingProfile.wellFormed (p : TimingProfile) : Bool :=
  decide (0 < p.idleMin) && decide (0 < p.bitMidpoint) && decide (0 < p.bitTimeout) &&
    decide (0 < p.responseTimeout) && decide (0 < p.stopBitWidth)

/-- The bit midpoint of a role, given the open parameter `mid` (40_timing_profile.md R122, R132). -/
def bitMidUs (mid : Micros) : Role → Micros
  | .console => bitMidConsoleUs
  | .controller => mid

/-- The five fields that the formula gives, before any is judged (40_timing_profile.md R122). -/
def rawProfile (mid : Micros) (fs : Nat) (r : Role) : TimingProfile where
  idleMin := samples fs idleUs
  bitMidpoint := samples fs (bitMidUs mid r)
  bitTimeout := samples fs bitTimeoutUs
  responseTimeout := samples fs responseTimeoutUs
  stopBitWidth := samples fs (stopUs r)

/-- `Profile(fs, role)` for a given `BIT_MID_US[CONTROLLER]`; `none` is ConfigError: the rate is 0 or a
field is 0 (40_timing_profile.md R123). -/
def profileWith (mid : Micros) (fs : Nat) (r : Role) : Option TimingProfile :=
  if fs ≠ 0 ∧ (rawProfile mid fs r).wellFormed = true then some (rawProfile mid fs r) else none

/-- `Profile(fs, role)` of this block, its open parameter left open (40_timing_profile.md R120). -/
def profile (fs : Nat) (r : Role) : Option TimingProfile :=
  profileWith Config.controllerMid fs r

end Sys2Proof.Machine
end

