-- ==== Sys2Proof/Machine/State.lean ====
section
/-! DEFINITION. The state of the block: every register of 10_state.md R25, the sample space and the
event space of 20_memory.md R60, and the state after reset (70_reset_and_hazards.md R280). -/

namespace Sys2Proof.Machine

/-- `run` (10_state.md R26). The code 3 is never produced, so it is not here (log 9). -/
inductive RunStatus where
  | unconfigured
  | running
  | fatal
deriving DecidableEq, Repr

/-- `state`, the FSM state (10_state.md R27, 42_frame_fsm.md R170). -/
inductive FsmState where
  | initial
  | idle
  | command
deriving DecidableEq, Repr

/-- `seg`, the current segment inside COMMAND (10_state.md R32). -/
inductive Segment where
  | cmd
  | rsp
deriving DecidableEq, Repr

/-- `phase`, the current wait inside COMMAND (10_state.md R33). -/
inductive Phase where
  | bitLow
  | bitHigh
  | stopLow
  | rspWait
deriving DecidableEq, Repr

/-- The three frame-local errors (60_exceptions.md R240). -/
inductive FrameError where
  | bitTimeout
  | unknownCommand
  | responseTimeout
deriving DecidableEq, Repr

/-- The four error kinds (60_exceptions.md R240): the fatal one and the frame-local ones. -/
inductive ErrorKind where
  | config
  | frameLocal (e : FrameError)
deriving DecidableEq, Repr

/-- What an event carries beside its span, by kind (20_memory.md R64, R65). -/
inductive Payload where
  | command (opcode : Byte) (known : Bool)
  | commandData (value : Byte)
  | responseData (value : Byte)
  | bit (value : Bool)
  | stopBit (width : Nat)
  | error (cause : FrameError)
deriving DecidableEq, Repr

/-- One event of the event space, with its half-open span `[start, stop)` (20_memory.md R63 to R65). -/
structure Event where
  start : Nat
  stop : Nat
  payload : Payload
deriving DecidableEq, Repr

/-- The registers of 10_state.md R25, then the model's own three fields for the spaces and the port
that R21 and 20_memory.md R60 name (log 1, log 4, log 5). Positions and counts are unbounded (log 7). -/
structure State where
  /-- Run status (R26). -/
  run : RunStatus
  /-- FSM state (R27). -/
  state : FsmState
  /-- Configured sample rate (R28). -/
  fs : SampleRate
  /-- Configured role (R28). -/
  role : Role
  /-- Profile: idle minimum (R28). -/
  idleMin : Nat
  /-- Profile: bit midpoint (R28). -/
  bitMidpoint : Nat
  /-- Profile: nominal stop-bit width (R28). -/
  stopBitWidth : Nat
  /-- Profile: bit timeout (R28). -/
  bitTimeout : Nat
  /-- Profile: response timeout (R28). -/
  responseTimeout : Nat
  /-- Samples consumed since reset, the cursor (R29). -/
  n : Nat
  /-- Consecutive high samples in INITIAL (R30). -/
  hiCnt : Nat
  /-- Samples elapsed in the current bounded wait (R31). -/
  tmr : Nat
  /-- Segment (R32). -/
  seg : Segment
  /-- Phase inside COMMAND (R33). -/
  phase : Phase
  /-- Start of the current frame (R34). -/
  frameStart : Nat
  /-- Start of the current byte (R34). -/
  byteStart : Nat
  /-- Start of the current bit cell (R34). -/
  bitStart : Nat
  /-- Start of the current stop bit (R34). -/
  stopStart : Nat
  /-- Low duration of the current cell (R35). -/
  lowDur : Nat
  /-- Value of the current bit (R35). -/
  bitVal : Bool
  /-- Byte accumulator (R36). -/
  shreg : Byte
  /-- Completed bits of the current byte (R36). -/
  bitCnt : BitVec 3
  /-- Opcode of the current frame (R37). -/
  opcode : Byte
  /-- `command_len` of the current frame (R37). -/
  cmdLen : Length6
  /-- `response_len` of the current frame (R37). -/
  rspLen : Length6
  /-- Completed bytes of the current segment (R37). -/
  byteIdx : Length6
  /-- The input events the host has still to present, first one first (00_scope.md R15; log 1). -/
  input : List InputEvent
  /-- The event space, first emitted first (20_memory.md R63; log 4). -/
  events : List Event
  /-- The port `ev_count`: events of the latest step (10_state.md R21; log 5). -/
  evCount : Nat
deriving DecidableEq, Repr

/-- Reasons a step can stop the machine: none. "the step function is total and deterministic"
(42_frame_fsm.md R191) and no access can fault (20_memory.md R73); the four errors of the block are
next states (60_exceptions.md R240). Safe (log 15). -/
inductive Fault where
deriving DecidableEq, Repr

/-- Reasons an instruction has no meaning in the model. -/
inductive Refusal where
  /-- Raised by an arm of `exec` whose instruction has no meaning yet (none in this model). Safe. -/
  | notModelled (mnemonic : String)
deriving DecidableEq, Repr

/-- The machine right after reset: every register as 70_reset_and_hazards.md R280 writes it. The
model's own fields: nothing pending, nothing emitted (log 12). -/
def State.reset : State where
  run := .unconfigured
  state := .initial
  fs := 0
  role := .console
  idleMin := 0
  bitMidpoint := 0
  stopBitWidth := 0
  bitTimeout := 0
  responseTimeout := 0
  n := 0
  hiCnt := 0
  tmr := 0
  seg := .cmd
  phase := .bitLow
  frameStart := 0
  byteStart := 0
  bitStart := 0
  stopStart := 0
  lowDur := 0
  bitVal := false
  shreg := 0
  bitCnt := 0
  opcode := 0
  cmdLen := 0
  rspLen := 0
  byteIdx := 0
  input := []
  events := []
  evCount := 0

end Sys2Proof.Machine
end

