-- ==== Sys2Proof/Machine/Ops.lean ====
section
/-! DEFINITION. The named operations on the registers and the spaces: consuming a sample, `Emit`, taking
an error (ONE operation for all four kinds) and the return from it, `Configure` and `Reset`. -/

namespace Sys2Proof.Machine

/-- The index `i` of the sample that the current step consumed, `n - 1` once the step has advanced the
cursor (00_scope.md R11, 42_frame_fsm.md R171). With `n == 0` no sample has been consumed (log 13). -/
def State.cursor (s : State) : Nat := s.n - 1

/-- The step takes the first pending input event: `rest` stays pending, and no event of this step has
been emitted yet (10_state.md R21; log 1, log 5). -/
def beginStep (rest : List InputEvent) (s : State) : State :=
  { s with input := rest, evCount := 0 }

/-- `n <- n + 1` (10_state.md R29). -/
def consume (s : State) : State := { s with n := s.n + 1 }

/-- `Emit`: append one event to the event space (20_memory.md R63). -/
def emit (e : Event) (s : State) : State :=
  { s with events := s.events ++ [e], evCount := s.evCount + 1 }

/-- TAKING AN ERROR. A frame-local error at sample `i` emits one Error event that spans the frame so
far, and forces INITIAL with an empty idle count (60_exceptions.md R246); nothing is saved. ConfigError
emits nothing and is reported on `run` (60_exceptions.md R243, R244, 90_conflicts.md C5; log 11). -/
def takeError (k : ErrorKind) (i : Nat) (s : State) : State :=
  match k with
  | .config => { s with run := .fatal, state := .initial }
  | .frameLocal e => { emit ⟨s.frameStart, i, .error e⟩ s with state := .initial, hiCnt := 0 }

/-- StepInitial, the idle debounce (42_frame_fsm.md R174), which is also THE RETURN from a frame-local
error (60_exceptions.md R247): the `idle_min`-th consecutive high sample leads to IDLE. -/
def resync (x : Bool) (s : State) : State :=
  if x then
    if s.hiCnt + 1 = s.idleMin then { s with hiCnt := s.hiCnt + 1, state := .idle }
    else { s with hiCnt := s.hiCnt + 1 }
  else { s with hiCnt := 0 }

/-- A successful Configure loads a profile (40_timing_profile.md R124, second branch). -/
def loadProfile (f : SampleRate) (r : Role) (p : TimingProfile) (s : State) : State :=
  { s with
    fs := f, role := r, idleMin := p.idleMin, bitMidpoint := p.bitMidpoint,
    bitTimeout := p.bitTimeout, responseTimeout := p.responseTimeout,
    stopBitWidth := p.stopBitWidth, run := .running, state := .initial, hiCnt := 0 }

/-- `Configure(f, r)` (40_timing_profile.md R124, R125). -/
def configure (f : SampleRate) (r : Role) (s : State) : State :=
  if s.run = .fatal then s
  else
    match profile f.toNat r with
    | none => takeError .config s.cursor s
    | some p => loadProfile f r p s

/-- The `Reset` input event: every register as after reset (70_reset_and_hazards.md R280). What is
still to come and what has been emitted are not registers (10_state.md R39; log 4). -/
def hardReset (s : State) : State :=
  { State.reset with input := s.input, events := s.events }

end Sys2Proof.Machine
end

