-- ==== Sys2Proof/Machine/Operands.lean ====
section
/-! DEFINITION. How a frame's operands, its bytes, are assembled and counted: the shift law, ByteStart,
StopStart, AfterByte and the completion of a data byte (41_bit_byte_stop.md, 42_frame_fsm.md). -/

namespace Sys2Proof.Machine

/-- The shift law, `((shreg << 1) | bit_val) & 0xFF` (41_bit_byte_stop.md R150). -/
def shiftIn (v : Byte) (b : Bool) : Byte :=
  ((v <<< 1) ||| (if b then 1 else 0)) &&& 0xFF

/-- ByteStart at the falling edge `i` (41_bit_byte_stop.md R148). -/
def startByte (i : Nat) (s : State) : State :=
  { s with byteStart := i, bitStart := i, bitCnt := 0, shreg := 0, phase := .bitLow, tmr := 0 }

/-- StopStart at the falling edge `i` (41_bit_byte_stop.md R157). -/
def startStop (i : Nat) (s : State) : State :=
  { s with stopStart := i, phase := .stopLow }

/-- AfterByte: the falling edge at `i` begins the stop bit once `k` bytes make the segment's length,
else the next byte (42_frame_fsm.md R187). -/
def afterByte (k len : Length6) (i : Nat) (s : State) : State :=
  if k = len then startStop i s else startByte i s

/-- CommandDataDone (42_frame_fsm.md R181). -/
def commandDataDone (v : Byte) (i : Nat) (s : State) : State :=
  afterByte (s.byteIdx + 1) s.cmdLen i
    { emit ⟨s.byteStart, i, .commandData v⟩ s with byteIdx := s.byteIdx + 1 }

/-- ResponseDataDone (42_frame_fsm.md R185). -/
def responseDataDone (v : Byte) (i : Nat) (s : State) : State :=
  afterByte (s.byteIdx + 1) s.rspLen i
    { emit ⟨s.byteStart, i, .responseData v⟩ s with byteIdx := s.byteIdx + 1 }

end Sys2Proof.Machine
end

