-- ==== Sys2Proof/Machine/Commands.lean ====
section
/-! DEFINITION. The meanings of the 15 commands: what the step that completes a known opcode does
(42_frame_fsm.md R179; 43_commands.md R212 to R226), and of an unknown opcode (R180). -/

namespace Sys2Proof.Machine

/-- OpcodeDone for a known opcode (42_frame_fsm.md R179): latch it, emit Command over the opcode byte,
latch the two lengths, count the opcode as the first byte, then AfterByte. -/
def recognise (op : Byte) (c r : Length6) (s : State) : State :=
  afterByte 1 c s.cursor
    { emit ⟨s.byteStart, s.cursor, .command op true⟩ s with
      opcode := op, cmdLen := c, rspLen := r, byteIdx := 1 }

/-- OpcodeDone for an unknown opcode (42_frame_fsm.md R180): the Command event with `known = 0`, then
UnknownCommandError. The opcode is latched before the lookup (R179; log 10). -/
def unknownOpcode (v : Byte) (s : State) : State :=
  takeError (.frameLocal .unknownCommand) s.cursor
    (emit ⟨s.byteStart, s.cursor, .command v false⟩ { s with opcode := v })

/-- `Info`, opcode 0x00, `command_len` 1, `response_len` 3: the command's stop bit follows
(43_commands.md R212). -/
def execInfo (s : State) : Host.Outcome State Fault Refusal :=
  .next (recognise 0x00 1 3 s)

/-- `Controller State`, opcode 0x01, `command_len` 1, `response_len` 4: the command's stop bit follows
(43_commands.md R213). -/
def execControllerState (s : State) : Host.Outcome State Fault Refusal :=
  .next (recognise 0x01 1 4 s)

/-- `Read Accessory`, opcode 0x02, `command_len` 3, `response_len` 33: 2 command-data bytes follow
(43_commands.md R214). -/
def execReadAccessory (s : State) : Host.Outcome State Fault Refusal :=
  .next (recognise 0x02 3 33 s)

/-- `Write Accessory`, opcode 0x03, `command_len` 35, `response_len` 1: 34 command-data bytes follow
(43_commands.md R215). -/
def execWriteAccessory (s : State) : Host.Outcome State Fault Refusal :=
  .next (recognise 0x03 35 1 s)

/-- `Read EEPROM`, opcode 0x04, `command_len` 2, `response_len` 8: 1 command-data byte follows
(43_commands.md R216). -/
def execReadEeprom (s : State) : Host.Outcome State Fault Refusal :=
  .next (recognise 0x04 2 8 s)

/-- `Write EEPROM`, opcode 0x05, `command_len` 10, `response_len` 1: 9 command-data bytes follow
(43_commands.md R217). -/
def execWriteEeprom (s : State) : Host.Outcome State Fault Refusal :=
  .next (recognise 0x05 10 1 s)

/-- `Read GBA`, opcode 0x14, `command_len` 3, `response_len` 33: 2 command-data bytes follow
(43_commands.md R218). -/
def execReadGba (s : State) : Host.Outcome State Fault Refusal :=
  .next (recognise 0x14 3 33 s)

/-- `Write GBA`, opcode 0x15, `command_len` 35, `response_len` 1: 34 command-data bytes follow
(43_commands.md R219). -/
def execWriteGba (s : State) : Host.Outcome State Fault Refusal :=
  .next (recognise 0x15 35 1 s)

/-- `Short Poll`, opcode 0x40, `command_len` 3, `response_len` 8: 2 command-data bytes follow
(43_commands.md R220). -/
def execShortPoll (s : State) : Host.Outcome State Fault Refusal :=
  .next (recognise 0x40 3 8 s)

/-- `Read Origin`, opcode 0x41, `command_len` 1, `response_len` 10: the command's stop bit follows
(43_commands.md R221). -/
def execReadOrigin (s : State) : Host.Outcome State Fault Refusal :=
  .next (recognise 0x41 1 10 s)

/-- `Calibrate`, opcode 0x42, `command_len` 3, `response_len` 10: 2 command-data bytes follow
(43_commands.md R222). -/
def execCalibrate (s : State) : Host.Outcome State Fault Refusal :=
  .next (recognise 0x42 3 10 s)

/-- `Long Poll`, opcode 0x43, `command_len` 3, `response_len` 10: 2 command-data bytes follow
(43_commands.md R223). -/
def execLongPoll (s : State) : Host.Outcome State Fault Refusal :=
  .next (recognise 0x43 3 10 s)

/-- `Fix Device`, opcode 0x4E, `command_len` 3, `response_len` 3: 2 command-data bytes follow
(43_commands.md R224). -/
def execFixDevice (s : State) : Host.Outcome State Fault Refusal :=
  .next (recognise 0x4E 3 3 s)

/-- `Keyboard Poll`, opcode 0x54, `command_len` 3, `response_len` 8: 2 command-data bytes follow
(43_commands.md R225). -/
def execKeyboardPoll (s : State) : Host.Outcome State Fault Refusal :=
  .next (recognise 0x54 3 8 s)

/-- `Reset`, opcode 0xFF, `command_len` 1, `response_len` 3: the command's stop bit follows
(43_commands.md R226). -/
def execReset (s : State) : Host.Outcome State Fault Refusal :=
  .next (recognise 0xFF 1 3 s)

end Sys2Proof.Machine
end

