-- ==== Sys2Proof/Machine/Dispatch.lean ====
section
/-! DEFINITION. The dispatch: one arm per constructor of `Instr`, one direct call each. -/

namespace Sys2Proof.Machine

def exec (i : Instr) (s : State) : Host.Outcome State Fault Refusal :=
  match i with
  | .info => Sys2Proof.Machine.execInfo s
  | .controllerState => Sys2Proof.Machine.execControllerState s
  | .readAccessory => Sys2Proof.Machine.execReadAccessory s
  | .writeAccessory => Sys2Proof.Machine.execWriteAccessory s
  | .readEeprom => Sys2Proof.Machine.execReadEeprom s
  | .writeEeprom => Sys2Proof.Machine.execWriteEeprom s
  | .readGba => Sys2Proof.Machine.execReadGba s
  | .writeGba => Sys2Proof.Machine.execWriteGba s
  | .shortPoll => Sys2Proof.Machine.execShortPoll s
  | .readOrigin => Sys2Proof.Machine.execReadOrigin s
  | .calibrate => Sys2Proof.Machine.execCalibrate s
  | .longPoll => Sys2Proof.Machine.execLongPoll s
  | .fixDevice => Sys2Proof.Machine.execFixDevice s
  | .keyboardPoll => Sys2Proof.Machine.execKeyboardPoll s
  | .reset => Sys2Proof.Machine.execReset s

end Sys2Proof.Machine
end

