-- ==== Sys2Proof/Machine/Flags.lean ====
section
/-! DEFINITION. The block's one computed flag, `bit_val` (10_state.md R38). There are no condition
codes. -/

namespace Sys2Proof.Machine

/-- The pulse-width classifier: a bit is 0 iff its low pulse is longer than the midpoint; a tie is 1
(41_bit_byte_stop.md R142, R153). -/
def classify (lowDur midpoint : Nat) : Bool :=
  if lowDur > midpoint then false else true

end Sys2Proof.Machine
end

