-- ==== Sys2Proof/Machine/Sample.lean ====
section
/-! DEFINITION. The `Sample(x)` step (42_frame_fsm.md R171): its dispatch, IDLE, and the phases of the
COMMAND sequence (41_bit_byte_stop.md, 42_frame_fsm.md R175 to R187), and the reaction to each input
event. Every phase gets `i`, the index of the sample that the step consumed, after `n <- n + 1`. -/

namespace Sys2Proof.Machine

/-- FrameStart at the falling edge `i` (42_frame_fsm.md R176). -/
def startFrame (i : Nat) (s : State) : State :=
  startByte i { s with state := .command, frameStart := i, seg := .cmd, byteIdx := 0 }

/-- StepIdle (42_frame_fsm.md R175). -/
def stepIdle (x : Bool) (i : Nat) (s : State) : State :=
  if x then s else startFrame i s

/-- A wait inside COMMAND sees no edge: count, and raise `e` when `bound` samples have elapsed
(41_bit_byte_stop.md R143, R145, 42_frame_fsm.md R183). -/
def countOrRaise (bound : Nat) (e : FrameError) (i : Nat) (s : State) : State :=
  if s.tmr + 1 = bound then takeError (.frameLocal e) i s else { s with tmr := s.tmr + 1 }

/-- BIT_LOW (41_bit_byte_stop.md R142 on the rising edge, R143 otherwise). -/
def stepBitLow (x : Bool) (i : Nat) (s : State) : State :=
  if x then
    { s with
      lowDur := s.tmr + 1, bitVal := classify (s.tmr + 1) s.bitMidpoint,
      phase := .bitHigh, tmr := 0 }
  else countOrRaise s.bitTimeout .bitTimeout i s

/-- The cell is complete at the falling edge `i`: the Bit event, and the bit shifted in
(41_bit_byte_stop.md R144, R150). -/
def completeCell (i : Nat) (s : State) : State :=
  { emit ⟨s.bitStart, i, .bit s.bitVal⟩ s with shreg := shiftIn s.shreg s.bitVal }

/-- The next cell of the same byte begins at `i` (41_bit_byte_stop.md R144). -/
def nextCell (i : Nat) (s : State) : State :=
  { s with bitCnt := s.bitCnt + 1, bitStart := i, phase := .bitLow, tmr := 0 }

/-- OpcodeDone (42_frame_fsm.md R179, R180): a known opcode runs its command. -/
def opcodeDone (v : Byte) (s : State) : Host.Outcome State Fault Refusal :=
  match decode [v] with
  | .ok (i, _) => exec i s
  | .error _ => .next (unknownOpcode v s)

/-- ByteDone (42_frame_fsm.md R178). -/
def byteDone (v : Byte) (i : Nat) (s : State) : Host.Outcome State Fault Refusal :=
  if s.seg = .cmd ∧ s.byteIdx = 0 then opcodeDone v s
  else if s.seg = .cmd then .next (commandDataDone v i s)
  else .next (responseDataDone v i s)

/-- BIT_HIGH (41_bit_byte_stop.md R144 on the falling edge, R145 otherwise). -/
def stepBitHigh (x : Bool) (i : Nat) (s : State) : Host.Outcome State Fault Refusal :=
  if x then .next (countOrRaise s.bitTimeout .bitTimeout i s)
  else
    let t := completeCell i s
    if s.bitCnt = 7 then byteDone t.shreg i t else .next (nextCell i t)

/-- SegmentDone (42_frame_fsm.md R182 for the command segment, R186 for the response segment). -/
def segmentDone (s : State) : State :=
  match s.seg with
  | .cmd => { s with phase := .rspWait, tmr := 0 }
  | .rsp => { s with state := .idle }

/-- STOP_LOW (41_bit_byte_stop.md R158 on the rising edge, R159 otherwise: no bound, no width check). -/
def stepStopLow (x : Bool) (i : Nat) (s : State) : State :=
  if x then segmentDone (emit ⟨s.stopStart, i, .stopBit s.stopBitWidth⟩ s) else s

/-- RSP_WAIT (42_frame_fsm.md R183 with no edge, R184 on the falling edge). -/
def stepRspWait (x : Bool) (i : Nat) (s : State) : State :=
  if x then countOrRaise s.responseTimeout .responseTimeout i s
  else if s.rspLen = 0 then startStop i { s with seg := .rsp, byteIdx := 0 }
  else startByte i { s with seg := .rsp, byteIdx := 0 }

/-- One sample in state COMMAND (42_frame_fsm.md R171, inner match). -/
def stepCommand (x : Bool) (i : Nat) (s : State) : Host.Outcome State Fault Refusal :=
  match s.phase with
  | .bitLow => .next (stepBitLow x i s)
  | .bitHigh => stepBitHigh x i s
  | .stopLow => .next (stepStopLow x i s)
  | .rspWait => .next (stepRspWait x i s)

/-- The work of a sample while RUNNING (42_frame_fsm.md R171). -/
def stepRunning (x : Bool) (i : Nat) (s : State) : Host.Outcome State Fault Refusal :=
  match s.state with
  | .initial => .next (resync x s)
  | .idle => .next (stepIdle x i s)
  | .command => stepCommand x i s

/-- `Sample(x)` (42_frame_fsm.md R171, R172; 60_exceptions.md R244). -/
def sampleStep (x : Bool) (s : State) : Host.Outcome State Fault Refusal :=
  match s.run with
  | .unconfigured => .next (takeError .config s.n (consume s))
  | .fatal => .next (consume s)
  | .running => stepRunning x s.n (consume s)

/-- The block's reaction to one input event (00_scope.md R15). -/
def react (e : InputEvent) (s : State) : Host.Outcome State Fault Refusal :=
  match e with
  | .reset => .next (hardReset s)
  | .configure f r => .next (configure f r s)
  | .sample x => sampleStep x s

end Sys2Proof.Machine
end

