-- ==== Sys2Proof/Machine/Step.lean ====
section
/-! DEFINITION. One step of the machine, and where the host places an instruction for the next step. -/

namespace Sys2Proof.Machine

/-- One step: the reaction to the first pending input event (00_scope.md R15, 10_state.md R20). "a clock
edge with no input event changes nothing" (R20), and a run whose input is over keeps every register
(00_scope.md R16; log 6). -/
def step (s : State) : Host.Outcome State Fault Refusal :=
  match s.input with
  | [] => .next s
  | e :: rest => react e (beginStep rest s)

/-- The state in which the next sample completes the opcode byte `w` (log 14): RUNNING, inside the first
byte of a frame, seven bits shifted in, the eighth classified, and a low sample next. -/
def State.withFetchWord (s : State) (nbits w : Nat) : State :=
  let v : Byte := (wordBytes nbits w).headD 0
  { s with
    run := .running, state := .command, seg := .cmd, phase := .bitHigh, byteIdx := 0,
    bitCnt := 7, shreg := v >>> 1, bitVal := v.getLsbD 0, input := .sample false :: s.input }

end Sys2Proof.Machine
end

