-- ==== Sys2Proof/Machine/Ports.lean ====
section
/-! DEFINITION. The block's boundary: the numeric codes, the event record, the output ports, and one
clock cycle of the input ports (10_state.md R20 to R27, 20_memory.md R64, 60_exceptions.md R241). -/

namespace Sys2Proof.Machine

/-- The code of `run` (10_state.md R26). -/
def RunStatus.code : RunStatus → BitVec 2
  | .unconfigured => 0
  | .running => 1
  | .fatal => 2

/-- The code of `state` (10_state.md R27). -/
def FsmState.code : FsmState → BitVec 2
  | .initial => 0
  | .idle => 1
  | .command => 2

/-- The code of `seg` (10_state.md R32). -/
def Segment.code : Segment → BitVec 1
  | .cmd => 0
  | .rsp => 1

/-- The code of `phase` (10_state.md R33). -/
def Phase.code : Phase → BitVec 2
  | .bitLow => 0
  | .bitHigh => 1
  | .stopLow => 2
  | .rspWait => 3

/-- The code of `role` and of `cfg_role` (10_state.md R21, R28). -/
def roleCode : Role → BitVec 1
  | .console => 0
  | .controller => 1

/-- The role that `cfg_role` presents (10_state.md R21). -/
def roleOfCode (b : BitVec 1) : Role := if b = 0 then .console else .controller

/-- The cause code of a frame-local error; 0 is never produced (60_exceptions.md R241). -/
def FrameError.code : FrameError → BitVec 2
  | .bitTimeout => 1
  | .unknownCommand => 2
  | .responseTimeout => 3

/-- The message text of a frame-local error (60_exceptions.md R241). -/
def FrameError.message : FrameError → String
  | .bitTimeout => "Bit timeout"
  | .unknownCommand => "Unknown command"
  | .responseTimeout => "Response timeout"

/-- The event record of an output port (20_memory.md R64). -/
structure EventRecord where
  kind : BitVec 3
  start : Nat
  stop : Nat
  data : Byte
  known : Bool
  width : Nat
  cause : BitVec 2
deriving DecidableEq, Repr

/-- The record of an event; a field that its kind does not use is 0 (20_memory.md R64). -/
def Event.record (e : Event) : EventRecord :=
  match e.payload with
  | .command op known => ⟨0, e.start, e.stop, op, known, 0, 0⟩
  | .commandData v => ⟨1, e.start, e.stop, v, false, 0, 0⟩
  | .responseData v => ⟨2, e.start, e.stop, v, false, 0, 0⟩
  | .bit b => ⟨3, e.start, e.stop, if b then 1 else 0, false, 0, 0⟩
  | .stopBit w => ⟨4, e.start, e.stop, 0, false, w, 0⟩
  | .error c => ⟨5, e.start, e.stop, 0, false, 0, c.code⟩

/-- `resolved_name` of a Command event, which the host applies (20_memory.md R64, 30_encoding.md R106;
log 16). -/
def Event.resolvedName (e : Event) : Option String :=
  match e.payload with
  | .command op _ => some (Sys2Proof.resolvedName op)
  | _ => none

/-- `message` of an Error event (20_memory.md R64; log 16). -/
def Event.message (e : Event) : Option String :=
  match e.payload with
  | .error c => some c.message
  | _ => none

/-- What the `state` port shows: "It has meaning only while run == RUNNING; in the other two run
states it reads INITIAL" (10_state.md R27). -/
def statePort (s : State) : FsmState :=
  if s.run = .running then s.state else .initial

/-- `pos`, the index of the latest consumed sample; "meaningless while n == 0" (10_state.md R21; log 13). -/
def posPort (s : State) : Option Nat :=
  if s.n = 0 then none else some (s.n - 1)

/-- `ev[0..]`, the events of the latest step in emission order (10_state.md R21; log 19). -/
def evPort (s : State) : List Event :=
  s.events.drop (s.events.length - s.evCount)

/-- The output ports (10_state.md R21, R24). -/
structure Outputs where
  run : BitVec 2
  state : BitVec 2
  pos : Option Nat
  evCount : BitVec 2
  ev : List EventRecord
deriving DecidableEq, Repr

/-- What the host can observe of the block, and nothing else (10_state.md R24). -/
def outputs (s : State) : Outputs where
  run := s.run.code
  state := (statePort s).code
  pos := posPort s
  evCount := BitVec.ofNat 2 s.evCount
  ev := (evPort s).map Event.record

/-- The input ports in one clock cycle (10_state.md R21). -/
structure Cycle where
  rst : Bool
  sampleValid : Bool
  sample : Bool
  cfgLoad : Bool
  cfgFs : SampleRate
  cfgRole : BitVec 1
deriving DecidableEq, Repr

/-- The steps of one clock cycle: `rst` alone when set; else `Configure` before `Sample` when both are
presented; else the one presented, or none (10_state.md R20, R22; log 18). -/
def Cycle.inputEvents (c : Cycle) : List InputEvent :=
  if c.rst then [.reset]
  else
    (if c.cfgLoad then [.configure c.cfgFs (roleOfCode c.cfgRole)] else []) ++
      (if c.sampleValid then [.sample c.sample] else [])

/-- The block's steps on a list of input events, each one step. -/
def reactAll : List InputEvent → State → Host.Outcome State Fault Refusal
  | [], s => .next s
  | e :: es, s =>
    match react e (beginStep s.input s) with
    | .next t => reactAll es t
    | .fault r => .fault r
    | .refused r => .refused r

/-- One rising clock edge with these input ports (10_state.md R20, R22). -/
def clock (c : Cycle) (s : State) : Host.Outcome State Fault Refusal :=
  reactAll c.inputEvents s

end Sys2Proof.Machine
end

