-- ==== Sys2Proof/Machine/Wire.lean ====
section
/-! DEFINITION. The wire encoding of bit cells, bytes, stop bits and frames (30_encoding.md R90 to R97),
the stimulus notation (R107, R108), and the events that a well-formed frame completes (20_memory.md R65,
43_commands.md R212 to R226). Nothing here is read by the step. -/

namespace Sys2Proof.Machine

/-- One run of the stimulus notation: `H<k>` or `L<k>` (30_encoding.md R107). -/
inductive Run where
  | high (k : Nat)
  | low (k : Nat)
deriving DecidableEq, Repr

/-- The samples of a run (30_encoding.md R107). -/
def Run.samples : Run → List Bool
  | .high k => List.replicate k true
  | .low k => List.replicate k false

/-- The samples of a list of runs (30_encoding.md R107). -/
def stimulus (rs : List Run) : List Bool := rs.flatMap Run.samples

/-- A bit cell by the lengths of its low and high phases (30_encoding.md R91). -/
structure Cell where
  low : Nat
  high : Nat
deriving DecidableEq, Repr

/-- The runs of a cell: the low phase, then the high phase (30_encoding.md R91). -/
def Cell.runs (c : Cell) : List Run := [.low c.low, .high c.high]

/-- The samples of a cell. -/
def Cell.samples (c : Cell) : List Bool :=
  List.replicate c.low false ++ List.replicate c.high true

/-- The length of a cell in samples. -/
def Cell.length (c : Cell) : Nat := c.low + c.high

/-- A cell is accepted when both phases last 1 to `bit_timeout` samples (30_encoding.md R91). -/
def Cell.accepted (bitTimeout : Nat) (c : Cell) : Bool :=
  decide (1 ≤ c.low) && decide (c.low ≤ bitTimeout) &&
    decide (1 ≤ c.high) && decide (c.high ≤ bitTimeout)

/-- The four cell-shape numbers `l0 h0 l1 h1` of a stimulus (30_encoding.md R108). -/
structure CellShape where
  zero : Cell
  one : Cell
deriving DecidableEq, Repr

/-- `BIT(b)` (30_encoding.md R108). -/
def bitCell (sh : CellShape) (b : Bool) : Cell := if b then sh.one else sh.zero

/-- The bits of a byte in wire order, most significant first (20_memory.md R67). -/
def wireBits (v : Byte) : List Bool :=
  [v.getLsbD 7, v.getLsbD 6, v.getLsbD 5, v.getLsbD 4,
   v.getLsbD 3, v.getLsbD 2, v.getLsbD 1, v.getLsbD 0]

/-- `BYTE(v)`, the eight cells of a byte (30_encoding.md R93, R108). -/
def byteCells (sh : CellShape) (v : Byte) : List Cell := (wireBits v).map (bitCell sh)

/-- The byte that eight cells carry at a midpoint: "start from 0 and, for each of the eight cells in
wire order, value <- ((value << 1) | bit) & 0xFF" (30_encoding.md R96). -/
def cellsByte (midpoint : Nat) (cs : List Cell) : Byte :=
  cs.foldl (fun v c => shiftIn v (classify c.low midpoint)) 0

/-- A frame on the wire: its command bytes and response bytes as cells, the low lengths of the two stop
bits and the length of the response gap (30_encoding.md R90, R94, R95, R97). -/
structure WireFrame where
  cmdBytes : List (List Cell)
  cmdStop : Nat
  gap : Nat
  rspBytes : List (List Cell)
  rspStop : Nat
deriving DecidableEq, Repr

/-- The samples of the cells of some bytes, with nothing between them (30_encoding.md R93). -/
def bytesSamples (bs : List (List Cell)) : List Bool := bs.flatten.flatMap Cell.samples

/-- The length in samples of the cells of some bytes. -/
def cellsLength (cs : List Cell) : Nat := (cs.map Cell.length).sum

/-- The samples of a frame, up to and including the first high sample after the response's stop bit,
which is the rising edge that ends the frame (30_encoding.md R90, R95). -/
def WireFrame.samples (w : WireFrame) : List Bool :=
  bytesSamples w.cmdBytes ++ List.replicate w.cmdStop false ++ List.replicate w.gap true ++
    bytesSamples w.rspBytes ++ List.replicate w.rspStop false ++ [true]

/-- Eight accepted cells (30_encoding.md R91, R93). -/
def acceptedByte (bitTimeout : Nat) (cs : List Cell) : Bool :=
  cs.length == 8 && cs.all (Cell.accepted bitTimeout)

/-- The conditions of 42_frame_fsm.md R193 on a frame's stream for the command `i`: the lengths of the
table, the opcode byte, accepted cells, an accepted gap, and stop bits that have a low phase. -/
def WireFrame.accepted (midpoint bitTimeout responseTimeout : Nat) (i : Instr) (w : WireFrame) : Bool :=
  w.cmdBytes.length == i.spec.commandLen && w.rspBytes.length == i.spec.responseLen &&
    cellsByte midpoint (w.cmdBytes.headD []) == encodeOpcode i &&
    w.cmdBytes.all (acceptedByte bitTimeout) && w.rspBytes.all (acceptedByte bitTimeout) &&
    decide (1 ≤ w.cmdStop) && decide (1 ≤ w.gap) && decide (w.gap ≤ responseTimeout) &&
    decide (1 ≤ w.rspStop)

/-- The Bit events of consecutive cells, the first beginning at `pos` (41_bit_byte_stop.md R144). -/
def cellEvents (midpoint : Nat) : Nat → List Cell → List Event
  | _, [] => []
  | pos, c :: cs =>
    ⟨pos, pos + c.length, .bit (classify c.low midpoint)⟩ :: cellEvents midpoint (pos + c.length) cs

/-- The events of consecutive bytes, each byte's Bit events before its own event, which spans the byte
(20_memory.md R65, R68, R75). -/
def byteEvents (midpoint : Nat) (mk : Byte → Payload) : Nat → List (List Cell) → List Event
  | _, [] => []
  | pos, b :: bs =>
    cellEvents midpoint pos b ++
      ⟨pos, pos + cellsLength b, mk (cellsByte midpoint b)⟩ ::
        byteEvents midpoint mk (pos + cellsLength b) bs

/-- The events of a well-formed frame that begins at `pos`, in order of completion (43_commands.md R212
to R226, 20_memory.md R65). -/
def WireFrame.events (midpoint stopWidth pos : Nat) (w : WireFrame) : List Event :=
  let p1 := pos + cellsLength w.cmdBytes.flatten
  let p2 := p1 + w.cmdStop + w.gap
  let p3 := p2 + cellsLength w.rspBytes.flatten
  byteEvents midpoint (fun v => .command v true) pos (w.cmdBytes.take 1) ++
    byteEvents midpoint .commandData (pos + cellsLength (w.cmdBytes.headD [])) (w.cmdBytes.drop 1) ++
    [⟨p1, p1 + w.cmdStop, .stopBit stopWidth⟩] ++
    byteEvents midpoint .responseData p2 w.rspBytes ++
    [⟨p3, p3 + w.rspStop, .stopBit stopWidth⟩]

/-- A frame put on the wire with one cell shape, stop lengths and gap (30_encoding.md R95, R107, R108). -/
def wireFrame (sh : CellShape) (cmdStop gap rspStop : Nat) (f : Frame) : WireFrame where
  cmdBytes := (encodeOpcode f.instr :: f.cmdData).map (byteCells sh)
  cmdStop := cmdStop
  gap := gap
  rspBytes := f.rspData.map (byteCells sh)
  rspStop := rspStop

/-- The bytes of a frame that bytes on the wire carry, in wire order (30_encoding.md R96). -/
def WireFrame.bytes (midpoint : Nat) (w : WireFrame) : List Byte :=
  (w.cmdBytes ++ w.rspBytes).map (cellsByte midpoint)

end Sys2Proof.Machine
end

