-- ==== Sys2Proof/Safety.lean ====
section
/-! DEFINITION. The terms that claims use: runs of the machine, the invariant of its states, and what
an event carries. -/

namespace Sys2Proof.Machine

/-- `k` steps of the machine, stopping at the first fault or refusal. It is the host's `Host.Core.run`
of `Sys2Proof.core` (Laws: `runSteps_eq_core_run`). -/
def runSteps : Nat → State → Host.Outcome State Fault Refusal
  | 0, s => .next s
  | k + 1, s =>
    match step s with
    | .next t => runSteps k t
    | .fault r => .fault r
    | .refused r => .refused r

/-- Some samples to be presented, then the rest of the input. -/
def presenting (xs : List Bool) (rest : List InputEvent) : List InputEvent :=
  xs.map InputEvent.sample ++ rest

/-- Whether an input event is a sample (00_scope.md R15). -/
def isSample : InputEvent → Bool
  | .sample _ => true
  | _ => false

/-- The length of the current segment, in bytes (42_frame_fsm.md R187). -/
def segmentLen (s : State) : Length6 :=
  match s.seg with
  | .cmd => s.cmdLen
  | .rsp => s.rspLen

/-- Inside the first byte of a frame, whose opcode is not known yet (42_frame_fsm.md R178). -/
def inOpcode (s : State) : Prop := s.seg = .cmd ∧ s.byteIdx = 0

/-- Inside a byte: bytes are still missing, and the shift register holds no more bits than are complete
(41_bit_byte_stop.md R150, 42_frame_fsm.md R187). -/
structure ByteInv (s : State) : Prop where
  missing : inOpcode s ∨ s.byteIdx < segmentLen s
  shifted : s.shreg.toNat < 2 ^ s.bitCnt.toNat
  ordered : s.byteStart ≤ s.bitStart

/-- What holds in each phase of COMMAND (41_bit_byte_stop.md R142 to R145, 42_frame_fsm.md R182, R183). -/
def PhaseInv (s : State) : Prop :=
  match s.phase with
  | .bitLow => ByteInv s ∧ s.bitStart + s.tmr + 1 = s.n ∧ s.tmr < s.bitTimeout
  | .bitHigh =>
    ByteInv s ∧ s.bitStart + s.lowDur + s.tmr + 1 = s.n ∧ s.tmr < s.bitTimeout ∧
      1 ≤ s.lowDur ∧ s.lowDur ≤ s.bitTimeout ∧ s.bitVal = classify s.lowDur s.bitMidpoint
  | .stopLow =>
    ¬ inOpcode s ∧ s.byteIdx = segmentLen s ∧ s.byteStart < s.stopStart ∧ s.stopStart < s.n
  | .rspWait =>
    s.seg = .cmd ∧ ¬ inOpcode s ∧ s.byteIdx = s.cmdLen ∧ s.tmr < s.responseTimeout ∧
      s.byteStart < s.stopStart ∧ s.stopStart + s.tmr + 1 < s.n

/-- What holds inside a frame (10_state.md R34, R37). -/
structure CommandInv (s : State) : Prop where
  started : s.frameStart ≤ s.byteStart
  first : inOpcode s → s.byteStart = s.frameStart
  latched : ¬ inOpcode s → ∃ c, lookup s.opcode = some c ∧
    s.cmdLen = BitVec.ofNat 6 c.commandLen ∧ s.rspLen = BitVec.ofNat 6 c.responseLen
  inPhase : PhaseInv s

/-- THE INVARIANT of the machine: `state` reads INITIAL unless RUNNING (10_state.md R27); while RUNNING
the profile registers are the profile of `fs` and `role` (40_timing_profile.md R126), the idle count is
below `idle_min` in INITIAL and frozen at it elsewhere (10_state.md R30), and a frame is consistent. -/
structure Inv (s : State) : Prop where
  parked : s.run ≠ .running → s.state = .initial
  profiled : s.run = .running → profile s.fs.toNat s.role =
    some ⟨s.idleMin, s.bitMidpoint, s.bitTimeout, s.responseTimeout, s.stopBitWidth⟩
  counting : s.run = .running → s.state = .initial → s.hiCnt < s.idleMin
  frozen : s.run = .running → s.state ≠ .initial → s.hiCnt = s.idleMin
  framed : s.run = .running → s.state = .command → CommandInv s

/-- The byte an event carries, if it is a byte-level event (20_memory.md R68). -/
def Event.byte? (e : Event) : Option Byte :=
  match e.payload with
  | .command op _ => some op
  | .commandData v => some v
  | .responseData v => some v
  | _ => none

/-- Whether an event is an Error event. -/
def Event.isError (e : Event) : Bool :=
  match e.payload with
  | .error _ => true
  | _ => false

/-- Whether an event is a Command event. -/
def Event.isCommand (e : Event) : Bool :=
  match e.payload with
  | .command _ _ => true
  | _ => false

/-- Whether an event is a CommandData event. -/
def Event.isCommandData (e : Event) : Bool :=
  match e.payload with
  | .commandData _ => true
  | _ => false

/-- Whether an event is a ResponseData event. -/
def Event.isResponseData (e : Event) : Bool :=
  match e.payload with
  | .responseData _ => true
  | _ => false

/-- Whether an event is a Bit event. -/
def Event.isBit (e : Event) : Bool :=
  match e.payload with
  | .bit _ => true
  | _ => false

/-- Whether an event is a StopBit event. -/
def Event.isStopBit (e : Event) : Bool :=
  match e.payload with
  | .stopBit _ => true
  | _ => false

/-- Whether some samples hold no `k` consecutive high ones, `c` high ones having been seen before them
(42_frame_fsm.md R174). -/
def noIdleGap (k : Nat) : Nat → List Bool → Bool
  | _, [] => true
  | c, x :: xs => if x then decide (c + 1 < k) && noIdleGap k (c + 1) xs else noIdleGap k 0 xs

end Sys2Proof.Machine
end

