-- ==== Sys2Proof/Certificates/Slice0/Obligations.lean ====
section
/-! DEFINITION. The statements for the provers. In every statement about a step, `s.n` is the index `i`
of the sample that the step consumes (00_scope.md R11). -/

open Sys2Proof Sys2Proof.Machine

/-! ### Commands -/

/-- A step runs the decoded command: the sample that completes a frame's first byte, a byte that decodes
to the well-formed command `i`, makes the step `exec i` on the state that has consumed the sample,
emitted the eighth Bit event and shifted its bit in (R144, R178, R179). -/
def Obligations.StepRunsDecodedCommand : Prop :=
  ∀ (s : State) (rest : List InputEvent) (i : Instr),
    s.run = .running → s.state = .command → s.phase = .bitHigh → s.bitCnt = 7 →
    s.seg = .cmd → s.byteIdx = 0 → s.input = .sample false :: rest →
    decode [shiftIn s.shreg s.bitVal] = .ok (i, []) → i.wellFormed = true →
    step s = exec i { s with
      input := rest, n := s.n + 1, shreg := shiftIn s.shreg s.bitVal,
      events := s.events ++ [⟨s.bitStart, s.n, .bit s.bitVal⟩], evCount := 1 }

/-- The four commands with no command data (Info, Controller State, Read Origin, Reset) complete: the
opcode is latched, Command is emitted over the opcode byte, the lengths are latched, and the falling
edge begins the command's stop bit; nothing else changes (R179, R187, R157). -/
def Obligations.OpcodeOnlyCommandsComplete : Prop :=
  ∀ (s : State) (p : Nat), s.n = p + 1 →
    let done (op : Byte) (r : Length6) : State := { s with
      opcode := op, cmdLen := 1, rspLen := r, byteIdx := 1, stopStart := p, phase := .stopLow,
      events := s.events ++ [⟨s.byteStart, p, .command op true⟩], evCount := s.evCount + 1 }
    exec .info s = .next (done 0x00 3) ∧
    exec .controllerState s = .next (done 0x01 4) ∧
    exec .readOrigin s = .next (done 0x41 10) ∧
    exec .reset s = .next (done 0xFF 3)

/-- The eleven commands with command data complete: as the others, but the falling edge begins the next
byte (R179, R187, R148). -/
def Obligations.DataCommandsComplete : Prop :=
  ∀ (s : State) (p : Nat), s.n = p + 1 →
    let done (op : Byte) (c r : Length6) : State := { s with
      opcode := op, cmdLen := c, rspLen := r, byteIdx := 1,
      byteStart := p, bitStart := p, bitCnt := 0, shreg := 0, phase := .bitLow, tmr := 0,
      events := s.events ++ [⟨s.byteStart, p, .command op true⟩], evCount := s.evCount + 1 }
    exec .readAccessory s = .next (done 0x02 3 33) ∧
    exec .writeAccessory s = .next (done 0x03 35 1) ∧
    exec .readEeprom s = .next (done 0x04 2 8) ∧
    exec .writeEeprom s = .next (done 0x05 10 1) ∧
    exec .readGba s = .next (done 0x14 3 33) ∧
    exec .writeGba s = .next (done 0x15 35 1) ∧
    exec .shortPoll s = .next (done 0x40 3 8) ∧
    exec .calibrate s = .next (done 0x42 3 10) ∧
    exec .longPoll s = .next (done 0x43 3 10) ∧
    exec .fixDevice s = .next (done 0x4E 3 3) ∧
    exec .keyboardPoll s = .next (done 0x54 3 8)

/-- The frame of every command: what the step that recognises an opcode leaves unchanged. The registers
it may change are `opcode`, `cmd_len`, `rsp_len`, `byte_idx`, `phase` and those of StopStart or
ByteStart; every event already emitted stays, and one is appended. -/
def Obligations.CommandsLeaveTheRest : Prop :=
  ∀ (i : Instr) (s t : State), exec i s = .next t →
    t.run = s.run ∧ t.state = s.state ∧ t.fs = s.fs ∧ t.role = s.role ∧ t.idleMin = s.idleMin ∧
    t.bitMidpoint = s.bitMidpoint ∧ t.stopBitWidth = s.stopBitWidth ∧ t.bitTimeout = s.bitTimeout ∧
    t.responseTimeout = s.responseTimeout ∧ t.n = s.n ∧ t.hiCnt = s.hiCnt ∧ t.seg = s.seg ∧
    t.frameStart = s.frameStart ∧ t.lowDur = s.lowDur ∧ t.bitVal = s.bitVal ∧ t.input = s.input ∧
    t.events.length = s.events.length + 1 ∧
    (∀ k < s.events.length, t.events[k]? = s.events[k]?) ∧
    (i.spec.commandLen = 1 → t.byteStart = s.byteStart ∧ t.bitStart = s.bitStart ∧
      t.shreg = s.shreg ∧ t.bitCnt = s.bitCnt ∧ t.tmr = s.tmr) ∧
    (i.spec.commandLen ≠ 1 → t.stopStart = s.stopStart)

/-- An unknown opcode (R180): the step emits the eighth Bit, the Command event with `known = 0` and the
Error event, in this order, and forces INITIAL; `cmd_len`, `rsp_len` and `byte_idx` are not written.
Whether the register `opcode` is written is left open (log 10). -/
def Obligations.UnknownOpcodeRaisesError : Prop :=
  ∀ (s : State) (rest : List InputEvent),
    s.run = .running → s.state = .command → s.phase = .bitHigh → s.bitCnt = 7 →
    s.seg = .cmd → s.byteIdx = 0 → s.input = .sample false :: rest →
    lookup (shiftIn s.shreg s.bitVal) = none →
    ∃ op : Byte, step s = .next { s with
      input := rest, n := s.n + 1, shreg := shiftIn s.shreg s.bitVal, opcode := op,
      state := .initial, hiCnt := 0, evCount := 3,
      events := s.events ++ [⟨s.bitStart, s.n, .bit s.bitVal⟩,
        ⟨s.byteStart, s.n, .command (shiftIn s.shreg s.bitVal) false⟩,
        ⟨s.frameStart, s.n, .error .unknownCommand⟩] }

/-! ### Decoding and encoding -/

/-- A few opcode bytes, written out cell by cell, decode to their commands (R98). -/
def Obligations.OpcodeBytesDecode : Prop :=
  decode [0b00000000] = .ok (.info, []) ∧ decode [0b00000101] = .ok (.writeEeprom, []) ∧
  decode [0b00010100] = .ok (.readGba, []) ∧ decode [0b01000010] = .ok (.calibrate, []) ∧
  decode [0b01001110] = .ok (.fixDevice, []) ∧ decode [0b01010100] = .ok (.keyboardPoll, []) ∧
  decode [0b11111111] = .ok (.reset, []) ∧ decode [0b00000111] = .error (.unknownOpcode 7)

/-- An opcode matches a row when it is equal to the row's opcode in all 8 bits, and `Table` and the
decoder know the same opcodes; 241 opcodes are unknown (R98, R99, R66). -/
def Obligations.OpcodeMapIsExact : Prop :=
  (∀ (b : Byte) (i : Instr), decodeOpcode b = some i ↔ b = encodeOpcode i) ∧
  (∀ b : Byte, lookup b = (decodeOpcode b).map Instr.spec) ∧
  ((List.range 256).filter (fun k => (lookup (BitVec.ofNat 8 k)).isNone)).length = 241

/-- Frames: decoding and encoding agree in both directions, with every operand byte at every value and
whatever bytes follow (R95, R96, R100). -/
def Obligations.FrameBytesRoundTrip : Prop :=
  ∀ (f : Frame) (bs rest : List Byte),
    (f.wellFormed = true ∧ bs = encodeFrame f ++ rest) ↔ decodeFrame bs = .ok (f, rest)

/-- The k-th bit cell of a byte (0 the first on the wire) is bit `7 - k` of the byte's value (R67). -/
def Obligations.FirstCellIsMostSignificant : Prop :=
  ∀ (midpoint : Nat) (cs : List Cell) (k : Nat) (c : Cell), cs.length = 8 → cs[k]? = some c →
    (cellsByte midpoint cs).getLsbD (7 - k) = decide (c.low ≤ midpoint)

/-- THE WIRE ROUND TRIP: the machine, IDLE, decodes a well-formed frame that is put on the wire with
accepted cells back to the frame's own bytes, whatever the data bytes and the accepted lengths (R95,
R154, R210). -/
def Obligations.FrameOnWireDecodes : Prop :=
  ∀ (s : State) (f : Frame) (sh : CellShape) (cmdStop gap rspStop : Nat) (rest : List InputEvent),
    s.run = .running → s.state = .idle → f.wellFormed = true →
    sh.zero.accepted s.bitTimeout = true → sh.one.accepted s.bitTimeout = true →
    s.bitMidpoint < sh.zero.low → sh.one.low ≤ s.bitMidpoint →
    1 ≤ cmdStop → 1 ≤ gap → gap ≤ s.responseTimeout → 1 ≤ rspStop →
    s.input = presenting (wireFrame sh cmdStop gap rspStop f).samples rest →
    ∃ (t : State) (new : List Event),
      runSteps (wireFrame sh cmdStop gap rspStop f).samples.length s = .next t ∧
      t.state = .idle ∧ t.input = rest ∧ t.events = s.events ++ new ∧
      new.filterMap Event.byte? = encodeFrame f ∧
      decodeFrame (new.filterMap Event.byte?) = .ok (f, [])

/-! ### Whole frames -/

/-- Every well-formed frame of every command, from IDLE: the machine emits exactly the events of the
frame, in order of completion, with their spans and values, and returns to IDLE (R212 to R226, R177). -/
def Obligations.WellFormedFrameEmitsItsEvents : Prop :=
  ∀ (s : State) (i : Instr) (w : WireFrame) (rest : List InputEvent),
    s.run = .running → s.state = .idle →
    w.accepted s.bitMidpoint s.bitTimeout s.responseTimeout i = true →
    s.input = presenting w.samples rest →
    ∃ t : State, runSteps w.samples.length s = .next t ∧
      t.run = .running ∧ t.state = .idle ∧ t.input = rest ∧ t.n = s.n + w.samples.length ∧
      t.events = s.events ++ w.events s.bitMidpoint s.stopBitWidth s.n

/-- Frame-length correctness (R193): the number of events of each kind. -/
def Obligations.FrameLengthCorrectness : Prop :=
  ∀ (s : State) (i : Instr) (w : WireFrame) (rest : List InputEvent),
    s.run = .running → s.state = .idle →
    w.accepted s.bitMidpoint s.bitTimeout s.responseTimeout i = true →
    s.input = presenting w.samples rest →
    ∃ (t : State) (new : List Event), runSteps w.samples.length s = .next t ∧
      t.events = s.events ++ new ∧ t.state = .idle ∧
      new.countP Event.isCommand = 1 ∧
      new.countP Event.isCommandData = i.spec.commandLen - 1 ∧
      new.countP Event.isResponseData = i.spec.responseLen ∧
      new.countP Event.isStopBit = 2 ∧ new.countP Event.isError = 0 ∧
      new.countP Event.isBit = 8 * (i.spec.commandLen + i.spec.responseLen)

/-- The unknown opcodes as one class (R228): from IDLE, eight accepted cells whose byte is not in the
table give 8 Bit events, one Command event and one Error event over the opcode byte, and INITIAL. -/
def Obligations.UnknownFrameIsAborted : Prop :=
  ∀ (s : State) (cs : List Cell) (rest : List InputEvent),
    s.run = .running → s.state = .idle → acceptedByte s.bitTimeout cs = true →
    lookup (cellsByte s.bitMidpoint cs) = none →
    s.input = presenting (cs.flatMap Cell.samples ++ [false]) rest →
    ∃ t : State, runSteps (cellsLength cs + 1) s = .next t ∧
      t.run = .running ∧ t.state = .initial ∧ t.hiCnt = 0 ∧ t.input = rest ∧
      t.events = s.events ++ cellEvents s.bitMidpoint s.n cs ++
        [⟨s.n, s.n + cellsLength cs, .command (cellsByte s.bitMidpoint cs) false⟩,
         ⟨s.n, s.n + cellsLength cs, .error .unknownCommand⟩]

/-- A byte that fails in its k-th cell (R152): after the accepted cells `cs`, the next cell's high phase
(R145) or low phase (R143) reaches `bit_timeout`. The Bit events of the complete cells stay, there is no
Bit event for the failing cell and no byte-level event, and one Error event over the frame so far ends
the frame. The byte is the first of a frame, from IDLE, or any byte of any segment: then its first
falling edge, at `bit_start`, has been consumed. -/
def Obligations.TruncatedByteIsAborted : Prop :=
  ∀ (s : State) (cs : List Cell) (low : Nat) (rest : List InputEvent),
    s.run = .running → cs.length ≤ 7 → cs.all (Cell.accepted s.bitTimeout) = true →
    let highFails := cs.flatMap Cell.samples ++ List.replicate low false ++
      List.replicate (s.bitTimeout + 1) true
    let lowFails := cs.flatMap Cell.samples ++ List.replicate (s.bitTimeout + 1) false
    let aborted (start frame stop : Nat) (t : State) : Prop :=
      t.run = .running ∧ t.state = .initial ∧ t.hiCnt = 0 ∧ t.input = rest ∧ t.n = stop + 1 ∧
        t.events = s.events ++ cellEvents s.bitMidpoint start cs ++
          [⟨frame, stop, .error .bitTimeout⟩]
    (s.state = .idle →
      (1 ≤ low → low ≤ s.bitTimeout → s.input = presenting highFails rest →
        ∃ t : State, runSteps highFails.length s = .next t ∧
          aborted s.n s.n (s.n + cellsLength cs + low + s.bitTimeout) t) ∧
      (1 ≤ s.bitTimeout → s.input = presenting lowFails rest →
        ∃ t : State, runSteps lowFails.length s = .next t ∧
          aborted s.n s.n (s.n + cellsLength cs + s.bitTimeout) t)) ∧
    (s.state = .command → s.phase = .bitLow → s.tmr = 0 → s.bitCnt = 0 → s.bitStart + 1 = s.n →
      (1 ≤ low → low ≤ s.bitTimeout → .sample false :: s.input = presenting highFails rest →
        ∃ t : State, runSteps (highFails.length - 1) s = .next t ∧
          aborted s.bitStart s.frameStart (s.bitStart + cellsLength cs + low + s.bitTimeout) t) ∧
      (1 ≤ s.bitTimeout → .sample false :: s.input = presenting lowFails rest →
        ∃ t : State, runSteps (lowFails.length - 1) s = .next t ∧
          aborted s.bitStart s.frameStart (s.bitStart + cellsLength cs + s.bitTimeout) t))

/-! ### The bit reader, the byte reader and the stop bit -/

/-- BIT_LOW, rising edge (R142): measure and classify; a tie is 1; no event. In a state of the invariant
the measured low duration is the distance from the cell's falling edge and at most `bit_timeout`. -/
def Obligations.RisingEdgeClassifiesBit : Prop :=
  ∀ (s : State) (rest : List InputEvent),
    s.run = .running → s.state = .command → s.phase = .bitLow → s.input = .sample true :: rest →
    step s = .next { s with
      input := rest, evCount := 0, n := s.n + 1,
      lowDur := s.tmr + 1, bitVal := decide (¬ s.tmr + 1 > s.bitMidpoint),
      phase := .bitHigh, tmr := 0 } ∧
    (Inv s → s.tmr + 1 = s.n - s.bitStart ∧ s.tmr + 1 ≤ s.bitTimeout)

/-- BIT_LOW, no edge (R143): count, and raise BitTimeoutError at `bit_timeout`. In a state of the
invariant the error is raised exactly at `i == bit_start + bit_timeout`. -/
def Obligations.LowPhaseCountsOrTimesOut : Prop :=
  ∀ (s : State) (rest : List InputEvent),
    s.run = .running → s.state = .command → s.phase = .bitLow → s.input = .sample false :: rest →
    (s.tmr + 1 = s.bitTimeout → step s = .next { s with
      input := rest, n := s.n + 1, state := .initial, hiCnt := 0, evCount := 1,
      events := s.events ++ [⟨s.frameStart, s.n, .error .bitTimeout⟩] }) ∧
    (s.tmr + 1 ≠ s.bitTimeout → step s = .next { s with
      input := rest, evCount := 0, n := s.n + 1, tmr := s.tmr + 1 }) ∧
    (Inv s → (s.tmr + 1 = s.bitTimeout ↔ s.n = s.bitStart + s.bitTimeout))

/-- BIT_HIGH, falling edge, within a byte (R144): the Bit event over the whole cell, the bit shifted in,
and the next cell begins at the same edge. -/
def Obligations.FallingEdgeCompletesCell : Prop :=
  ∀ (s : State) (rest : List InputEvent),
    s.run = .running → s.state = .command → s.phase = .bitHigh → s.bitCnt ≠ 7 →
    s.input = .sample false :: rest →
    step s = .next { s with
      input := rest, n := s.n + 1, evCount := 1,
      events := s.events ++ [⟨s.bitStart, s.n, .bit s.bitVal⟩],
      shreg := ((s.shreg <<< 1) ||| (if s.bitVal then 1 else 0)) &&& 0xFF,
      bitCnt := s.bitCnt + 1, bitStart := s.n, phase := .bitLow, tmr := 0 }

/-- BIT_HIGH, no edge (R145): count, and raise BitTimeoutError at `bit_timeout` past the rising edge; no
Bit event for the failing cell. -/
def Obligations.HighPhaseCountsOrTimesOut : Prop :=
  ∀ (s : State) (rest : List InputEvent),
    s.run = .running → s.state = .command → s.phase = .bitHigh → s.input = .sample true :: rest →
    (s.tmr + 1 = s.bitTimeout → step s = .next { s with
      input := rest, n := s.n + 1, state := .initial, hiCnt := 0, evCount := 1,
      events := s.events ++ [⟨s.frameStart, s.n, .error .bitTimeout⟩] }) ∧
    (s.tmr + 1 ≠ s.bitTimeout → step s = .next { s with
      input := rest, evCount := 0, n := s.n + 1, tmr := s.tmr + 1 }) ∧
    (Inv s → (s.tmr + 1 = s.bitTimeout ↔ s.n = s.bitStart + s.lowDur + s.bitTimeout))

/-- A low pulse of any length `d` from 1 to `bit_timeout`, its first low sample already consumed, is
classified by its length alone: 0 iff `d > bit_midpoint` (R153, R92). -/
def Obligations.LowPulseOfAnyLengthIsClassified : Prop :=
  ∀ (s : State) (d : Nat) (rest : List InputEvent),
    s.run = .running → s.state = .command → s.phase = .bitLow → s.tmr = 0 →
    1 ≤ d → d ≤ s.bitTimeout →
    s.input = presenting (List.replicate (d - 1) false ++ [true]) rest →
    ∃ t : State, runSteps d s = .next t ∧ t.phase = .bitHigh ∧ t.state = .command ∧
      t.lowDur = d ∧ (t.bitVal = false ↔ d > s.bitMidpoint) ∧ t.events = s.events ∧ t.input = rest

/-- A data byte of the command completes (R144, R181, R187, R157, R148): the eighth Bit, CommandData,
and either the stop bit or the next byte begins at the same falling edge. -/
def Obligations.CommandDataByteCompletes : Prop :=
  ∀ (s : State) (rest : List InputEvent),
    s.run = .running → s.state = .command → s.phase = .bitHigh → s.bitCnt = 7 →
    s.seg = .cmd → s.byteIdx ≠ 0 → s.input = .sample false :: rest →
    let v := shiftIn s.shreg s.bitVal
    let new : List Event :=
      [⟨s.bitStart, s.n, .bit s.bitVal⟩, ⟨s.byteStart, s.n, .commandData v⟩]
    (s.byteIdx + 1 = s.cmdLen → step s = .next { s with
      input := rest, n := s.n + 1, shreg := v, byteIdx := s.byteIdx + 1,
      events := s.events ++ new, evCount := 2, stopStart := s.n, phase := .stopLow }) ∧
    (s.byteIdx + 1 ≠ s.cmdLen → step s = .next { s with
      input := rest, n := s.n + 1, byteIdx := s.byteIdx + 1,
      events := s.events ++ new, evCount := 2,
      byteStart := s.n, bitStart := s.n, bitCnt := 0, shreg := 0, phase := .bitLow, tmr := 0 })

/-- A byte of the response completes (R144, R185, R187). -/
def Obligations.ResponseDataByteCompletes : Prop :=
  ∀ (s : State) (rest : List InputEvent),
    s.run = .running → s.state = .command → s.phase = .bitHigh → s.bitCnt = 7 →
    s.seg = .rsp → s.input = .sample false :: rest →
    let v := shiftIn s.shreg s.bitVal
    let new : List Event :=
      [⟨s.bitStart, s.n, .bit s.bitVal⟩, ⟨s.byteStart, s.n, .responseData v⟩]
    (s.byteIdx + 1 = s.rspLen → step s = .next { s with
      input := rest, n := s.n + 1, shreg := v, byteIdx := s.byteIdx + 1,
      events := s.events ++ new, evCount := 2, stopStart := s.n, phase := .stopLow }) ∧
    (s.byteIdx + 1 ≠ s.rspLen → step s = .next { s with
      input := rest, n := s.n + 1, byteIdx := s.byteIdx + 1,
      events := s.events ++ new, evCount := 2,
      byteStart := s.n, bitStart := s.n, bitCnt := 0, shreg := 0, phase := .bitLow, tmr := 0 })

/-- STOP_LOW, rising edge (R158, R182, R186): one StopBit event over the low phase, with the profile's
nominal width whatever its length; then RSP_WAIT for the command segment, IDLE for the response. -/
def Obligations.StopBitEndsSegment : Prop :=
  ∀ (s : State) (rest : List InputEvent),
    s.run = .running → s.state = .command → s.phase = .stopLow → s.input = .sample true :: rest →
    (s.seg = .cmd → step s = .next { s with
      input := rest, n := s.n + 1, evCount := 1, phase := .rspWait, tmr := 0,
      events := s.events ++ [⟨s.stopStart, s.n, .stopBit s.stopBitWidth⟩] }) ∧
    (s.seg = .rsp → step s = .next { s with
      input := rest, n := s.n + 1, evCount := 1, state := .idle,
      events := s.events ++ [⟨s.stopStart, s.n, .stopBit s.stopBitWidth⟩] })

/-- STOP_LOW, no edge (R159): the wait has no bound; after `k` low samples nothing has changed but `n`
(and what is pending, and the port `ev_count`, which shows no event). -/
def Obligations.StopBitWaitHasNoBound : Prop :=
  ∀ (s : State) (k : Nat) (rest : List InputEvent),
    s.run = .running → s.state = .command → s.phase = .stopLow →
    s.input = presenting (List.replicate k false) rest →
    runSteps k s = .next { s with
      input := rest, n := s.n + k, evCount := if k = 0 then s.evCount else 0 }

/-! ### The frame state machine -/

/-- RSP_WAIT (R183, R184): a falling edge begins the response (its first byte, or the stop bit for a
table with no response bytes); else the wait counts, and raises ResponseTimeoutError when `tmr` reaches the
bound. From which sample `tmr` counts is ResponseBoundCountsFromTheStopBit's. -/
def Obligations.ResponseWaitStep : Prop :=
  ∀ (s : State) (rest : List InputEvent),
    s.run = .running → s.state = .command → s.phase = .rspWait →
    (s.input = .sample false :: rest → s.rspLen ≠ 0 → step s = .next { s with
      input := rest, evCount := 0, n := s.n + 1, seg := .rsp, byteIdx := 0,
      byteStart := s.n, bitStart := s.n, bitCnt := 0, shreg := 0, phase := .bitLow, tmr := 0 }) ∧
    (s.input = .sample false :: rest → s.rspLen = 0 → step s = .next { s with
      input := rest, evCount := 0, n := s.n + 1, seg := .rsp, byteIdx := 0,
      stopStart := s.n, phase := .stopLow }) ∧
    (s.input = .sample true :: rest → s.tmr + 1 = s.responseTimeout → step s = .next { s with
      input := rest, n := s.n + 1, state := .initial, hiCnt := 0, evCount := 1,
      events := s.events ++ [⟨s.frameStart, s.n, .error .responseTimeout⟩] }) ∧
    (s.input = .sample true :: rest → s.tmr + 1 ≠ s.responseTimeout → step s = .next { s with
      input := rest, evCount := 0, n := s.n + 1, tmr := s.tmr + 1 })

/-- The response timeout is exact (R183): with the command stop bit's rising edge just consumed, fewer
than `response_timeout` high samples raise nothing, and the `response_timeout`-th raises the error. -/
def Obligations.ResponseTimeoutIsExact : Prop :=
  ∀ (s : State) (k : Nat) (rest : List InputEvent),
    s.run = .running → s.state = .command → s.phase = .rspWait → s.tmr = 0 →
    1 ≤ k → k ≤ s.responseTimeout →
    s.input = presenting (List.replicate k true) rest →
    ∃ t : State, runSteps k s = .next t ∧ t.input = rest ∧ t.n = s.n + k ∧
      (k < s.responseTimeout → t.state = .command ∧ t.phase = .rspWait ∧ t.events = s.events) ∧
      (k = s.responseTimeout → t.state = .initial ∧
        t.events = s.events ++
          [⟨s.frameStart, s.n + s.responseTimeout - 1, .error .responseTimeout⟩])

/-- StepIdle and FrameStart (R175, R176, R148): the first low sample begins a frame; a high sample
changes nothing but `n`. -/
def Obligations.FallingEdgeStartsFrame : Prop :=
  ∀ (s : State) (rest : List InputEvent), s.run = .running → s.state = .idle →
    (s.input = .sample false :: rest → step s = .next { s with
      input := rest, evCount := 0, n := s.n + 1,
      state := .command, frameStart := s.n, seg := .cmd, byteIdx := 0,
      byteStart := s.n, bitStart := s.n, bitCnt := 0, shreg := 0, phase := .bitLow, tmr := 0 }) ∧
    (s.input = .sample true :: rest → step s = .next { s with
      input := rest, evCount := 0, n := s.n + 1 })

/-- StepInitial (R174): the pseudocode of the idle debounce. -/
def Obligations.DebounceStep : Prop :=
  ∀ (s : State) (rest : List InputEvent), s.run = .running → s.state = .initial →
    (s.input = .sample true :: rest → s.hiCnt + 1 = s.idleMin → step s = .next { s with
      input := rest, evCount := 0, n := s.n + 1, hiCnt := s.hiCnt + 1, state := .idle }) ∧
    (s.input = .sample true :: rest → s.hiCnt + 1 ≠ s.idleMin → step s = .next { s with
      input := rest, evCount := 0, n := s.n + 1, hiCnt := s.hiCnt + 1 }) ∧
    (s.input = .sample false :: rest → step s = .next { s with
      input := rest, evCount := 0, n := s.n + 1, hiCnt := 0 })

/-- The idle gap, both ways (R174, R194): `idle_min` consecutive high samples lead from INITIAL to IDLE
with no event, and any samples without such a gap leave INITIAL in place with no event. -/
def Obligations.OnlyAnIdleGapLeavesInitial : Prop :=
  ∀ (s : State) (xs : List Bool) (rest : List InputEvent),
    s.run = .running → s.state = .initial → s.input = presenting xs rest →
    (s.hiCnt = 0 → 0 < s.idleMin → xs = List.replicate s.idleMin true →
      ∃ t : State, runSteps xs.length s = .next t ∧ t.state = .idle ∧ t.run = .running ∧
        t.input = rest ∧ t.events = s.events ∧ t.n = s.n + s.idleMin) ∧
    (noIdleGap s.idleMin s.hiCnt xs = true →
      ∃ t : State, runSteps xs.length s = .next t ∧ t.state = .initial ∧ t.run = .running ∧
        t.input = rest ∧ t.events = s.events ∧ t.n = s.n + xs.length)

/-- In each phase the line's level is the one that R140 lists: after a step that consumed the sample
`x`, BIT_LOW and STOP_LOW have `x` low, and BIT_HIGH, RSP_WAIT and IDLE have `x` high. So the first
sample at the other level is the awaited edge. -/
def Obligations.LineLevelMatchesPhase : Prop :=
  ∀ (s t : State) (x : Bool) (rest : List InputEvent),
    s.run = .running → s.input = .sample x :: rest → step s = .next t →
    (t.state = .command → t.phase = .bitLow → x = false) ∧
    (t.state = .command → t.phase = .bitHigh → x = true) ∧
    (t.state = .command → t.phase = .stopLow → x = false) ∧
    (t.state = .command → t.phase = .rspWait → x = true) ∧
    (t.state = .idle → x = true)

/-- COMMAND is uninterruptible (R254, R177): a sample leaves it only by the response stop bit's rising
edge, to IDLE, or by an Error event, to INITIAL; and it never leaves RUNNING (R245). -/
def Obligations.CommandIsLeftOnlyByCompletionOrError : Prop :=
  ∀ (s t : State) (x : Bool) (rest : List InputEvent),
    s.run = .running → s.state = .command → s.input = .sample x :: rest → step s = .next t →
    t.run = .running ∧
    (t.state = .command ∨
     (t.state = .idle ∧ s.phase = .stopLow ∧ s.seg = .rsp ∧ x = true ∧
      t.events = s.events ++ [⟨s.stopStart, s.n, .stopBit s.stopBitWidth⟩]) ∨
     (t.state = .initial ∧ t.hiCnt = 0 ∧
      ∃ e : FrameError, t.events.getLast? = some ⟨s.frameStart, s.n, .error e⟩ ∧ s.phase ≠ .stopLow))

/-- The step function is total (R191), and no access can fault (R73): every state has a next state. -/
def Obligations.EveryStepHasANextState : Prop :=
  ∀ s : State, ∃ t : State, step s = .next t

/-- What one step emits (R190, R65, R75): nothing, one, two or three events, which are appended to the
stream and all end at the index of the consumed sample, in the order Bit, byte-level event, Error. -/
def Obligations.EventsOfOneStep : Prop :=
  ∀ (s t : State), step s = .next t →
    ∃ new : List Event, t.events = s.events ++ new ∧ (s.input ≠ [] → t.evCount = new.length) ∧
      (∀ e ∈ new, e.stop = s.n) ∧
      (new = [] ∨
       new = [⟨s.bitStart, s.n, .bit s.bitVal⟩] ∨
       new = [⟨s.stopStart, s.n, .stopBit s.stopBitWidth⟩] ∨
       new = [⟨s.frameStart, s.n, .error .bitTimeout⟩] ∨
       new = [⟨s.frameStart, s.n, .error .responseTimeout⟩] ∨
       (∃ v : Byte, ∃ p : Payload,
          (p = .command v true ∨ p = .commandData v ∨ p = .responseData v) ∧
          new = [⟨s.bitStart, s.n, .bit s.bitVal⟩, ⟨s.byteStart, s.n, p⟩]) ∨
       (∃ v : Byte, lookup v = none ∧
          new = [⟨s.bitStart, s.n, .bit s.bitVal⟩, ⟨s.byteStart, s.n, .command v false⟩,
            ⟨s.frameStart, s.n, .error .unknownCommand⟩]))

/-- The order of the event stream along a run without Reset (R75 (a), (b)): what is emitted is appended,
`stop` never decreases, and every `stop` is the index of a sample that the run consumed. -/
def Obligations.EventStreamIsOrdered : Prop :=
  ∀ (k : Nat) (s t : State), (∀ e ∈ s.input.take k, e ≠ .reset) → runSteps k s = .next t →
    ∃ new : List Event, t.events = s.events ++ new ∧
      new.Pairwise (fun a b => a.stop ≤ b.stop) ∧ (∀ e ∈ new, s.n ≤ e.stop ∧ e.stop < t.n)

/-- Spans of one kind do not overlap, nor do those of the byte-level events taken together, and `start` is
strictly increasing among them (R75 (d)): along a run without Reset, a later one starts where an earlier
one ended or after, and after that one's start. No span is empty. -/
def Obligations.SpansOfOneKindAreDisjoint : Prop :=
  ∀ (k : Nat) (s t : State), Inv s → (∀ e ∈ s.input.take k, e ≠ .reset) → runSteps k s = .next t →
    ∃ new : List Event, t.events = s.events ++ new ∧
      (∀ e ∈ new, e.start < e.stop) ∧
      new.Pairwise (fun a b =>
        (a.isBit = true ∧ b.isBit = true) ∨ (a.byte?.isSome = true ∧ b.byte?.isSome = true) ∨
          (a.isStopBit = true ∧ b.isStopBit = true) ∨ (a.isError = true ∧ b.isError = true) →
        a.stop ≤ b.start ∧ a.start < b.start)

/-! ### Errors -/

/-- Which step can raise what (R242, R246, R248, R250): a step emits at most one Error event; it does so
only from COMMAND, over the frame so far, as the last event of the step, and forces INITIAL with an
empty idle count; each cause belongs to its phase. -/
def Obligations.ErrorsOfOneStep : Prop :=
  ∀ (s t : State) (new : List Event), step s = .next t → t.events = s.events ++ new →
    new.countP Event.isError ≤ 1 ∧
    (new.countP Event.isError = 1 → s.run = .running ∧ s.state = .command ∧
      t.run = .running ∧ t.state = .initial ∧ t.hiCnt = 0 ∧ t.n = s.n + 1 ∧
      ∃ e : FrameError, new.getLast? = some ⟨s.frameStart, s.n, .error e⟩ ∧
        (e = .bitTimeout → s.phase = .bitLow ∨ s.phase = .bitHigh) ∧
        (e = .unknownCommand → s.phase = .bitHigh ∧ s.bitCnt = 7 ∧ inOpcode s) ∧
        (e = .responseTimeout → s.phase = .rspWait))

/-- Return from a frame-local error (R247, R294): after an error raised at sample `i`, with `idle_min`
high samples and then a low one, the next frame starts at `i + idle_min + 1`, with no event between. -/
def Obligations.ReturnFromErrorIsExact : Prop :=
  ∀ (s t : State) (x : Bool) (rest : List InputEvent), Inv s →
    s.run = .running → s.state = .command →
    s.input = .sample x :: presenting (List.replicate s.idleMin true ++ [false]) rest →
    step s = .next t → t.state = .initial →
    ∃ u : State, runSteps (s.idleMin + 2) s = .next u ∧ u.state = .command ∧
      u.frameStart = s.n + s.idleMin + 1 ∧ u.n = s.n + s.idleMin + 2 ∧ u.events = t.events

/-- ConfigError from `Configure` (R243): a Configure whose profile fails sets `run` to FATAL and `state`
to INITIAL, and nothing else; no event. -/
def Obligations.FailingConfigureIsFatal : Prop :=
  ∀ (s : State) (f : SampleRate) (r : Role) (rest : List InputEvent),
    s.run ≠ .fatal → s.input = .configure f r :: rest → profile f.toNat r = none →
    step s = .next { s with input := rest, evCount := 0, run := .fatal, state := .initial }

/-- FATAL is sticky (R289, R125, R172): without Reset, any input events leave every register but `n`,
which counts the samples; no event is emitted. -/
def Obligations.FatalIsSticky : Prop :=
  ∀ (s : State) (es rest : List InputEvent), s.run = .fatal →
    (∀ e ∈ es, e ≠ .reset) → s.input = es ++ rest →
    runSteps es.length s = .next { s with
      input := rest, n := s.n + es.countP isSample,
      evCount := if es.length = 0 then s.evCount else 0 }

/-- ConfigError from a sample before any Configure (R244): the sample is counted, `run` becomes FATAL,
nothing is emitted. -/
def Obligations.SampleBeforeConfigureIsFatal : Prop :=
  ∀ (s : State) (x : Bool) (rest : List InputEvent), Inv s →
    s.run = .unconfigured → s.input = .sample x :: rest →
    step s = .next { s with input := rest, evCount := 0, n := s.n + 1, run := .fatal }

/-! ### The timing profile and Configure -/

/-- The conversion to samples (R121): the floor of the exact product, 0 at rate 0, non-decreasing in both
arguments, and `fs div 400_000` for 5/2 µs. -/
def Obligations.SamplesIsTheExactFloor : Prop :=
  ∀ (fs fs' : Nat) (m m' : Micros), 0 < m.den → 0 < m'.den →
    (samples fs m * (1000000 * m.den) ≤ fs * m.num ∧
      fs * m.num < (samples fs m + 1) * (1000000 * m.den)) ∧
    samples 0 m = 0 ∧
    (fs ≤ fs' → samples fs m ≤ samples fs' m) ∧
    (m.num * m'.den ≤ m'.num * m.den → samples fs m ≤ samples fs m') ∧
    samples fs ⟨5, 2⟩ = fs / 400000 ∧
    samples 24000000 ⟨5, 2⟩ = 60

/-- When Profile fails (R123): for CONSOLE exactly below 400 kHz, for CONTROLLER exactly below the rate
at which the open midpoint or 4 µs gives no sample; else it is the five fields, all positive. -/
def Obligations.ProfileFailsExactlyWhenDegenerate : Prop :=
  ∀ (mid : Micros) (fs : Nat), mid.wellFormed = true →
    (profileWith mid fs .console = none ↔ fs < 400000) ∧
    (profileWith mid fs .controller = none ↔
      fs * mid.num < 1000000 * mid.den ∨ fs * 4 < 1000000) ∧
    (∀ (r : Role) (p : TimingProfile), profileWith mid fs r = some p →
      p.wellFormed = true ∧ p.idleMin = fs / 10000 ∧ p.bitTimeout = fs / 100000 ∧
      p.responseTimeout = fs / 20000 ∧
      (r = .console → p.bitMidpoint = fs / 400000 ∧ p.stopBitWidth = fs / 200000) ∧
      (r = .controller → p.bitMidpoint = samples fs mid ∧ p.stopBitWidth = fs / 250000))

/-- Bounds and order of the fields (R129 (a) to (c)), as far as they are true for every value of the open
midpoint (log 8). (a) and (b) hold as R129 writes them, but that `bit_midpoint` is at most `idle_min`
needs, for CONTROLLER, a midpoint of at most 100 µs. THIS DEPARTS FROM R129 (c), which claims the strict
bound for CONTROLLER at every midpoint below 10 µs and is false there as written (9.9 µs at 1.05 MHz gives
`bit_midpoint` = `bit_timeout` = 10): the strict bound holds for CONSOLE, and for CONTROLLER at midpoints
of at most 5 µs; above 5 µs and below 10 µs only the bound with `≤` does. -/
def Obligations.ProfileFieldsAreBounded : Prop :=
  ∀ (mid : Micros) (fs : Nat) (r : Role) (p : TimingProfile), mid.wellFormed = true →
    profileWith mid fs r = some p →
    p.idleMin < fs ∧ p.bitTimeout ≤ p.responseTimeout ∧ p.responseTimeout ≤ p.idleMin ∧
    p.stopBitWidth ≤ p.idleMin ∧
    (r = .console ∨ mid.num ≤ 100 * mid.den → p.bitMidpoint ≤ p.idleMin) ∧
    (r = .console → p.bitMidpoint < p.bitTimeout) ∧
    (r = .controller → mid.num < 10 * mid.den → p.bitMidpoint ≤ p.bitTimeout) ∧
    (r = .controller → mid.num ≤ 5 * mid.den → p.bitMidpoint < p.bitTimeout)

/-- Configure (R124, R125, R127, R128): outside FATAL a valid rate loads the profile and forces INITIAL
with an empty idle count, in the middle of a frame or not; `n` and the event stream are unchanged. In
FATAL nothing changes. -/
def Obligations.ConfigureLoadsTheProfile : Prop :=
  ∀ (s : State) (f : SampleRate) (r : Role) (rest : List InputEvent),
    s.input = .configure f r :: rest →
    (∀ p : TimingProfile, s.run ≠ .fatal → profile f.toNat r = some p → step s = .next { s with
      input := rest, evCount := 0, fs := f, role := r, idleMin := p.idleMin,
      bitMidpoint := p.bitMidpoint, bitTimeout := p.bitTimeout,
      responseTimeout := p.responseTimeout, stopBitWidth := p.stopBitWidth,
      run := .running, state := .initial, hiCnt := 0 }) ∧
    (s.run = .fatal → step s = .next { s with input := rest, evCount := 0 })

/-! ### Reset, the ports, and the whole machine -/

/-- Reset (R280): in any run condition, state and phase the registers after it are those of the state
after reset, which are all zero, UNCONFIGURED and INITIAL; no event is emitted, and two are as one. That the event
space still lists what was emitted before (`events := s.events`) is not R280's: it is the model's
reading of R63, by which events are never retracted (log 4, DEDUCED). -/
def Obligations.ResetClearsEveryRegister : Prop :=
  (∀ (s : State) (rest : List InputEvent), s.input = .reset :: rest →
    step s = .next { State.reset with input := rest, events := s.events }) ∧
  (∀ (s : State) (rest : List InputEvent), s.input = .reset :: .reset :: rest →
    runSteps 2 s = .next { State.reset with input := rest, events := s.events }) ∧
  State.reset.run = .unconfigured ∧ State.reset.state = .initial ∧ State.reset.fs = 0 ∧
  State.reset.role = .console ∧ State.reset.idleMin = 0 ∧ State.reset.bitMidpoint = 0 ∧
  State.reset.stopBitWidth = 0 ∧ State.reset.bitTimeout = 0 ∧ State.reset.responseTimeout = 0 ∧
  State.reset.n = 0 ∧ State.reset.hiCnt = 0 ∧ State.reset.tmr = 0 ∧ State.reset.seg = .cmd ∧
  State.reset.phase = .bitLow ∧ State.reset.frameStart = 0 ∧ State.reset.byteStart = 0 ∧
  State.reset.bitStart = 0 ∧ State.reset.stopStart = 0 ∧ State.reset.lowDur = 0 ∧
  State.reset.bitVal = false ∧ State.reset.shreg = 0 ∧ State.reset.bitCnt = 0 ∧
  State.reset.opcode = 0 ∧ State.reset.cmdLen = 0 ∧ State.reset.rspLen = 0 ∧
  State.reset.byteIdx = 0 ∧ State.reset.evCount = 0

/-- A clock edge with no input event changes nothing (R20), so a run whose input is over keeps every
register (R16): the model's reading of the empty input (log 6, DEDUCED). That the port `ev_count` keeps its
value too is the model's choice (log 5, DESIGN CHOICE). -/
def Obligations.NoInputChangesNothing : Prop :=
  ∀ (s : State) (k : Nat), s.input = [] → runSteps k s = .next s

/-- Priority of simultaneous inputs in one clock cycle (R22): `rst` alone when set; `Configure` then
`Sample`, as two steps, when both are presented; a cycle's work is the steps of its input events. -/
def Obligations.ClockCyclePriority : Prop :=
  (∀ c : Cycle, c.rst = true → c.inputEvents = [.reset]) ∧
  (∀ c : Cycle, c.rst = false → c.cfgLoad = true → c.sampleValid = true →
    c.inputEvents = [.configure c.cfgFs (roleOfCode c.cfgRole), .sample c.sample]) ∧
  (∀ (c : Cycle) (s : State),
    clock c s = runSteps c.inputEvents.length { s with input := c.inputEvents ++ s.input })

/-- The port record of an event (R64, R241): its kind code, its span, and the fields of its kind, every
other field 0; the cause codes and the message strings of the three frame-local errors. The record
determines the event. -/
def Obligations.EventRecordIsFaithful : Prop :=
  (∀ (a b : Nat) (op : Byte) (known : Bool),
    Event.record ⟨a, b, .command op known⟩ = ⟨0, a, b, op, known, 0, 0⟩) ∧
  (∀ (a b : Nat) (v : Byte), Event.record ⟨a, b, .commandData v⟩ = ⟨1, a, b, v, false, 0, 0⟩) ∧
  (∀ (a b : Nat) (v : Byte), Event.record ⟨a, b, .responseData v⟩ = ⟨2, a, b, v, false, 0, 0⟩) ∧
  (∀ a b : Nat, Event.record ⟨a, b, .bit false⟩ = ⟨3, a, b, 0, false, 0, 0⟩) ∧
  (∀ a b : Nat, Event.record ⟨a, b, .bit true⟩ = ⟨3, a, b, 1, false, 0, 0⟩) ∧
  (∀ a b w : Nat, Event.record ⟨a, b, .stopBit w⟩ = ⟨4, a, b, 0, false, w, 0⟩) ∧
  (∀ a b : Nat, Event.record ⟨a, b, .error .bitTimeout⟩ = ⟨5, a, b, 0, false, 0, 1⟩) ∧
  (∀ a b : Nat, Event.record ⟨a, b, .error .unknownCommand⟩ = ⟨5, a, b, 0, false, 0, 2⟩) ∧
  (∀ a b : Nat, Event.record ⟨a, b, .error .responseTimeout⟩ = ⟨5, a, b, 0, false, 0, 3⟩) ∧
  (∀ a b : Nat, Event.message ⟨a, b, .error .bitTimeout⟩ = some "Bit timeout") ∧
  (∀ a b : Nat, Event.message ⟨a, b, .error .unknownCommand⟩ = some "Unknown command") ∧
  (∀ a b : Nat, Event.message ⟨a, b, .error .responseTimeout⟩ = some "Response timeout") ∧
  (∀ a b : Event, a.record = b.record → a = b)

/-- The invariant holds right after reset. -/
def Obligations.ResetSatisfiesInvariant : Prop :=
  Inv State.reset

/-- THE INVARIANT IS KEPT BY EVERY STEP: the profile registers are the profile of `fs` and `role`
(R126), the counters stay below the fields they are compared with (R129 (d), R30, R31), bytes and
segments are counted within the table's lengths (R187, R37), and the span latches are ordered (R34). -/
def Obligations.EveryStepKeepsInvariant : Prop :=
  ∀ s t : State, Inv s → step s = .next t → Inv t

/-- WRITE BEFORE READ (R42, R280): two states that are not inside a frame and agree on `run`, `state`,
`n`, `hi_cnt`, on the profile if RUNNING, and on the spaces, show the same outputs and the same event
stream for ever, whatever the other registers hold. -/
def Obligations.DeadRegistersNeverReachAnOutput : Prop :=
  ∀ (s s' : State), s.run = s'.run → s.state = s'.state → s.n = s'.n → s.hiCnt = s'.hiCnt →
    s.input = s'.input → s.events = s'.events → s.evCount = s'.evCount →
    (s.run = .running → s.state ≠ .command ∧ s.idleMin = s'.idleMin ∧
      s.bitMidpoint = s'.bitMidpoint ∧ s.bitTimeout = s'.bitTimeout ∧
      s.responseTimeout = s'.responseTimeout ∧ s.stopBitWidth = s'.stopBitWidth) →
    ∀ (k : Nat) (t : State), runSteps k s = .next t →
      ∃ t' : State, runSteps k s' = .next t' ∧ outputs t = outputs t' ∧ t.events = t'.events

/-! ### What the host reads, and the response bound from its own edge -/

/-- What the host reads at the output ports (R21, R26, R27): the codes of `run` and of `state`, which
reads INITIAL outside RUNNING; `pos`, the index of the latest consumed sample; and after a step that took
an input event, the number of the events of that step and their records, in the order of emission. -/
def Obligations.OutputPortsShowTheState : Prop :=
  ∀ s : State,
    (s.run = .unconfigured → (outputs s).run = 0) ∧
    (s.run = .running → (outputs s).run = 1) ∧
    (s.run = .fatal → (outputs s).run = 2) ∧
    (s.run ≠ .running → (outputs s).state = 0) ∧
    (s.run = .running → s.state = .initial → (outputs s).state = 0) ∧
    (s.run = .running → s.state = .idle → (outputs s).state = 1) ∧
    (s.run = .running → s.state = .command → (outputs s).state = 2) ∧
    (∀ p : Nat, s.n = p + 1 → (outputs s).pos = some p) ∧
    (∀ (t : State) (new : List Event), s.input ≠ [] → step s = .next t →
      t.events = s.events ++ new → new.length ≤ 3 ∧
      (outputs t).evCount.toNat = new.length ∧ (outputs t).ev = new.map Event.record)

/-- The response bound is counted from the command stop bit's rising edge `s1 = s.n` (R183, R184): with
fewer than `response_timeout` high samples after it the wait goes on and nothing is emitted; the error is
raised at sample `s1 + response_timeout` if that is still high; and a falling edge at any sample up to
and including `s1 + response_timeout` begins the response. -/
def Obligations.ResponseBoundCountsFromTheStopBit : Prop :=
  ∀ (s : State) (k : Nat) (rest : List InputEvent),
    s.run = .running → s.state = .command → s.phase = .stopLow → s.seg = .cmd →
    (k < s.responseTimeout → s.input = .sample true :: presenting (List.replicate k true) rest →
      ∃ t : State, runSteps (k + 1) s = .next t ∧ t.state = .command ∧ t.phase = .rspWait ∧
        t.input = rest ∧ t.n = s.n + k + 1 ∧
        t.events = s.events ++ [⟨s.stopStart, s.n, .stopBit s.stopBitWidth⟩]) ∧
    (1 ≤ k → k = s.responseTimeout →
      s.input = .sample true :: presenting (List.replicate k true) rest →
      ∃ t : State, runSteps (k + 1) s = .next t ∧ t.state = .initial ∧ t.hiCnt = 0 ∧
        t.input = rest ∧
        t.events = s.events ++ [⟨s.stopStart, s.n, .stopBit s.stopBitWidth⟩,
          ⟨s.frameStart, s.n + s.responseTimeout, .error .responseTimeout⟩]) ∧
    (k < s.responseTimeout → s.rspLen ≠ 0 →
      s.input = .sample true :: presenting (List.replicate k true ++ [false]) rest →
      ∃ t : State, runSteps (k + 2) s = .next t ∧ t.state = .command ∧ t.phase = .bitLow ∧
        t.seg = .rsp ∧ t.byteIdx = 0 ∧ t.byteStart = s.n + k + 1 ∧ t.bitStart = s.n + k + 1 ∧
        t.input = rest ∧
        t.events = s.events ++ [⟨s.stopStart, s.n, .stopBit s.stopBitWidth⟩])
end

