-- ==== Sys2Proof/Laws/Decode.lean ====
section
/-! SUPPORT. Lemmas about the CommandTable, the decoder and the encoder. -/

namespace Sys2Proof

theorem mem_all (i : Instr) : i ∈ Instr.all := by cases i <;> decide

/-- The table's key of a command is the opcode byte that the encoder writes. -/
theorem spec_opcode (i : Instr) : i.spec.opcode = encodeOpcode i := by cases i <;> rfl

/-- The decoder reads back the opcode byte of every command. -/
theorem decodeOpcode_encodeOpcode (i : Instr) : decodeOpcode (encodeOpcode i) = some i := by
  cases i <;> decide

/-- Every opcode byte finds its own row. -/
theorem lookup_encodeOpcode (i : Instr) : lookup (encodeOpcode i) = some i.spec := by
  cases i <;> decide

set_option maxRecDepth 4000 in
/-- What the decoder accepts is the opcode byte of the command it answers. -/
theorem encodeOpcode_of_decodeOpcode {b : Byte} {i : Instr} (h : decodeOpcode b = some i) :
    encodeOpcode i = b := by
  have all : ∀ b : Byte, ((decodeOpcode b).map encodeOpcode).getD b = b := by decide
  have := all b
  rwa [h] at this

/-- `Table` and the decoder know the same opcodes. -/
theorem lookup_eq_decodeOpcode (b : Byte) : lookup b = (decodeOpcode b).map Instr.spec := by
  cases h : decodeOpcode b with
  | some i => rw [← encodeOpcode_of_decodeOpcode h, lookup_encodeOpcode]; rfl
  | none =>
    cases hl : lookup b with
    | none => rfl
    | some c =>
      unfold lookup at hl
      have hb := List.find?_some hl
      obtain ⟨i, -, rfl⟩ := List.mem_map.mp (List.mem_of_find?_eq_some hl)
      rw [spec_opcode] at hb
      rw [← eq_of_beq hb, decodeOpcode_encodeOpcode] at h
      cases h

theorem decode_cons (b : Byte) (rest : List Byte) :
    decode (b :: rest) = match decodeOpcode b with
      | some i => .ok (i, rest)
      | none => .error (.unknownOpcode b) := rfl

/-- The bounds of every row of the table (43_commands.md R211). -/
theorem spec_bounds (i : Instr) :
    1 ≤ i.spec.commandLen ∧ i.spec.commandLen ≤ 35 ∧
      1 ≤ i.spec.responseLen ∧ i.spec.responseLen ≤ 33 := by
  cases i <;> decide

theorem lookup_bounds {b : Byte} {c : CommandSpec} (h : lookup b = some c) :
    1 ≤ c.commandLen ∧ c.commandLen ≤ 35 ∧ 1 ≤ c.responseLen ∧ c.responseLen ≤ 33 := by
  rw [lookup_eq_decodeOpcode] at h
  obtain ⟨i, -, rfl⟩ := Option.map_eq_some_iff.mp h
  exact spec_bounds i

/-- Every command is well formed. -/
theorem instr_wellFormed (i : Instr) : i.wellFormed = true := by cases i <;> decide

end Sys2Proof
end

