-- ==== Sys2Proof/Laws/State.lean ====
section
/-! SUPPORT. What each shared update of the state leaves in each register: one lemma per field per
update, true by rfl. -/

namespace Sys2Proof.Machine

@[simp] theorem beginStep_run (rest : List InputEvent) (s : State) :
    (beginStep rest s).run = s.run := rfl
@[simp] theorem beginStep_state (rest : List InputEvent) (s : State) :
    (beginStep rest s).state = s.state := rfl
@[simp] theorem beginStep_fs (rest : List InputEvent) (s : State) :
    (beginStep rest s).fs = s.fs := rfl
@[simp] theorem beginStep_role (rest : List InputEvent) (s : State) :
    (beginStep rest s).role = s.role := rfl
@[simp] theorem beginStep_idleMin (rest : List InputEvent) (s : State) :
    (beginStep rest s).idleMin = s.idleMin := rfl
@[simp] theorem beginStep_bitMidpoint (rest : List InputEvent) (s : State) :
    (beginStep rest s).bitMidpoint = s.bitMidpoint := rfl
@[simp] theorem beginStep_stopBitWidth (rest : List InputEvent) (s : State) :
    (beginStep rest s).stopBitWidth = s.stopBitWidth := rfl
@[simp] theorem beginStep_bitTimeout (rest : List InputEvent) (s : State) :
    (beginStep rest s).bitTimeout = s.bitTimeout := rfl
@[simp] theorem beginStep_responseTimeout (rest : List InputEvent) (s : State) :
    (beginStep rest s).responseTimeout = s.responseTimeout := rfl
@[simp] theorem beginStep_n (rest : List InputEvent) (s : State) : (beginStep rest s).n = s.n := rfl
@[simp] theorem beginStep_hiCnt (rest : List InputEvent) (s : State) :
    (beginStep rest s).hiCnt = s.hiCnt := rfl
@[simp] theorem beginStep_tmr (rest : List InputEvent) (s : State) :
    (beginStep rest s).tmr = s.tmr := rfl
@[simp] theorem beginStep_seg (rest : List InputEvent) (s : State) :
    (beginStep rest s).seg = s.seg := rfl
@[simp] theorem beginStep_phase (rest : List InputEvent) (s : State) :
    (beginStep rest s).phase = s.phase := rfl
@[simp] theorem beginStep_frameStart (rest : List InputEvent) (s : State) :
    (beginStep rest s).frameStart = s.frameStart := rfl
@[simp] theorem beginStep_byteStart (rest : List InputEvent) (s : State) :
    (beginStep rest s).byteStart = s.byteStart := rfl
@[simp] theorem beginStep_bitStart (rest : List InputEvent) (s : State) :
    (beginStep rest s).bitStart = s.bitStart := rfl
@[simp] theorem beginStep_stopStart (rest : List InputEvent) (s : State) :
    (beginStep rest s).stopStart = s.stopStart := rfl
@[simp] theorem beginStep_lowDur (rest : List InputEvent) (s : State) :
    (beginStep rest s).lowDur = s.lowDur := rfl
@[simp] theorem beginStep_bitVal (rest : List InputEvent) (s : State) :
    (beginStep rest s).bitVal = s.bitVal := rfl
@[simp] theorem beginStep_shreg (rest : List InputEvent) (s : State) :
    (beginStep rest s).shreg = s.shreg := rfl
@[simp] theorem beginStep_bitCnt (rest : List InputEvent) (s : State) :
    (beginStep rest s).bitCnt = s.bitCnt := rfl
@[simp] theorem beginStep_opcode (rest : List InputEvent) (s : State) :
    (beginStep rest s).opcode = s.opcode := rfl
@[simp] theorem beginStep_cmdLen (rest : List InputEvent) (s : State) :
    (beginStep rest s).cmdLen = s.cmdLen := rfl
@[simp] theorem beginStep_rspLen (rest : List InputEvent) (s : State) :
    (beginStep rest s).rspLen = s.rspLen := rfl
@[simp] theorem beginStep_byteIdx (rest : List InputEvent) (s : State) :
    (beginStep rest s).byteIdx = s.byteIdx := rfl
@[simp] theorem beginStep_input (rest : List InputEvent) (s : State) :
    (beginStep rest s).input = rest := rfl
@[simp] theorem beginStep_events (rest : List InputEvent) (s : State) :
    (beginStep rest s).events = s.events := rfl
@[simp] theorem beginStep_evCount (rest : List InputEvent) (s : State) :
    (beginStep rest s).evCount = 0 := rfl

@[simp] theorem consume_run (s : State) : (consume s).run = s.run := rfl
@[simp] theorem consume_state (s : State) : (consume s).state = s.state := rfl
@[simp] theorem consume_fs (s : State) : (consume s).fs = s.fs := rfl
@[simp] theorem consume_role (s : State) : (consume s).role = s.role := rfl
@[simp] theorem consume_idleMin (s : State) : (consume s).idleMin = s.idleMin := rfl
@[simp] theorem consume_bitMidpoint (s : State) : (consume s).bitMidpoint = s.bitMidpoint := rfl
@[simp] theorem consume_stopBitWidth (s : State) : (consume s).stopBitWidth = s.stopBitWidth := rfl
@[simp] theorem consume_bitTimeout (s : State) : (consume s).bitTimeout = s.bitTimeout := rfl
@[simp] theorem consume_responseTimeout (s : State) :
    (consume s).responseTimeout = s.responseTimeout := rfl
@[simp] theorem consume_n (s : State) : (consume s).n = s.n + 1 := rfl
@[simp] theorem consume_hiCnt (s : State) : (consume s).hiCnt = s.hiCnt := rfl
@[simp] theorem consume_tmr (s : State) : (consume s).tmr = s.tmr := rfl
@[simp] theorem consume_seg (s : State) : (consume s).seg = s.seg := rfl
@[simp] theorem consume_phase (s : State) : (consume s).phase = s.phase := rfl
@[simp] theorem consume_frameStart (s : State) : (consume s).frameStart = s.frameStart := rfl
@[simp] theorem consume_byteStart (s : State) : (consume s).byteStart = s.byteStart := rfl
@[simp] theorem consume_bitStart (s : State) : (consume s).bitStart = s.bitStart := rfl
@[simp] theorem consume_stopStart (s : State) : (consume s).stopStart = s.stopStart := rfl
@[simp] theorem consume_lowDur (s : State) : (consume s).lowDur = s.lowDur := rfl
@[simp] theorem consume_bitVal (s : State) : (consume s).bitVal = s.bitVal := rfl
@[simp] theorem consume_shreg (s : State) : (consume s).shreg = s.shreg := rfl
@[simp] theorem consume_bitCnt (s : State) : (consume s).bitCnt = s.bitCnt := rfl
@[simp] theorem consume_opcode (s : State) : (consume s).opcode = s.opcode := rfl
@[simp] theorem consume_cmdLen (s : State) : (consume s).cmdLen = s.cmdLen := rfl
@[simp] theorem consume_rspLen (s : State) : (consume s).rspLen = s.rspLen := rfl
@[simp] theorem consume_byteIdx (s : State) : (consume s).byteIdx = s.byteIdx := rfl
@[simp] theorem consume_input (s : State) : (consume s).input = s.input := rfl
@[simp] theorem consume_events (s : State) : (consume s).events = s.events := rfl
@[simp] theorem consume_evCount (s : State) : (consume s).evCount = s.evCount := rfl

@[simp] theorem emit_run (e : Event) (s : State) : (emit e s).run = s.run := rfl
@[simp] theorem emit_state (e : Event) (s : State) : (emit e s).state = s.state := rfl
@[simp] theorem emit_fs (e : Event) (s : State) : (emit e s).fs = s.fs := rfl
@[simp] theorem emit_role (e : Event) (s : State) : (emit e s).role = s.role := rfl
@[simp] theorem emit_idleMin (e : Event) (s : State) : (emit e s).idleMin = s.idleMin := rfl
@[simp] theorem emit_bitMidpoint (e : Event) (s : State) :
    (emit e s).bitMidpoint = s.bitMidpoint := rfl
@[simp] theorem emit_stopBitWidth (e : Event) (s : State) :
    (emit e s).stopBitWidth = s.stopBitWidth := rfl
@[simp] theorem emit_bitTimeout (e : Event) (s : State) :
    (emit e s).bitTimeout = s.bitTimeout := rfl
@[simp] theorem emit_responseTimeout (e : Event) (s : State) :
    (emit e s).responseTimeout = s.responseTimeout := rfl
@[simp] theorem emit_n (e : Event) (s : State) : (emit e s).n = s.n := rfl
@[simp] theorem emit_hiCnt (e : Event) (s : State) : (emit e s).hiCnt = s.hiCnt := rfl
@[simp] theorem emit_tmr (e : Event) (s : State) : (emit e s).tmr = s.tmr := rfl
@[simp] theorem emit_seg (e : Event) (s : State) : (emit e s).seg = s.seg := rfl
@[simp] theorem emit_phase (e : Event) (s : State) : (emit e s).phase = s.phase := rfl
@[simp] theorem emit_frameStart (e : Event) (s : State) :
    (emit e s).frameStart = s.frameStart := rfl
@[simp] theorem emit_byteStart (e : Event) (s : State) : (emit e s).byteStart = s.byteStart := rfl
@[simp] theorem emit_bitStart (e : Event) (s : State) : (emit e s).bitStart = s.bitStart := rfl
@[simp] theorem emit_stopStart (e : Event) (s : State) : (emit e s).stopStart = s.stopStart := rfl
@[simp] theorem emit_lowDur (e : Event) (s : State) : (emit e s).lowDur = s.lowDur := rfl
@[simp] theorem emit_bitVal (e : Event) (s : State) : (emit e s).bitVal = s.bitVal := rfl
@[simp] theorem emit_shreg (e : Event) (s : State) : (emit e s).shreg = s.shreg := rfl
@[simp] theorem emit_bitCnt (e : Event) (s : State) : (emit e s).bitCnt = s.bitCnt := rfl
@[simp] theorem emit_opcode (e : Event) (s : State) : (emit e s).opcode = s.opcode := rfl
@[simp] theorem emit_cmdLen (e : Event) (s : State) : (emit e s).cmdLen = s.cmdLen := rfl
@[simp] theorem emit_rspLen (e : Event) (s : State) : (emit e s).rspLen = s.rspLen := rfl
@[simp] theorem emit_byteIdx (e : Event) (s : State) : (emit e s).byteIdx = s.byteIdx := rfl
@[simp] theorem emit_input (e : Event) (s : State) : (emit e s).input = s.input := rfl
@[simp] theorem emit_events (e : Event) (s : State) : (emit e s).events = s.events ++ [e] := rfl
@[simp] theorem emit_evCount (e : Event) (s : State) : (emit e s).evCount = s.evCount + 1 := rfl

@[simp] theorem takeError_config_run (i : Nat) (s : State) :
    (takeError .config i s).run = .fatal := rfl
@[simp] theorem takeError_config_state (i : Nat) (s : State) :
    (takeError .config i s).state = .initial := rfl
@[simp] theorem takeError_config_fs (i : Nat) (s : State) : (takeError .config i s).fs = s.fs := rfl
@[simp] theorem takeError_config_role (i : Nat) (s : State) :
    (takeError .config i s).role = s.role := rfl
@[simp] theorem takeError_config_idleMin (i : Nat) (s : State) :
    (takeError .config i s).idleMin = s.idleMin := rfl
@[simp] theorem takeError_config_bitMidpoint (i : Nat) (s : State) :
    (takeError .config i s).bitMidpoint = s.bitMidpoint := rfl
@[simp] theorem takeError_config_stopBitWidth (i : Nat) (s : State) :
    (takeError .config i s).stopBitWidth = s.stopBitWidth := rfl
@[simp] theorem takeError_config_bitTimeout (i : Nat) (s : State) :
    (takeError .config i s).bitTimeout = s.bitTimeout := rfl
@[simp] theorem takeError_config_responseTimeout (i : Nat) (s : State) :
    (takeError .config i s).responseTimeout = s.responseTimeout := rfl
@[simp] theorem takeError_config_n (i : Nat) (s : State) : (takeError .config i s).n = s.n := rfl
@[simp] theorem takeError_config_hiCnt (i : Nat) (s : State) :
    (takeError .config i s).hiCnt = s.hiCnt := rfl
@[simp] theorem takeError_config_tmr (i : Nat) (s : State) :
    (takeError .config i s).tmr = s.tmr := rfl
@[simp] theorem takeError_config_seg (i : Nat) (s : State) :
    (takeError .config i s).seg = s.seg := rfl
@[simp] theorem takeError_config_phase (i : Nat) (s : State) :
    (takeError .config i s).phase = s.phase := rfl
@[simp] theorem takeError_config_frameStart (i : Nat) (s : State) :
    (takeError .config i s).frameStart = s.frameStart := rfl
@[simp] theorem takeError_config_byteStart (i : Nat) (s : State) :
    (takeError .config i s).byteStart = s.byteStart := rfl
@[simp] theorem takeError_config_bitStart (i : Nat) (s : State) :
    (takeError .config i s).bitStart = s.bitStart := rfl
@[simp] theorem takeError_config_stopStart (i : Nat) (s : State) :
    (takeError .config i s).stopStart = s.stopStart := rfl
@[simp] theorem takeError_config_lowDur (i : Nat) (s : State) :
    (takeError .config i s).lowDur = s.lowDur := rfl
@[simp] theorem takeError_config_bitVal (i : Nat) (s : State) :
    (takeError .config i s).bitVal = s.bitVal := rfl
@[simp] theorem takeError_config_shreg (i : Nat) (s : State) :
    (takeError .config i s).shreg = s.shreg := rfl
@[simp] theorem takeError_config_bitCnt (i : Nat) (s : State) :
    (takeError .config i s).bitCnt = s.bitCnt := rfl
@[simp] theorem takeError_config_opcode (i : Nat) (s : State) :
    (takeError .config i s).opcode = s.opcode := rfl
@[simp] theorem takeError_config_cmdLen (i : Nat) (s : State) :
    (takeError .config i s).cmdLen = s.cmdLen := rfl
@[simp] theorem takeError_config_rspLen (i : Nat) (s : State) :
    (takeError .config i s).rspLen = s.rspLen := rfl
@[simp] theorem takeError_config_byteIdx (i : Nat) (s : State) :
    (takeError .config i s).byteIdx = s.byteIdx := rfl
@[simp] theorem takeError_config_input (i : Nat) (s : State) :
    (takeError .config i s).input = s.input := rfl
@[simp] theorem takeError_config_events (i : Nat) (s : State) :
    (takeError .config i s).events = s.events := rfl
@[simp] theorem takeError_config_evCount (i : Nat) (s : State) :
    (takeError .config i s).evCount = s.evCount := rfl

@[simp] theorem takeError_frameLocal_run (e : FrameError) (i : Nat) (s : State) :
    (takeError (.frameLocal e) i s).run = s.run := rfl
@[simp] theorem takeError_frameLocal_state (e : FrameError) (i : Nat) (s : State) :
    (takeError (.frameLocal e) i s).state = .initial := rfl
@[simp] theorem takeError_frameLocal_fs (e : FrameError) (i : Nat) (s : State) :
    (takeError (.frameLocal e) i s).fs = s.fs := rfl
@[simp] theorem takeError_frameLocal_role (e : FrameError) (i : Nat) (s : State) :
    (takeError (.frameLocal e) i s).role = s.role := rfl
@[simp] theorem takeError_frameLocal_idleMin (e : FrameError) (i : Nat) (s : State) :
    (takeError (.frameLocal e) i s).idleMin = s.idleMin := rfl
@[simp] theorem takeError_frameLocal_bitMidpoint (e : FrameError) (i : Nat) (s : State) :
    (takeError (.frameLocal e) i s).bitMidpoint = s.bitMidpoint := rfl
@[simp] theorem takeError_frameLocal_stopBitWidth (e : FrameError) (i : Nat) (s : State) :
    (takeError (.frameLocal e) i s).stopBitWidth = s.stopBitWidth := rfl
@[simp] theorem takeError_frameLocal_bitTimeout (e : FrameError) (i : Nat) (s : State) :
    (takeError (.frameLocal e) i s).bitTimeout = s.bitTimeout := rfl
@[simp] theorem takeError_frameLocal_responseTimeout (e : FrameError) (i : Nat) (s : State) :
    (takeError (.frameLocal e) i s).responseTimeout = s.responseTimeout := rfl
@[simp] theorem takeError_frameLocal_n (e : FrameError) (i : Nat) (s : State) :
    (takeError (.frameLocal e) i s).n = s.n := rfl
@[simp] theorem takeError_frameLocal_hiCnt (e : FrameError) (i : Nat) (s : State) :
    (takeError (.frameLocal e) i s).hiCnt = 0 := rfl
@[simp] theorem takeError_frameLocal_tmr (e : FrameError) (i : Nat) (s : State) :
    (takeError (.frameLocal e) i s).tmr = s.tmr := rfl
@[simp] theorem takeError_frameLocal_seg (e : FrameError) (i : Nat) (s : State) :
    (takeError (.frameLocal e) i s).seg = s.seg := rfl
@[simp] theorem takeError_frameLocal_phase (e : FrameError) (i : Nat) (s : State) :
    (takeError (.frameLocal e) i s).phase = s.phase := rfl
@[simp] theorem takeError_frameLocal_frameStart (e : FrameError) (i : Nat) (s : State) :
    (takeError (.frameLocal e) i s).frameStart = s.frameStart := rfl
@[simp] theorem takeError_frameLocal_byteStart (e : FrameError) (i : Nat) (s : State) :
    (takeError (.frameLocal e) i s).byteStart = s.byteStart := rfl
@[simp] theorem takeError_frameLocal_bitStart (e : FrameError) (i : Nat) (s : State) :
    (takeError (.frameLocal e) i s).bitStart = s.bitStart := rfl
@[simp] theorem takeError_frameLocal_stopStart (e : FrameError) (i : Nat) (s : State) :
    (takeError (.frameLocal e) i s).stopStart = s.stopStart := rfl
@[simp] theorem takeError_frameLocal_lowDur (e : FrameError) (i : Nat) (s : State) :
    (takeError (.frameLocal e) i s).lowDur = s.lowDur := rfl
@[simp] theorem takeError_frameLocal_bitVal (e : FrameError) (i : Nat) (s : State) :
    (takeError (.frameLocal e) i s).bitVal = s.bitVal := rfl
@[simp] theorem takeError_frameLocal_shreg (e : FrameError) (i : Nat) (s : State) :
    (takeError (.frameLocal e) i s).shreg = s.shreg := rfl
@[simp] theorem takeError_frameLocal_bitCnt (e : FrameError) (i : Nat) (s : State) :
    (takeError (.frameLocal e) i s).bitCnt = s.bitCnt := rfl
@[simp] theorem takeError_frameLocal_opcode (e : FrameError) (i : Nat) (s : State) :
    (takeError (.frameLocal e) i s).opcode = s.opcode := rfl
@[simp] theorem takeError_frameLocal_cmdLen (e : FrameError) (i : Nat) (s : State) :
    (takeError (.frameLocal e) i s).cmdLen = s.cmdLen := rfl
@[simp] theorem takeError_frameLocal_rspLen (e : FrameError) (i : Nat) (s : State) :
    (takeError (.frameLocal e) i s).rspLen = s.rspLen := rfl
@[simp] theorem takeError_frameLocal_byteIdx (e : FrameError) (i : Nat) (s : State) :
    (takeError (.frameLocal e) i s).byteIdx = s.byteIdx := rfl
@[simp] theorem takeError_frameLocal_input (e : FrameError) (i : Nat) (s : State) :
    (takeError (.frameLocal e) i s).input = s.input := rfl
@[simp] theorem takeError_frameLocal_events (e : FrameError) (i : Nat) (s : State) :
    (takeError (.frameLocal e) i s).events = s.events ++ [⟨s.frameStart, i, .error e⟩] := rfl
@[simp] theorem takeError_frameLocal_evCount (e : FrameError) (i : Nat) (s : State) :
    (takeError (.frameLocal e) i s).evCount = s.evCount + 1 := rfl

@[simp] theorem loadProfile_run (f : SampleRate) (r : Role) (p : TimingProfile) (s : State) :
    (loadProfile f r p s).run = .running := rfl
@[simp] theorem loadProfile_state (f : SampleRate) (r : Role) (p : TimingProfile) (s : State) :
    (loadProfile f r p s).state = .initial := rfl
@[simp] theorem loadProfile_fs (f : SampleRate) (r : Role) (p : TimingProfile) (s : State) :
    (loadProfile f r p s).fs = f := rfl
@[simp] theorem loadProfile_role (f : SampleRate) (r : Role) (p : TimingProfile) (s : State) :
    (loadProfile f r p s).role = r := rfl
@[simp] theorem loadProfile_idleMin (f : SampleRate) (r : Role) (p : TimingProfile) (s : State) :
    (loadProfile f r p s).idleMin = p.idleMin := rfl
@[simp] theorem loadProfile_bitMidpoint (f : SampleRate) (r : Role) (p : TimingProfile) (s : State) :
    (loadProfile f r p s).bitMidpoint = p.bitMidpoint := rfl
@[simp] theorem loadProfile_stopBitWidth (f : SampleRate) (r : Role) (p : TimingProfile) (s : State) :
    (loadProfile f r p s).stopBitWidth = p.stopBitWidth := rfl
@[simp] theorem loadProfile_bitTimeout (f : SampleRate) (r : Role) (p : TimingProfile) (s : State) :
    (loadProfile f r p s).bitTimeout = p.bitTimeout := rfl
@[simp] theorem loadProfile_responseTimeout (f : SampleRate) (r : Role) (p : TimingProfile) (s : State) :
    (loadProfile f r p s).responseTimeout = p.responseTimeout := rfl
@[simp] theorem loadProfile_n (f : SampleRate) (r : Role) (p : TimingProfile) (s : State) :
    (loadProfile f r p s).n = s.n := rfl
@[simp] theorem loadProfile_hiCnt (f : SampleRate) (r : Role) (p : TimingProfile) (s : State) :
    (loadProfile f r p s).hiCnt = 0 := rfl
@[simp] theorem loadProfile_tmr (f : SampleRate) (r : Role) (p : TimingProfile) (s : State) :
    (loadProfile f r p s).tmr = s.tmr := rfl
@[simp] theorem loadProfile_seg (f : SampleRate) (r : Role) (p : TimingProfile) (s : State) :
    (loadProfile f r p s).seg = s.seg := rfl
@[simp] theorem loadProfile_phase (f : SampleRate) (r : Role) (p : TimingProfile) (s : State) :
    (loadProfile f r p s).phase = s.phase := rfl
@[simp] theorem loadProfile_frameStart (f : SampleRate) (r : Role) (p : TimingProfile) (s : State) :
    (loadProfile f r p s).frameStart = s.frameStart := rfl
@[simp] theorem loadProfile_byteStart (f : SampleRate) (r : Role) (p : TimingProfile) (s : State) :
    (loadProfile f r p s).byteStart = s.byteStart := rfl
@[simp] theorem loadProfile_bitStart (f : SampleRate) (r : Role) (p : TimingProfile) (s : State) :
    (loadProfile f r p s).bitStart = s.bitStart := rfl
@[simp] theorem loadProfile_stopStart (f : SampleRate) (r : Role) (p : TimingProfile) (s : State) :
    (loadProfile f r p s).stopStart = s.stopStart := rfl
@[simp] theorem loadProfile_lowDur (f : SampleRate) (r : Role) (p : TimingProfile) (s : State) :
    (loadProfile f r p s).lowDur = s.lowDur := rfl
@[simp] theorem loadProfile_bitVal (f : SampleRate) (r : Role) (p : TimingProfile) (s : State) :
    (loadProfile f r p s).bitVal = s.bitVal := rfl
@[simp] theorem loadProfile_shreg (f : SampleRate) (r : Role) (p : TimingProfile) (s : State) :
    (loadProfile f r p s).shreg = s.shreg := rfl
@[simp] theorem loadProfile_bitCnt (f : SampleRate) (r : Role) (p : TimingProfile) (s : State) :
    (loadProfile f r p s).bitCnt = s.bitCnt := rfl
@[simp] theorem loadProfile_opcode (f : SampleRate) (r : Role) (p : TimingProfile) (s : State) :
    (loadProfile f r p s).opcode = s.opcode := rfl
@[simp] theorem loadProfile_cmdLen (f : SampleRate) (r : Role) (p : TimingProfile) (s : State) :
    (loadProfile f r p s).cmdLen = s.cmdLen := rfl
@[simp] theorem loadProfile_rspLen (f : SampleRate) (r : Role) (p : TimingProfile) (s : State) :
    (loadProfile f r p s).rspLen = s.rspLen := rfl
@[simp] theorem loadProfile_byteIdx (f : SampleRate) (r : Role) (p : TimingProfile) (s : State) :
    (loadProfile f r p s).byteIdx = s.byteIdx := rfl
@[simp] theorem loadProfile_input (f : SampleRate) (r : Role) (p : TimingProfile) (s : State) :
    (loadProfile f r p s).input = s.input := rfl
@[simp] theorem loadProfile_events (f : SampleRate) (r : Role) (p : TimingProfile) (s : State) :
    (loadProfile f r p s).events = s.events := rfl
@[simp] theorem loadProfile_evCount (f : SampleRate) (r : Role) (p : TimingProfile) (s : State) :
    (loadProfile f r p s).evCount = s.evCount := rfl

@[simp] theorem startByte_run (i : Nat) (s : State) : (startByte i s).run = s.run := rfl
@[simp] theorem startByte_state (i : Nat) (s : State) : (startByte i s).state = s.state := rfl
@[simp] theorem startByte_fs (i : Nat) (s : State) : (startByte i s).fs = s.fs := rfl
@[simp] theorem startByte_role (i : Nat) (s : State) : (startByte i s).role = s.role := rfl
@[simp] theorem startByte_idleMin (i : Nat) (s : State) : (startByte i s).idleMin = s.idleMin := rfl
@[simp] theorem startByte_bitMidpoint (i : Nat) (s : State) :
    (startByte i s).bitMidpoint = s.bitMidpoint := rfl
@[simp] theorem startByte_stopBitWidth (i : Nat) (s : State) :
    (startByte i s).stopBitWidth = s.stopBitWidth := rfl
@[simp] theorem startByte_bitTimeout (i : Nat) (s : State) :
    (startByte i s).bitTimeout = s.bitTimeout := rfl
@[simp] theorem startByte_responseTimeout (i : Nat) (s : State) :
    (startByte i s).responseTimeout = s.responseTimeout := rfl
@[simp] theorem startByte_n (i : Nat) (s : State) : (startByte i s).n = s.n := rfl
@[simp] theorem startByte_hiCnt (i : Nat) (s : State) : (startByte i s).hiCnt = s.hiCnt := rfl
@[simp] theorem startByte_tmr (i : Nat) (s : State) : (startByte i s).tmr = 0 := rfl
@[simp] theorem startByte_seg (i : Nat) (s : State) : (startByte i s).seg = s.seg := rfl
@[simp] theorem startByte_phase (i : Nat) (s : State) : (startByte i s).phase = .bitLow := rfl
@[simp] theorem startByte_frameStart (i : Nat) (s : State) :
    (startByte i s).frameStart = s.frameStart := rfl
@[simp] theorem startByte_byteStart (i : Nat) (s : State) : (startByte i s).byteStart = i := rfl
@[simp] theorem startByte_bitStart (i : Nat) (s : State) : (startByte i s).bitStart = i := rfl
@[simp] theorem startByte_stopStart (i : Nat) (s : State) :
    (startByte i s).stopStart = s.stopStart := rfl
@[simp] theorem startByte_lowDur (i : Nat) (s : State) : (startByte i s).lowDur = s.lowDur := rfl
@[simp] theorem startByte_bitVal (i : Nat) (s : State) : (startByte i s).bitVal = s.bitVal := rfl
@[simp] theorem startByte_shreg (i : Nat) (s : State) : (startByte i s).shreg = 0 := rfl
@[simp] theorem startByte_bitCnt (i : Nat) (s : State) : (startByte i s).bitCnt = 0 := rfl
@[simp] theorem startByte_opcode (i : Nat) (s : State) : (startByte i s).opcode = s.opcode := rfl
@[simp] theorem startByte_cmdLen (i : Nat) (s : State) : (startByte i s).cmdLen = s.cmdLen := rfl
@[simp] theorem startByte_rspLen (i : Nat) (s : State) : (startByte i s).rspLen = s.rspLen := rfl
@[simp] theorem startByte_byteIdx (i : Nat) (s : State) : (startByte i s).byteIdx = s.byteIdx := rfl
@[simp] theorem startByte_input (i : Nat) (s : State) : (startByte i s).input = s.input := rfl
@[simp] theorem startByte_events (i : Nat) (s : State) : (startByte i s).events = s.events := rfl
@[simp] theorem startByte_evCount (i : Nat) (s : State) : (startByte i s).evCount = s.evCount := rfl

@[simp] theorem startStop_run (i : Nat) (s : State) : (startStop i s).run = s.run := rfl
@[simp] theorem startStop_state (i : Nat) (s : State) : (startStop i s).state = s.state := rfl
@[simp] theorem startStop_fs (i : Nat) (s : State) : (startStop i s).fs = s.fs := rfl
@[simp] theorem startStop_role (i : Nat) (s : State) : (startStop i s).role = s.role := rfl
@[simp] theorem startStop_idleMin (i : Nat) (s : State) : (startStop i s).idleMin = s.idleMin := rfl
@[simp] theorem startStop_bitMidpoint (i : Nat) (s : State) :
    (startStop i s).bitMidpoint = s.bitMidpoint := rfl
@[simp] theorem startStop_stopBitWidth (i : Nat) (s : State) :
    (startStop i s).stopBitWidth = s.stopBitWidth := rfl
@[simp] theorem startStop_bitTimeout (i : Nat) (s : State) :
    (startStop i s).bitTimeout = s.bitTimeout := rfl
@[simp] theorem startStop_responseTimeout (i : Nat) (s : State) :
    (startStop i s).responseTimeout = s.responseTimeout := rfl
@[simp] theorem startStop_n (i : Nat) (s : State) : (startStop i s).n = s.n := rfl
@[simp] theorem startStop_hiCnt (i : Nat) (s : State) : (startStop i s).hiCnt = s.hiCnt := rfl
@[simp] theorem startStop_tmr (i : Nat) (s : State) : (startStop i s).tmr = s.tmr := rfl
@[simp] theorem startStop_seg (i : Nat) (s : State) : (startStop i s).seg = s.seg := rfl
@[simp] theorem startStop_phase (i : Nat) (s : State) : (startStop i s).phase = .stopLow := rfl
@[simp] theorem startStop_frameStart (i : Nat) (s : State) :
    (startStop i s).frameStart = s.frameStart := rfl
@[simp] theorem startStop_byteStart (i : Nat) (s : State) :
    (startStop i s).byteStart = s.byteStart := rfl
@[simp] theorem startStop_bitStart (i : Nat) (s : State) :
    (startStop i s).bitStart = s.bitStart := rfl
@[simp] theorem startStop_stopStart (i : Nat) (s : State) : (startStop i s).stopStart = i := rfl
@[simp] theorem startStop_lowDur (i : Nat) (s : State) : (startStop i s).lowDur = s.lowDur := rfl
@[simp] theorem startStop_bitVal (i : Nat) (s : State) : (startStop i s).bitVal = s.bitVal := rfl
@[simp] theorem startStop_shreg (i : Nat) (s : State) : (startStop i s).shreg = s.shreg := rfl
@[simp] theorem startStop_bitCnt (i : Nat) (s : State) : (startStop i s).bitCnt = s.bitCnt := rfl
@[simp] theorem startStop_opcode (i : Nat) (s : State) : (startStop i s).opcode = s.opcode := rfl
@[simp] theorem startStop_cmdLen (i : Nat) (s : State) : (startStop i s).cmdLen = s.cmdLen := rfl
@[simp] theorem startStop_rspLen (i : Nat) (s : State) : (startStop i s).rspLen = s.rspLen := rfl
@[simp] theorem startStop_byteIdx (i : Nat) (s : State) : (startStop i s).byteIdx = s.byteIdx := rfl
@[simp] theorem startStop_input (i : Nat) (s : State) : (startStop i s).input = s.input := rfl
@[simp] theorem startStop_events (i : Nat) (s : State) : (startStop i s).events = s.events := rfl
@[simp] theorem startStop_evCount (i : Nat) (s : State) : (startStop i s).evCount = s.evCount := rfl

@[simp] theorem startFrame_run (i : Nat) (s : State) : (startFrame i s).run = s.run := rfl
@[simp] theorem startFrame_state (i : Nat) (s : State) : (startFrame i s).state = .command := rfl
@[simp] theorem startFrame_fs (i : Nat) (s : State) : (startFrame i s).fs = s.fs := rfl
@[simp] theorem startFrame_role (i : Nat) (s : State) : (startFrame i s).role = s.role := rfl
@[simp] theorem startFrame_idleMin (i : Nat) (s : State) :
    (startFrame i s).idleMin = s.idleMin := rfl
@[simp] theorem startFrame_bitMidpoint (i : Nat) (s : State) :
    (startFrame i s).bitMidpoint = s.bitMidpoint := rfl
@[simp] theorem startFrame_stopBitWidth (i : Nat) (s : State) :
    (startFrame i s).stopBitWidth = s.stopBitWidth := rfl
@[simp] theorem startFrame_bitTimeout (i : Nat) (s : State) :
    (startFrame i s).bitTimeout = s.bitTimeout := rfl
@[simp] theorem startFrame_responseTimeout (i : Nat) (s : State) :
    (startFrame i s).responseTimeout = s.responseTimeout := rfl
@[simp] theorem startFrame_n (i : Nat) (s : State) : (startFrame i s).n = s.n := rfl
@[simp] theorem startFrame_hiCnt (i : Nat) (s : State) : (startFrame i s).hiCnt = s.hiCnt := rfl
@[simp] theorem startFrame_tmr (i : Nat) (s : State) : (startFrame i s).tmr = 0 := rfl
@[simp] theorem startFrame_seg (i : Nat) (s : State) : (startFrame i s).seg = .cmd := rfl
@[simp] theorem startFrame_phase (i : Nat) (s : State) : (startFrame i s).phase = .bitLow := rfl
@[simp] theorem startFrame_frameStart (i : Nat) (s : State) : (startFrame i s).frameStart = i := rfl
@[simp] theorem startFrame_byteStart (i : Nat) (s : State) : (startFrame i s).byteStart = i := rfl
@[simp] theorem startFrame_bitStart (i : Nat) (s : State) : (startFrame i s).bitStart = i := rfl
@[simp] theorem startFrame_stopStart (i : Nat) (s : State) :
    (startFrame i s).stopStart = s.stopStart := rfl
@[simp] theorem startFrame_lowDur (i : Nat) (s : State) : (startFrame i s).lowDur = s.lowDur := rfl
@[simp] theorem startFrame_bitVal (i : Nat) (s : State) : (startFrame i s).bitVal = s.bitVal := rfl
@[simp] theorem startFrame_shreg (i : Nat) (s : State) : (startFrame i s).shreg = 0 := rfl
@[simp] theorem startFrame_bitCnt (i : Nat) (s : State) : (startFrame i s).bitCnt = 0 := rfl
@[simp] theorem startFrame_opcode (i : Nat) (s : State) : (startFrame i s).opcode = s.opcode := rfl
@[simp] theorem startFrame_cmdLen (i : Nat) (s : State) : (startFrame i s).cmdLen = s.cmdLen := rfl
@[simp] theorem startFrame_rspLen (i : Nat) (s : State) : (startFrame i s).rspLen = s.rspLen := rfl
@[simp] theorem startFrame_byteIdx (i : Nat) (s : State) : (startFrame i s).byteIdx = 0 := rfl
@[simp] theorem startFrame_input (i : Nat) (s : State) : (startFrame i s).input = s.input := rfl
@[simp] theorem startFrame_events (i : Nat) (s : State) : (startFrame i s).events = s.events := rfl
@[simp] theorem startFrame_evCount (i : Nat) (s : State) :
    (startFrame i s).evCount = s.evCount := rfl

@[simp] theorem completeCell_run (i : Nat) (s : State) : (completeCell i s).run = s.run := rfl
@[simp] theorem completeCell_state (i : Nat) (s : State) : (completeCell i s).state = s.state := rfl
@[simp] theorem completeCell_fs (i : Nat) (s : State) : (completeCell i s).fs = s.fs := rfl
@[simp] theorem completeCell_role (i : Nat) (s : State) : (completeCell i s).role = s.role := rfl
@[simp] theorem completeCell_idleMin (i : Nat) (s : State) :
    (completeCell i s).idleMin = s.idleMin := rfl
@[simp] theorem completeCell_bitMidpoint (i : Nat) (s : State) :
    (completeCell i s).bitMidpoint = s.bitMidpoint := rfl
@[simp] theorem completeCell_stopBitWidth (i : Nat) (s : State) :
    (completeCell i s).stopBitWidth = s.stopBitWidth := rfl
@[simp] theorem completeCell_bitTimeout (i : Nat) (s : State) :
    (completeCell i s).bitTimeout = s.bitTimeout := rfl
@[simp] theorem completeCell_responseTimeout (i : Nat) (s : State) :
    (completeCell i s).responseTimeout = s.responseTimeout := rfl
@[simp] theorem completeCell_n (i : Nat) (s : State) : (completeCell i s).n = s.n := rfl
@[simp] theorem completeCell_hiCnt (i : Nat) (s : State) : (completeCell i s).hiCnt = s.hiCnt := rfl
@[simp] theorem completeCell_tmr (i : Nat) (s : State) : (completeCell i s).tmr = s.tmr := rfl
@[simp] theorem completeCell_seg (i : Nat) (s : State) : (completeCell i s).seg = s.seg := rfl
@[simp] theorem completeCell_phase (i : Nat) (s : State) : (completeCell i s).phase = s.phase := rfl
@[simp] theorem completeCell_frameStart (i : Nat) (s : State) :
    (completeCell i s).frameStart = s.frameStart := rfl
@[simp] theorem completeCell_byteStart (i : Nat) (s : State) :
    (completeCell i s).byteStart = s.byteStart := rfl
@[simp] theorem completeCell_bitStart (i : Nat) (s : State) :
    (completeCell i s).bitStart = s.bitStart := rfl
@[simp] theorem completeCell_stopStart (i : Nat) (s : State) :
    (completeCell i s).stopStart = s.stopStart := rfl
@[simp] theorem completeCell_lowDur (i : Nat) (s : State) :
    (completeCell i s).lowDur = s.lowDur := rfl
@[simp] theorem completeCell_bitVal (i : Nat) (s : State) :
    (completeCell i s).bitVal = s.bitVal := rfl
@[simp] theorem completeCell_shreg (i : Nat) (s : State) :
    (completeCell i s).shreg = shiftIn s.shreg s.bitVal := rfl
@[simp] theorem completeCell_bitCnt (i : Nat) (s : State) :
    (completeCell i s).bitCnt = s.bitCnt := rfl
@[simp] theorem completeCell_opcode (i : Nat) (s : State) :
    (completeCell i s).opcode = s.opcode := rfl
@[simp] theorem completeCell_cmdLen (i : Nat) (s : State) :
    (completeCell i s).cmdLen = s.cmdLen := rfl
@[simp] theorem completeCell_rspLen (i : Nat) (s : State) :
    (completeCell i s).rspLen = s.rspLen := rfl
@[simp] theorem completeCell_byteIdx (i : Nat) (s : State) :
    (completeCell i s).byteIdx = s.byteIdx := rfl
@[simp] theorem completeCell_input (i : Nat) (s : State) : (completeCell i s).input = s.input := rfl
@[simp] theorem completeCell_events (i : Nat) (s : State) :
    (completeCell i s).events = s.events ++ [⟨s.bitStart, i, .bit s.bitVal⟩] := rfl
@[simp] theorem completeCell_evCount (i : Nat) (s : State) :
    (completeCell i s).evCount = s.evCount + 1 := rfl

@[simp] theorem nextCell_run (i : Nat) (s : State) : (nextCell i s).run = s.run := rfl
@[simp] theorem nextCell_state (i : Nat) (s : State) : (nextCell i s).state = s.state := rfl
@[simp] theorem nextCell_fs (i : Nat) (s : State) : (nextCell i s).fs = s.fs := rfl
@[simp] theorem nextCell_role (i : Nat) (s : State) : (nextCell i s).role = s.role := rfl
@[simp] theorem nextCell_idleMin (i : Nat) (s : State) : (nextCell i s).idleMin = s.idleMin := rfl
@[simp] theorem nextCell_bitMidpoint (i : Nat) (s : State) :
    (nextCell i s).bitMidpoint = s.bitMidpoint := rfl
@[simp] theorem nextCell_stopBitWidth (i : Nat) (s : State) :
    (nextCell i s).stopBitWidth = s.stopBitWidth := rfl
@[simp] theorem nextCell_bitTimeout (i : Nat) (s : State) :
    (nextCell i s).bitTimeout = s.bitTimeout := rfl
@[simp] theorem nextCell_responseTimeout (i : Nat) (s : State) :
    (nextCell i s).responseTimeout = s.responseTimeout := rfl
@[simp] theorem nextCell_n (i : Nat) (s : State) : (nextCell i s).n = s.n := rfl
@[simp] theorem nextCell_hiCnt (i : Nat) (s : State) : (nextCell i s).hiCnt = s.hiCnt := rfl
@[simp] theorem nextCell_tmr (i : Nat) (s : State) : (nextCell i s).tmr = 0 := rfl
@[simp] theorem nextCell_seg (i : Nat) (s : State) : (nextCell i s).seg = s.seg := rfl
@[simp] theorem nextCell_phase (i : Nat) (s : State) : (nextCell i s).phase = .bitLow := rfl
@[simp] theorem nextCell_frameStart (i : Nat) (s : State) :
    (nextCell i s).frameStart = s.frameStart := rfl
@[simp] theorem nextCell_byteStart (i : Nat) (s : State) :
    (nextCell i s).byteStart = s.byteStart := rfl
@[simp] theorem nextCell_bitStart (i : Nat) (s : State) : (nextCell i s).bitStart = i := rfl
@[simp] theorem nextCell_stopStart (i : Nat) (s : State) :
    (nextCell i s).stopStart = s.stopStart := rfl
@[simp] theorem nextCell_lowDur (i : Nat) (s : State) : (nextCell i s).lowDur = s.lowDur := rfl
@[simp] theorem nextCell_bitVal (i : Nat) (s : State) : (nextCell i s).bitVal = s.bitVal := rfl
@[simp] theorem nextCell_shreg (i : Nat) (s : State) : (nextCell i s).shreg = s.shreg := rfl
@[simp] theorem nextCell_bitCnt (i : Nat) (s : State) : (nextCell i s).bitCnt = s.bitCnt + 1 := rfl
@[simp] theorem nextCell_opcode (i : Nat) (s : State) : (nextCell i s).opcode = s.opcode := rfl
@[simp] theorem nextCell_cmdLen (i : Nat) (s : State) : (nextCell i s).cmdLen = s.cmdLen := rfl
@[simp] theorem nextCell_rspLen (i : Nat) (s : State) : (nextCell i s).rspLen = s.rspLen := rfl
@[simp] theorem nextCell_byteIdx (i : Nat) (s : State) : (nextCell i s).byteIdx = s.byteIdx := rfl
@[simp] theorem nextCell_input (i : Nat) (s : State) : (nextCell i s).input = s.input := rfl
@[simp] theorem nextCell_events (i : Nat) (s : State) : (nextCell i s).events = s.events := rfl
@[simp] theorem nextCell_evCount (i : Nat) (s : State) : (nextCell i s).evCount = s.evCount := rfl

@[simp] theorem hardReset_run (s : State) : (hardReset s).run = .unconfigured := rfl
@[simp] theorem hardReset_state (s : State) : (hardReset s).state = .initial := rfl
@[simp] theorem hardReset_fs (s : State) : (hardReset s).fs = 0 := rfl
@[simp] theorem hardReset_role (s : State) : (hardReset s).role = .console := rfl
@[simp] theorem hardReset_idleMin (s : State) : (hardReset s).idleMin = 0 := rfl
@[simp] theorem hardReset_bitMidpoint (s : State) : (hardReset s).bitMidpoint = 0 := rfl
@[simp] theorem hardReset_stopBitWidth (s : State) : (hardReset s).stopBitWidth = 0 := rfl
@[simp] theorem hardReset_bitTimeout (s : State) : (hardReset s).bitTimeout = 0 := rfl
@[simp] theorem hardReset_responseTimeout (s : State) : (hardReset s).responseTimeout = 0 := rfl
@[simp] theorem hardReset_n (s : State) : (hardReset s).n = 0 := rfl
@[simp] theorem hardReset_hiCnt (s : State) : (hardReset s).hiCnt = 0 := rfl
@[simp] theorem hardReset_tmr (s : State) : (hardReset s).tmr = 0 := rfl
@[simp] theorem hardReset_seg (s : State) : (hardReset s).seg = .cmd := rfl
@[simp] theorem hardReset_phase (s : State) : (hardReset s).phase = .bitLow := rfl
@[simp] theorem hardReset_frameStart (s : State) : (hardReset s).frameStart = 0 := rfl
@[simp] theorem hardReset_byteStart (s : State) : (hardReset s).byteStart = 0 := rfl
@[simp] theorem hardReset_bitStart (s : State) : (hardReset s).bitStart = 0 := rfl
@[simp] theorem hardReset_stopStart (s : State) : (hardReset s).stopStart = 0 := rfl
@[simp] theorem hardReset_lowDur (s : State) : (hardReset s).lowDur = 0 := rfl
@[simp] theorem hardReset_bitVal (s : State) : (hardReset s).bitVal = false := rfl
@[simp] theorem hardReset_shreg (s : State) : (hardReset s).shreg = 0 := rfl
@[simp] theorem hardReset_bitCnt (s : State) : (hardReset s).bitCnt = 0 := rfl
@[simp] theorem hardReset_opcode (s : State) : (hardReset s).opcode = 0 := rfl
@[simp] theorem hardReset_cmdLen (s : State) : (hardReset s).cmdLen = 0 := rfl
@[simp] theorem hardReset_rspLen (s : State) : (hardReset s).rspLen = 0 := rfl
@[simp] theorem hardReset_byteIdx (s : State) : (hardReset s).byteIdx = 0 := rfl
@[simp] theorem hardReset_input (s : State) : (hardReset s).input = s.input := rfl
@[simp] theorem hardReset_events (s : State) : (hardReset s).events = s.events := rfl
@[simp] theorem hardReset_evCount (s : State) : (hardReset s).evCount = 0 := rfl

end Sys2Proof.Machine
end

