-- ==== Sys2Proof/Laws/Step.lean ====
section
/-! SUPPORT. What one step is in each situation, said once, and the runs of several steps. -/

namespace Sys2Proof.Machine

variable {s t : State} {rest : List InputEvent} {x : Bool}

/-! ### One step, by the pending input event -/

theorem step_nil (h : s.input = []) : step s = .next s := by simp [step, h]

theorem step_cons {e : InputEvent} (h : s.input = e :: rest) :
    step s = react e (beginStep rest s) := by simp [step, h]

theorem step_reset (h : s.input = .reset :: rest) :
    step s = .next (hardReset (beginStep rest s)) := by rw [step_cons h]; rfl

theorem step_configure {f : SampleRate} {r : Role} (h : s.input = .configure f r :: rest) :
    step s = .next (configure f r (beginStep rest s)) := by rw [step_cons h]; rfl

theorem step_unconfigured (hr : s.run = .unconfigured) (h : s.input = .sample x :: rest) :
    step s = .next (takeError .config s.n (consume (beginStep rest s))) := by
  simp [step_cons h, react, sampleStep, hr]

theorem step_fatal (hr : s.run = .fatal) (h : s.input = .sample x :: rest) :
    step s = .next (consume (beginStep rest s)) := by
  simp [step_cons h, react, sampleStep, hr]

theorem step_running (hr : s.run = .running) (h : s.input = .sample x :: rest) :
    step s = stepRunning x s.n (consume (beginStep rest s)) := by
  simp [step_cons h, react, sampleStep, hr]

theorem step_initial (hr : s.run = .running) (hs : s.state = .initial)
    (h : s.input = .sample x :: rest) :
    step s = .next (resync x (consume (beginStep rest s))) := by
  simp [step_running hr h, stepRunning, hs]

theorem step_idle (hr : s.run = .running) (hs : s.state = .idle)
    (h : s.input = .sample x :: rest) :
    step s = .next (stepIdle x s.n (consume (beginStep rest s))) := by
  simp [step_running hr h, stepRunning, hs]

theorem step_bitLow (hr : s.run = .running) (hs : s.state = .command) (hp : s.phase = .bitLow)
    (h : s.input = .sample x :: rest) :
    step s = .next (stepBitLow x s.n (consume (beginStep rest s))) := by
  simp [step_running hr h, stepRunning, stepCommand, hs, hp]

theorem step_bitHigh (hr : s.run = .running) (hs : s.state = .command) (hp : s.phase = .bitHigh)
    (h : s.input = .sample x :: rest) :
    step s = stepBitHigh x s.n (consume (beginStep rest s)) := by
  simp [step_running hr h, stepRunning, stepCommand, hs, hp]

theorem step_stopLow (hr : s.run = .running) (hs : s.state = .command) (hp : s.phase = .stopLow)
    (h : s.input = .sample x :: rest) :
    step s = .next (stepStopLow x s.n (consume (beginStep rest s))) := by
  simp [step_running hr h, stepRunning, stepCommand, hs, hp]

theorem step_rspWait (hr : s.run = .running) (hs : s.state = .command) (hp : s.phase = .rspWait)
    (h : s.input = .sample x :: rest) :
    step s = .next (stepRspWait x s.n (consume (beginStep rest s))) := by
  simp [step_running hr h, stepRunning, stepCommand, hs, hp]

/-! ### The falling edge that ends a cell -/

theorem stepBitHigh_cell {i : Nat} (h : s.bitCnt ≠ 7) :
    stepBitHigh false i s = .next (nextCell i (completeCell i s)) := by
  unfold stepBitHigh
  rw [if_neg (by decide)]
  exact if_neg h

theorem stepBitHigh_byte {i : Nat} (h : s.bitCnt = 7) :
    stepBitHigh false i s = byteDone (shiftIn s.shreg s.bitVal) i (completeCell i s) := by
  unfold stepBitHigh
  rw [if_neg (by decide)]
  exact if_pos h

theorem byteDone_opcode {v : Byte} {i : Nat} (hs : s.seg = .cmd) (hb : s.byteIdx = 0) :
    byteDone v i s = opcodeDone v s := if_pos ⟨hs, hb⟩

theorem byteDone_commandData {v : Byte} {i : Nat} (hs : s.seg = .cmd) (hb : s.byteIdx ≠ 0) :
    byteDone v i s = .next (commandDataDone v i s) := by
  unfold byteDone
  rw [if_neg (fun h => hb h.2), if_pos hs]

theorem byteDone_responseData {v : Byte} {i : Nat} (hs : s.seg = .rsp) :
    byteDone v i s = .next (responseDataDone v i s) := by
  unfold byteDone
  rw [if_neg (fun h => by simp [hs] at h), if_neg (by simp [hs])]

/-! ### Runs -/

@[simp] theorem runSteps_zero (s : State) : runSteps 0 s = .next s := rfl

theorem runSteps_succ {k : Nat} (h : step s = .next t) : runSteps (k + 1) s = runSteps k t := by
  rw [runSteps, h]

/-- A run of `k + 1` steps that ends well begins with one step that ends well. -/
theorem runSteps_succ_inv {k : Nat} (h : runSteps (k + 1) s = .next t) :
    ∃ u, step s = .next u ∧ runSteps k u = .next t := by
  rw [runSteps] at h
  split at h
  · exact ⟨_, by assumption, h⟩
  · cases h
  · cases h

theorem runSteps_add {a b : Nat} (h : runSteps a s = .next t) :
    runSteps (a + b) s = runSteps b t := by
  induction a generalizing s with
  | zero => cases h; rw [Nat.zero_add]
  | succ a ih =>
    obtain ⟨u, hu, hr⟩ := runSteps_succ_inv h
    rw [show a + 1 + b = (a + b) + 1 by omega, runSteps_succ hu]
    exact ih hr

/-- The host's run after a step that has a next state. -/
theorem core_run_next {M : Host.Core} {k : Nat} {s t : M.State} (h : M.step s = .next t) :
    M.run (k + 1) s = M.run k t := by
  rw [Host.Core.run.eq_def]; simp only [h]

theorem core_run_fault {M : Host.Core} {k : Nat} {s : M.State} {r : M.Fault}
    (h : M.step s = .fault r) : M.run (k + 1) s = .fault r := by
  rw [Host.Core.run.eq_def]; simp only [h]

theorem core_run_refused {M : Host.Core} {k : Nat} {s : M.State} {r : M.Refusal}
    (h : M.step s = .refused r) : M.run (k + 1) s = .refused r := by
  rw [Host.Core.run.eq_def]; simp only [h]

/-- The runs of the claims are the host's runs of the model. -/
theorem runSteps_eq_core_run (k : Nat) (s : State) :
    runSteps k s = Host.Core.run Sys2Proof.core k s := by
  induction k generalizing s with
  | zero => rfl
  | succ k ih =>
    cases h : step s with
    | next t =>
      rw [runSteps_succ h, ih t]
      exact (core_run_next (M := Sys2Proof.core) h).symm
    | fault r => exact r.rec
    | refused r =>
      rw [runSteps, h]
      exact (core_run_refused (M := Sys2Proof.core) h).symm

@[simp] theorem presenting_nil (rest : List InputEvent) : presenting [] rest = rest := rfl

@[simp] theorem presenting_cons (x : Bool) (xs : List Bool) (rest : List InputEvent) :
    presenting (x :: xs) rest = .sample x :: presenting xs rest := rfl

theorem presenting_append (xs ys : List Bool) (rest : List InputEvent) :
    presenting (xs ++ ys) rest = presenting xs (presenting ys rest) := by
  simp [presenting, List.append_assoc]

/-! ### The shared operations, each said once -/

/-- Every command's meaning is OpcodeDone (42_frame_fsm.md R179) with the row of the table. -/
theorem exec_eq_recognise (i : Instr) (s : State) :
    exec i s = .next (recognise (encodeOpcode i) (BitVec.ofNat 6 i.spec.commandLen)
      (BitVec.ofNat 6 i.spec.responseLen) s) := by
  cases i <;> rfl

theorem opcodeDone_known {v : Byte} {i : Instr} (h : decodeOpcode v = some i) (s : State) :
    opcodeDone v s = exec i s := by
  simp [opcodeDone, decode, h]

theorem opcodeDone_unknown {v : Byte} (h : decodeOpcode v = none) (s : State) :
    opcodeDone v s = .next (unknownOpcode v s) := by
  simp [opcodeDone, decode, h]

theorem classify_eq (d m : Nat) : classify d m = decide (d ≤ m) := by
  unfold classify
  split <;> simp_all

/-- The wait either raises its error or counts. -/
theorem countOrRaise_cases (bound : Nat) (e : FrameError) (i : Nat) (s : State) :
    (s.tmr + 1 = bound ∧ countOrRaise bound e i s = takeError (.frameLocal e) i s) ∨
    (s.tmr + 1 ≠ bound ∧ countOrRaise bound e i s = { s with tmr := s.tmr + 1 }) := by
  unfold countOrRaise
  split <;> simp_all

/-- After a byte comes the stop bit or the next byte. -/
theorem afterByte_cases (k len : Length6) (i : Nat) (s : State) :
    (k = len ∧ afterByte k len i s = startStop i s) ∨
    (k ≠ len ∧ afterByte k len i s = startByte i s) := by
  unfold afterByte
  split <;> simp_all

/-- The debounce counts to IDLE, counts on, or starts over. -/
theorem resync_cases (x : Bool) (s : State) :
    (x = true ∧ s.hiCnt + 1 = s.idleMin ∧
      resync x s = { s with hiCnt := s.hiCnt + 1, state := .idle }) ∨
    (x = true ∧ s.hiCnt + 1 ≠ s.idleMin ∧ resync x s = { s with hiCnt := s.hiCnt + 1 }) ∨
    (x = false ∧ resync x s = { s with hiCnt := 0 }) := by
  unfold resync
  cases x <;> by_cases h : s.hiCnt + 1 = s.idleMin <;> simp [h]

/-- Configure does nothing in FATAL, raises ConfigError, or loads a profile. -/
theorem configure_cases (f : SampleRate) (r : Role) (s : State) :
    (s.run = .fatal ∧ configure f r s = s) ∨
    (s.run ≠ .fatal ∧ profile f.toNat r = none ∧
      configure f r s = takeError .config s.cursor s) ∨
    (∃ p, s.run ≠ .fatal ∧ profile f.toNat r = some p ∧ configure f r s = loadProfile f r p s) := by
  unfold configure
  split
  · simp_all
  · split <;> simp_all

/-- A completed byte is an opcode, known or not, a data byte of the command, or one of the response. -/
theorem byteDone_cases (v : Byte) (i : Nat) (s : State) :
    (∃ c, s.seg = .cmd ∧ s.byteIdx = 0 ∧ decodeOpcode v = some c ∧ byteDone v i s = exec c s) ∨
    (s.seg = .cmd ∧ s.byteIdx = 0 ∧ decodeOpcode v = none ∧
      byteDone v i s = .next (unknownOpcode v s)) ∨
    (s.seg = .cmd ∧ s.byteIdx ≠ 0 ∧ byteDone v i s = .next (commandDataDone v i s)) ∨
    (s.seg = .rsp ∧ byteDone v i s = .next (responseDataDone v i s)) := by
  unfold byteDone
  cases hseg : s.seg with
  | rsp => exact .inr (.inr (.inr ⟨rfl, by simp⟩))
  | cmd =>
    by_cases hb : s.byteIdx = 0
    · rw [if_pos ⟨rfl, hb⟩]
      cases hd : decodeOpcode v with
      | none => exact .inr (.inl ⟨rfl, hb, rfl, opcodeDone_unknown hd s⟩)
      | some c => exact .inl ⟨c, rfl, hb, rfl, opcodeDone_known hd s⟩
    · rw [if_neg (fun h => hb h.2)]
      exact .inr (.inr (.inl ⟨rfl, hb, rfl⟩))

end Sys2Proof.Machine
end

