-- ==== Sys2Proof/Laws/Transition.lean ====
section
/-! SUPPORT. Everything one step can do, said once: the table of control transfers (42_frame_fsm.md R192)
as an inductive relation, and its inversion lemma. Claims about every step are proved by cases on it. -/

namespace Sys2Proof.Machine

/-- The state in which a phase does its work: the input event is taken, and the sample is consumed. -/
abbrev taken (rest : List InputEvent) (s : State) : State := consume (beginStep rest s)

/-- The state in which ByteDone does its work: the eighth cell of the byte is complete. -/
abbrev assembled (rest : List InputEvent) (s : State) : State := completeCell s.n (taken rest s)

/-- A sample comes while the machine is in a phase of COMMAND. -/
def Waiting (s : State) (p : Phase) (x : Bool) (rest : List InputEvent) : Prop :=
  s.run = .running ∧ s.state = .command ∧ s.phase = p ∧ s.input = .sample x :: rest

/-- `Transition s t`: one step leads from `s` to `t`, by one of the rows of 42_frame_fsm.md R192. -/
inductive Transition (s : State) : State → Prop
  | noInput (h : s.input = []) : Transition s s
  | reset (rest : List InputEvent) (h : s.input = .reset :: rest) :
      Transition s (hardReset (beginStep rest s))
  | configureIgnored (rest : List InputEvent) (f : SampleRate) (r : Role)
      (h : s.input = .configure f r :: rest) (hr : s.run = .fatal) :
      Transition s (beginStep rest s)
  | configureFails (rest : List InputEvent) (f : SampleRate) (r : Role)
      (h : s.input = .configure f r :: rest) (hr : s.run ≠ .fatal)
      (hp : profile f.toNat r = none) :
      Transition s (takeError .config (beginStep rest s).cursor (beginStep rest s))
  | configureLoads (rest : List InputEvent) (f : SampleRate) (r : Role) (p : TimingProfile)
      (h : s.input = .configure f r :: rest) (hr : s.run ≠ .fatal)
      (hp : profile f.toNat r = some p) :
      Transition s (loadProfile f r p (beginStep rest s))
  | notConfigured (rest : List InputEvent) (x : Bool) (h : s.input = .sample x :: rest)
      (hr : s.run = .unconfigured) : Transition s (takeError .config s.n (taken rest s))
  | ignored (rest : List InputEvent) (x : Bool) (h : s.input = .sample x :: rest)
      (hr : s.run = .fatal) : Transition s (taken rest s)
  | idleReached (rest : List InputEvent) (h : s.input = .sample true :: rest)
      (hr : s.run = .running) (hs : s.state = .initial) (hc : s.hiCnt + 1 = s.idleMin) :
      Transition s { taken rest s with hiCnt := s.hiCnt + 1, state := .idle }
  | highCounted (rest : List InputEvent) (h : s.input = .sample true :: rest)
      (hr : s.run = .running) (hs : s.state = .initial) (hc : s.hiCnt + 1 ≠ s.idleMin) :
      Transition s { taken rest s with hiCnt := s.hiCnt + 1 }
  | lowInInitial (rest : List InputEvent) (h : s.input = .sample false :: rest)
      (hr : s.run = .running) (hs : s.state = .initial) :
      Transition s { taken rest s with hiCnt := 0 }
  | idleHigh (rest : List InputEvent) (h : s.input = .sample true :: rest)
      (hr : s.run = .running) (hs : s.state = .idle) : Transition s (taken rest s)
  | frameStarts (rest : List InputEvent) (h : s.input = .sample false :: rest)
      (hr : s.run = .running) (hs : s.state = .idle) :
      Transition s (startFrame s.n (taken rest s))
  | lowEnds (rest : List InputEvent) (h : Waiting s .bitLow true rest) :
      Transition s { taken rest s with
        lowDur := s.tmr + 1, bitVal := classify (s.tmr + 1) s.bitMidpoint,
        phase := .bitHigh, tmr := 0 }
  | lowTimesOut (rest : List InputEvent) (h : Waiting s .bitLow false rest)
      (ht : s.tmr + 1 = s.bitTimeout) :
      Transition s (takeError (.frameLocal .bitTimeout) s.n (taken rest s))
  | lowCounts (rest : List InputEvent) (h : Waiting s .bitLow false rest)
      (ht : s.tmr + 1 ≠ s.bitTimeout) :
      Transition s { taken rest s with tmr := s.tmr + 1 }
  | highTimesOut (rest : List InputEvent) (h : Waiting s .bitHigh true rest)
      (ht : s.tmr + 1 = s.bitTimeout) :
      Transition s (takeError (.frameLocal .bitTimeout) s.n (taken rest s))
  | highCounts (rest : List InputEvent) (h : Waiting s .bitHigh true rest)
      (ht : s.tmr + 1 ≠ s.bitTimeout) :
      Transition s { taken rest s with tmr := s.tmr + 1 }
  | cellDone (rest : List InputEvent) (h : Waiting s .bitHigh false rest) (hb : s.bitCnt ≠ 7) :
      Transition s (nextCell s.n (assembled rest s))
  | opcodeKnown (rest : List InputEvent) (i : Instr) (h : Waiting s .bitHigh false rest)
      (hb : s.bitCnt = 7) (ho : inOpcode s)
      (hd : decodeOpcode (shiftIn s.shreg s.bitVal) = some i) :
      Transition s (recognise (encodeOpcode i) (BitVec.ofNat 6 i.spec.commandLen)
        (BitVec.ofNat 6 i.spec.responseLen) (assembled rest s))
  | opcodeUnknown (rest : List InputEvent) (h : Waiting s .bitHigh false rest)
      (hb : s.bitCnt = 7) (ho : inOpcode s)
      (hd : decodeOpcode (shiftIn s.shreg s.bitVal) = none) :
      Transition s (unknownOpcode (shiftIn s.shreg s.bitVal) (assembled rest s))
  | commandData (rest : List InputEvent) (h : Waiting s .bitHigh false rest) (hb : s.bitCnt = 7)
      (hs : s.seg = .cmd) (hi : s.byteIdx ≠ 0) :
      Transition s (commandDataDone (shiftIn s.shreg s.bitVal) s.n (assembled rest s))
  | responseData (rest : List InputEvent) (h : Waiting s .bitHigh false rest) (hb : s.bitCnt = 7)
      (hs : s.seg = .rsp) :
      Transition s (responseDataDone (shiftIn s.shreg s.bitVal) s.n (assembled rest s))
  | stopWaits (rest : List InputEvent) (h : Waiting s .stopLow false rest) :
      Transition s (taken rest s)
  | commandStops (rest : List InputEvent) (h : Waiting s .stopLow true rest) (hs : s.seg = .cmd) :
      Transition s { emit ⟨s.stopStart, s.n, .stopBit s.stopBitWidth⟩ (taken rest s) with
        phase := .rspWait, tmr := 0 }
  | responseStops (rest : List InputEvent) (h : Waiting s .stopLow true rest) (hs : s.seg = .rsp) :
      Transition s { emit ⟨s.stopStart, s.n, .stopBit s.stopBitWidth⟩ (taken rest s) with
        state := .idle }
  | responseTimesOut (rest : List InputEvent) (h : Waiting s .rspWait true rest)
      (ht : s.tmr + 1 = s.responseTimeout) :
      Transition s (takeError (.frameLocal .responseTimeout) s.n (taken rest s))
  | gapCounts (rest : List InputEvent) (h : Waiting s .rspWait true rest)
      (ht : s.tmr + 1 ≠ s.responseTimeout) :
      Transition s { taken rest s with tmr := s.tmr + 1 }
  | responseBegins (rest : List InputEvent) (h : Waiting s .rspWait false rest)
      (hl : s.rspLen ≠ 0) :
      Transition s (startByte s.n { taken rest s with seg := .rsp, byteIdx := 0 })
  | emptyResponse (rest : List InputEvent) (h : Waiting s .rspWait false rest)
      (hl : s.rspLen = 0) :
      Transition s (startStop s.n { taken rest s with seg := .rsp, byteIdx := 0 })

variable {s t : State}

theorem transition_bitHigh {rest : List InputEvent} (h : Waiting s .bitHigh false rest)
    (hb : s.bitCnt = 7)
    (hs : byteDone (shiftIn s.shreg s.bitVal) s.n (assembled rest s) = .next t) :
    Transition s t := by
  rcases byteDone_cases (shiftIn s.shreg s.bitVal) s.n (assembled rest s) with
    ⟨c, h1, h2, h3, h4⟩ | ⟨h1, h2, h3, h4⟩ | ⟨h1, h2, h4⟩ | ⟨h1, h4⟩ <;> rw [h4] at hs
  · rw [exec_eq_recognise] at hs
    cases hs
    exact .opcodeKnown rest c h hb ⟨h1, h2⟩ h3
  · cases hs
    exact .opcodeUnknown rest h hb ⟨h1, h2⟩ h3
  · cases hs
    exact .commandData rest h hb h1 h2
  · cases hs
    exact .responseData rest h hb h1

theorem transition_command {x : Bool} {rest : List InputEvent} (hr : s.run = .running)
    (hc : s.state = .command) (h : s.input = .sample x :: rest) (hs : step s = .next t) :
    Transition s t := by
  cases hp : s.phase with
  | bitLow =>
    rw [step_bitLow hr hc hp h] at hs
    cases hs
    cases x with
    | true => exact .lowEnds rest ⟨hr, hc, hp, h⟩
    | false =>
      show Transition s (countOrRaise s.bitTimeout .bitTimeout s.n (taken rest s))
      rcases countOrRaise_cases s.bitTimeout .bitTimeout s.n (taken rest s) with ⟨h1, h2⟩ | ⟨h1, h2⟩
      · rw [h2]; exact .lowTimesOut rest ⟨hr, hc, hp, h⟩ h1
      · rw [h2]; exact .lowCounts rest ⟨hr, hc, hp, h⟩ h1
  | bitHigh =>
    rw [step_bitHigh hr hc hp h] at hs
    cases x with
    | true =>
      cases hs
      show Transition s (countOrRaise s.bitTimeout .bitTimeout s.n (taken rest s))
      rcases countOrRaise_cases s.bitTimeout .bitTimeout s.n (taken rest s) with ⟨h1, h2⟩ | ⟨h1, h2⟩
      · rw [h2]; exact .highTimesOut rest ⟨hr, hc, hp, h⟩ h1
      · rw [h2]; exact .highCounts rest ⟨hr, hc, hp, h⟩ h1
    | false =>
      by_cases hb : s.bitCnt = 7
      · rw [stepBitHigh_byte (by exact hb)] at hs
        exact transition_bitHigh ⟨hr, hc, hp, h⟩ hb hs
      · rw [stepBitHigh_cell (by exact hb)] at hs
        cases hs
        exact .cellDone rest ⟨hr, hc, hp, h⟩ hb
  | stopLow =>
    rw [step_stopLow hr hc hp h] at hs
    cases hs
    cases x with
    | false => exact .stopWaits rest ⟨hr, hc, hp, h⟩
    | true =>
      cases hg : s.seg with
      | cmd =>
        have : stepStopLow true s.n (taken rest s) = { emit ⟨s.stopStart, s.n,
            .stopBit s.stopBitWidth⟩ (taken rest s) with phase := .rspWait, tmr := 0 } := by
          simp [stepStopLow, segmentDone, hg]
        rw [this]; exact .commandStops rest ⟨hr, hc, hp, h⟩ hg
      | rsp =>
        have : stepStopLow true s.n (taken rest s) = { emit ⟨s.stopStart, s.n,
            .stopBit s.stopBitWidth⟩ (taken rest s) with state := .idle } := by
          simp [stepStopLow, segmentDone, hg]
        rw [this]; exact .responseStops rest ⟨hr, hc, hp, h⟩ hg
  | rspWait =>
    rw [step_rspWait hr hc hp h] at hs
    cases hs
    cases x with
    | true =>
      show Transition s (countOrRaise s.responseTimeout .responseTimeout s.n (taken rest s))
      rcases countOrRaise_cases s.responseTimeout .responseTimeout s.n (taken rest s) with
        ⟨h1, h2⟩ | ⟨h1, h2⟩
      · rw [h2]; exact .responseTimesOut rest ⟨hr, hc, hp, h⟩ h1
      · rw [h2]; exact .gapCounts rest ⟨hr, hc, hp, h⟩ h1
    | false =>
      by_cases hl : s.rspLen = 0
      · have : stepRspWait false s.n (taken rest s)
            = startStop s.n { taken rest s with seg := .rsp, byteIdx := 0 } := if_pos hl
        rw [this]; exact .emptyResponse rest ⟨hr, hc, hp, h⟩ hl
      · have : stepRspWait false s.n (taken rest s)
            = startByte s.n { taken rest s with seg := .rsp, byteIdx := 0 } := if_neg hl
        rw [this]; exact .responseBegins rest ⟨hr, hc, hp, h⟩ hl

/-- THE INVERSION LEMMA: a step that answers a next state took one of the rows of R192. -/
theorem transition_of_step (hs : step s = .next t) : Transition s t := by
  cases hin : s.input with
  | nil => rw [step_nil hin] at hs; cases hs; exact .noInput hin
  | cons e rest =>
    cases e with
    | reset => rw [step_reset hin] at hs; cases hs; exact .reset rest hin
    | configure f r =>
      rw [step_configure hin] at hs
      cases hs
      rcases configure_cases f r (beginStep rest s) with ⟨h1, h2⟩ | ⟨h1, h2, h3⟩ | ⟨p, h1, h2, h3⟩
      · rw [h2]; exact .configureIgnored rest f r hin h1
      · rw [h3]; exact .configureFails rest f r hin h1 h2
      · rw [h3]; exact .configureLoads rest f r p hin h1 h2
    | sample x =>
      cases hr : s.run with
      | unconfigured =>
        rw [step_unconfigured hr hin] at hs; cases hs; exact .notConfigured rest x hin hr
      | fatal => rw [step_fatal hr hin] at hs; cases hs; exact .ignored rest x hin hr
      | running =>
        cases hc : s.state with
        | command => exact transition_command hr hc hin hs
        | idle =>
          rw [step_idle hr hc hin] at hs
          cases hs
          cases x with
          | true => exact .idleHigh rest hin hr hc
          | false => exact .frameStarts rest hin hr hc
        | initial =>
          rw [step_initial hr hc hin] at hs
          cases hs
          rcases resync_cases x (taken rest s) with ⟨rfl, h1, h2⟩ | ⟨rfl, h1, h2⟩ | ⟨rfl, h2⟩
          · rw [h2]; exact .idleReached rest hin hr hc h1
          · rw [h2]; exact .highCounted rest hin hr hc h1
          · rw [h2]; exact .lowInInitial rest hin hr hc

end Sys2Proof.Machine
end

