-- ==== Sys2Proof/Laws/Frame.lean ====
section
/-! SUPPORT. What the operations with a branch leave in each register they do not choose by it, and what
every step leaves alone: the frame laws of one sample and of one step. -/

namespace Sys2Proof.Machine

/-! ### AfterByte and the completion of a byte -/

@[simp] theorem afterByte_run (k len : Length6) (i : Nat) (s : State) :
    (afterByte k len i s).run = s.run := by
  unfold afterByte; split <;> rfl
@[simp] theorem afterByte_state (k len : Length6) (i : Nat) (s : State) :
    (afterByte k len i s).state = s.state := by
  unfold afterByte; split <;> rfl
@[simp] theorem afterByte_fs (k len : Length6) (i : Nat) (s : State) :
    (afterByte k len i s).fs = s.fs := by
  unfold afterByte; split <;> rfl
@[simp] theorem afterByte_role (k len : Length6) (i : Nat) (s : State) :
    (afterByte k len i s).role = s.role := by
  unfold afterByte; split <;> rfl
@[simp] theorem afterByte_idleMin (k len : Length6) (i : Nat) (s : State) :
    (afterByte k len i s).idleMin = s.idleMin := by
  unfold afterByte; split <;> rfl
@[simp] theorem afterByte_bitMidpoint (k len : Length6) (i : Nat) (s : State) :
    (afterByte k len i s).bitMidpoint = s.bitMidpoint := by
  unfold afterByte; split <;> rfl
@[simp] theorem afterByte_stopBitWidth (k len : Length6) (i : Nat) (s : State) :
    (afterByte k len i s).stopBitWidth = s.stopBitWidth := by
  unfold afterByte; split <;> rfl
@[simp] theorem afterByte_bitTimeout (k len : Length6) (i : Nat) (s : State) :
    (afterByte k len i s).bitTimeout = s.bitTimeout := by
  unfold afterByte; split <;> rfl
@[simp] theorem afterByte_responseTimeout (k len : Length6) (i : Nat) (s : State) :
    (afterByte k len i s).responseTimeout = s.responseTimeout := by
  unfold afterByte; split <;> rfl
@[simp] theorem afterByte_n (k len : Length6) (i : Nat) (s : State) :
    (afterByte k len i s).n = s.n := by
  unfold afterByte; split <;> rfl
@[simp] theorem afterByte_hiCnt (k len : Length6) (i : Nat) (s : State) :
    (afterByte k len i s).hiCnt = s.hiCnt := by
  unfold afterByte; split <;> rfl
@[simp] theorem afterByte_seg (k len : Length6) (i : Nat) (s : State) :
    (afterByte k len i s).seg = s.seg := by
  unfold afterByte; split <;> rfl
@[simp] theorem afterByte_frameStart (k len : Length6) (i : Nat) (s : State) :
    (afterByte k len i s).frameStart = s.frameStart := by
  unfold afterByte; split <;> rfl
@[simp] theorem afterByte_lowDur (k len : Length6) (i : Nat) (s : State) :
    (afterByte k len i s).lowDur = s.lowDur := by
  unfold afterByte; split <;> rfl
@[simp] theorem afterByte_bitVal (k len : Length6) (i : Nat) (s : State) :
    (afterByte k len i s).bitVal = s.bitVal := by
  unfold afterByte; split <;> rfl
@[simp] theorem afterByte_opcode (k len : Length6) (i : Nat) (s : State) :
    (afterByte k len i s).opcode = s.opcode := by
  unfold afterByte; split <;> rfl
@[simp] theorem afterByte_cmdLen (k len : Length6) (i : Nat) (s : State) :
    (afterByte k len i s).cmdLen = s.cmdLen := by
  unfold afterByte; split <;> rfl
@[simp] theorem afterByte_rspLen (k len : Length6) (i : Nat) (s : State) :
    (afterByte k len i s).rspLen = s.rspLen := by
  unfold afterByte; split <;> rfl
@[simp] theorem afterByte_byteIdx (k len : Length6) (i : Nat) (s : State) :
    (afterByte k len i s).byteIdx = s.byteIdx := by
  unfold afterByte; split <;> rfl
@[simp] theorem afterByte_input (k len : Length6) (i : Nat) (s : State) :
    (afterByte k len i s).input = s.input := by
  unfold afterByte; split <;> rfl
@[simp] theorem afterByte_events (k len : Length6) (i : Nat) (s : State) :
    (afterByte k len i s).events = s.events := by
  unfold afterByte; split <;> rfl
@[simp] theorem afterByte_evCount (k len : Length6) (i : Nat) (s : State) :
    (afterByte k len i s).evCount = s.evCount := by
  unfold afterByte; split <;> rfl

@[simp] theorem recognise_run (op : Byte) (c r : Length6) (s : State) :
    (recognise op c r s).run = s.run := by
  simp [recognise]
@[simp] theorem recognise_state (op : Byte) (c r : Length6) (s : State) :
    (recognise op c r s).state = s.state := by
  simp [recognise]
@[simp] theorem recognise_fs (op : Byte) (c r : Length6) (s : State) :
    (recognise op c r s).fs = s.fs := by
  simp [recognise]
@[simp] theorem recognise_role (op : Byte) (c r : Length6) (s : State) :
    (recognise op c r s).role = s.role := by
  simp [recognise]
@[simp] theorem recognise_idleMin (op : Byte) (c r : Length6) (s : State) :
    (recognise op c r s).idleMin = s.idleMin := by
  simp [recognise]
@[simp] theorem recognise_bitMidpoint (op : Byte) (c r : Length6) (s : State) :
    (recognise op c r s).bitMidpoint = s.bitMidpoint := by
  simp [recognise]
@[simp] theorem recognise_stopBitWidth (op : Byte) (c r : Length6) (s : State) :
    (recognise op c r s).stopBitWidth = s.stopBitWidth := by
  simp [recognise]
@[simp] theorem recognise_bitTimeout (op : Byte) (c r : Length6) (s : State) :
    (recognise op c r s).bitTimeout = s.bitTimeout := by
  simp [recognise]
@[simp] theorem recognise_responseTimeout (op : Byte) (c r : Length6) (s : State) :
    (recognise op c r s).responseTimeout = s.responseTimeout := by
  simp [recognise]
@[simp] theorem recognise_n (op : Byte) (c r : Length6) (s : State) :
    (recognise op c r s).n = s.n := by
  simp [recognise]
@[simp] theorem recognise_hiCnt (op : Byte) (c r : Length6) (s : State) :
    (recognise op c r s).hiCnt = s.hiCnt := by
  simp [recognise]
@[simp] theorem recognise_seg (op : Byte) (c r : Length6) (s : State) :
    (recognise op c r s).seg = s.seg := by
  simp [recognise]
@[simp] theorem recognise_frameStart (op : Byte) (c r : Length6) (s : State) :
    (recognise op c r s).frameStart = s.frameStart := by
  simp [recognise]
@[simp] theorem recognise_lowDur (op : Byte) (c r : Length6) (s : State) :
    (recognise op c r s).lowDur = s.lowDur := by
  simp [recognise]
@[simp] theorem recognise_bitVal (op : Byte) (c r : Length6) (s : State) :
    (recognise op c r s).bitVal = s.bitVal := by
  simp [recognise]
@[simp] theorem recognise_opcode (op : Byte) (c r : Length6) (s : State) :
    (recognise op c r s).opcode = op := by
  simp [recognise]
@[simp] theorem recognise_cmdLen (op : Byte) (c r : Length6) (s : State) :
    (recognise op c r s).cmdLen = c := by
  simp [recognise]
@[simp] theorem recognise_rspLen (op : Byte) (c r : Length6) (s : State) :
    (recognise op c r s).rspLen = r := by
  simp [recognise]
@[simp] theorem recognise_byteIdx (op : Byte) (c r : Length6) (s : State) :
    (recognise op c r s).byteIdx = 1 := by
  simp [recognise]
@[simp] theorem recognise_input (op : Byte) (c r : Length6) (s : State) :
    (recognise op c r s).input = s.input := by
  simp [recognise]
@[simp] theorem recognise_events (op : Byte) (c r : Length6) (s : State) :
    (recognise op c r s).events = s.events ++ [⟨s.byteStart, s.cursor, .command op true⟩] := by
  simp [recognise]
@[simp] theorem recognise_evCount (op : Byte) (c r : Length6) (s : State) :
    (recognise op c r s).evCount = s.evCount + 1 := by
  simp [recognise]

@[simp] theorem commandDataDone_run (v : Byte) (i : Nat) (s : State) :
    (commandDataDone v i s).run = s.run := by
  simp [commandDataDone]
@[simp] theorem commandDataDone_state (v : Byte) (i : Nat) (s : State) :
    (commandDataDone v i s).state = s.state := by
  simp [commandDataDone]
@[simp] theorem commandDataDone_fs (v : Byte) (i : Nat) (s : State) :
    (commandDataDone v i s).fs = s.fs := by
  simp [commandDataDone]
@[simp] theorem commandDataDone_role (v : Byte) (i : Nat) (s : State) :
    (commandDataDone v i s).role = s.role := by
  simp [commandDataDone]
@[simp] theorem commandDataDone_idleMin (v : Byte) (i : Nat) (s : State) :
    (commandDataDone v i s).idleMin = s.idleMin := by
  simp [commandDataDone]
@[simp] theorem commandDataDone_bitMidpoint (v : Byte) (i : Nat) (s : State) :
    (commandDataDone v i s).bitMidpoint = s.bitMidpoint := by
  simp [commandDataDone]
@[simp] theorem commandDataDone_stopBitWidth (v : Byte) (i : Nat) (s : State) :
    (commandDataDone v i s).stopBitWidth = s.stopBitWidth := by
  simp [commandDataDone]
@[simp] theorem commandDataDone_bitTimeout (v : Byte) (i : Nat) (s : State) :
    (commandDataDone v i s).bitTimeout = s.bitTimeout := by
  simp [commandDataDone]
@[simp] theorem commandDataDone_responseTimeout (v : Byte) (i : Nat) (s : State) :
    (commandDataDone v i s).responseTimeout = s.responseTimeout := by
  simp [commandDataDone]
@[simp] theorem commandDataDone_n (v : Byte) (i : Nat) (s : State) :
    (commandDataDone v i s).n = s.n := by
  simp [commandDataDone]
@[simp] theorem commandDataDone_hiCnt (v : Byte) (i : Nat) (s : State) :
    (commandDataDone v i s).hiCnt = s.hiCnt := by
  simp [commandDataDone]
@[simp] theorem commandDataDone_seg (v : Byte) (i : Nat) (s : State) :
    (commandDataDone v i s).seg = s.seg := by
  simp [commandDataDone]
@[simp] theorem commandDataDone_frameStart (v : Byte) (i : Nat) (s : State) :
    (commandDataDone v i s).frameStart = s.frameStart := by
  simp [commandDataDone]
@[simp] theorem commandDataDone_lowDur (v : Byte) (i : Nat) (s : State) :
    (commandDataDone v i s).lowDur = s.lowDur := by
  simp [commandDataDone]
@[simp] theorem commandDataDone_bitVal (v : Byte) (i : Nat) (s : State) :
    (commandDataDone v i s).bitVal = s.bitVal := by
  simp [commandDataDone]
@[simp] theorem commandDataDone_opcode (v : Byte) (i : Nat) (s : State) :
    (commandDataDone v i s).opcode = s.opcode := by
  simp [commandDataDone]
@[simp] theorem commandDataDone_cmdLen (v : Byte) (i : Nat) (s : State) :
    (commandDataDone v i s).cmdLen = s.cmdLen := by
  simp [commandDataDone]
@[simp] theorem commandDataDone_rspLen (v : Byte) (i : Nat) (s : State) :
    (commandDataDone v i s).rspLen = s.rspLen := by
  simp [commandDataDone]
@[simp] theorem commandDataDone_byteIdx (v : Byte) (i : Nat) (s : State) :
    (commandDataDone v i s).byteIdx = s.byteIdx + 1 := by
  simp [commandDataDone]
@[simp] theorem commandDataDone_input (v : Byte) (i : Nat) (s : State) :
    (commandDataDone v i s).input = s.input := by
  simp [commandDataDone]
@[simp] theorem commandDataDone_events (v : Byte) (i : Nat) (s : State) :
    (commandDataDone v i s).events = s.events ++ [⟨s.byteStart, i, .commandData v⟩] := by
  simp [commandDataDone]
@[simp] theorem commandDataDone_evCount (v : Byte) (i : Nat) (s : State) :
    (commandDataDone v i s).evCount = s.evCount + 1 := by
  simp [commandDataDone]

@[simp] theorem responseDataDone_run (v : Byte) (i : Nat) (s : State) :
    (responseDataDone v i s).run = s.run := by
  simp [responseDataDone]
@[simp] theorem responseDataDone_state (v : Byte) (i : Nat) (s : State) :
    (responseDataDone v i s).state = s.state := by
  simp [responseDataDone]
@[simp] theorem responseDataDone_fs (v : Byte) (i : Nat) (s : State) :
    (responseDataDone v i s).fs = s.fs := by
  simp [responseDataDone]
@[simp] theorem responseDataDone_role (v : Byte) (i : Nat) (s : State) :
    (responseDataDone v i s).role = s.role := by
  simp [responseDataDone]
@[simp] theorem responseDataDone_idleMin (v : Byte) (i : Nat) (s : State) :
    (responseDataDone v i s).idleMin = s.idleMin := by
  simp [responseDataDone]
@[simp] theorem responseDataDone_bitMidpoint (v : Byte) (i : Nat) (s : State) :
    (responseDataDone v i s).bitMidpoint = s.bitMidpoint := by
  simp [responseDataDone]
@[simp] theorem responseDataDone_stopBitWidth (v : Byte) (i : Nat) (s : State) :
    (responseDataDone v i s).stopBitWidth = s.stopBitWidth := by
  simp [responseDataDone]
@[simp] theorem responseDataDone_bitTimeout (v : Byte) (i : Nat) (s : State) :
    (responseDataDone v i s).bitTimeout = s.bitTimeout := by
  simp [responseDataDone]
@[simp] theorem responseDataDone_responseTimeout (v : Byte) (i : Nat) (s : State) :
    (responseDataDone v i s).responseTimeout = s.responseTimeout := by
  simp [responseDataDone]
@[simp] theorem responseDataDone_n (v : Byte) (i : Nat) (s : State) :
    (responseDataDone v i s).n = s.n := by
  simp [responseDataDone]
@[simp] theorem responseDataDone_hiCnt (v : Byte) (i : Nat) (s : State) :
    (responseDataDone v i s).hiCnt = s.hiCnt := by
  simp [responseDataDone]
@[simp] theorem responseDataDone_seg (v : Byte) (i : Nat) (s : State) :
    (responseDataDone v i s).seg = s.seg := by
  simp [responseDataDone]
@[simp] theorem responseDataDone_frameStart (v : Byte) (i : Nat) (s : State) :
    (responseDataDone v i s).frameStart = s.frameStart := by
  simp [responseDataDone]
@[simp] theorem responseDataDone_lowDur (v : Byte) (i : Nat) (s : State) :
    (responseDataDone v i s).lowDur = s.lowDur := by
  simp [responseDataDone]
@[simp] theorem responseDataDone_bitVal (v : Byte) (i : Nat) (s : State) :
    (responseDataDone v i s).bitVal = s.bitVal := by
  simp [responseDataDone]
@[simp] theorem responseDataDone_opcode (v : Byte) (i : Nat) (s : State) :
    (responseDataDone v i s).opcode = s.opcode := by
  simp [responseDataDone]
@[simp] theorem responseDataDone_cmdLen (v : Byte) (i : Nat) (s : State) :
    (responseDataDone v i s).cmdLen = s.cmdLen := by
  simp [responseDataDone]
@[simp] theorem responseDataDone_rspLen (v : Byte) (i : Nat) (s : State) :
    (responseDataDone v i s).rspLen = s.rspLen := by
  simp [responseDataDone]
@[simp] theorem responseDataDone_byteIdx (v : Byte) (i : Nat) (s : State) :
    (responseDataDone v i s).byteIdx = s.byteIdx + 1 := by
  simp [responseDataDone]
@[simp] theorem responseDataDone_input (v : Byte) (i : Nat) (s : State) :
    (responseDataDone v i s).input = s.input := by
  simp [responseDataDone]
@[simp] theorem responseDataDone_events (v : Byte) (i : Nat) (s : State) :
    (responseDataDone v i s).events = s.events ++ [⟨s.byteStart, i, .responseData v⟩] := by
  simp [responseDataDone]
@[simp] theorem responseDataDone_evCount (v : Byte) (i : Nat) (s : State) :
    (responseDataDone v i s).evCount = s.evCount + 1 := by
  simp [responseDataDone]

@[simp] theorem unknownOpcode_run (v : Byte) (s : State) :
    (unknownOpcode v s).run = s.run := rfl
@[simp] theorem unknownOpcode_state (v : Byte) (s : State) :
    (unknownOpcode v s).state = .initial := rfl
@[simp] theorem unknownOpcode_fs (v : Byte) (s : State) :
    (unknownOpcode v s).fs = s.fs := rfl
@[simp] theorem unknownOpcode_role (v : Byte) (s : State) :
    (unknownOpcode v s).role = s.role := rfl
@[simp] theorem unknownOpcode_idleMin (v : Byte) (s : State) :
    (unknownOpcode v s).idleMin = s.idleMin := rfl
@[simp] theorem unknownOpcode_bitMidpoint (v : Byte) (s : State) :
    (unknownOpcode v s).bitMidpoint = s.bitMidpoint := rfl
@[simp] theorem unknownOpcode_stopBitWidth (v : Byte) (s : State) :
    (unknownOpcode v s).stopBitWidth = s.stopBitWidth := rfl
@[simp] theorem unknownOpcode_bitTimeout (v : Byte) (s : State) :
    (unknownOpcode v s).bitTimeout = s.bitTimeout := rfl
@[simp] theorem unknownOpcode_responseTimeout (v : Byte) (s : State) :
    (unknownOpcode v s).responseTimeout = s.responseTimeout := rfl
@[simp] theorem unknownOpcode_n (v : Byte) (s : State) :
    (unknownOpcode v s).n = s.n := rfl
@[simp] theorem unknownOpcode_hiCnt (v : Byte) (s : State) :
    (unknownOpcode v s).hiCnt = 0 := rfl
@[simp] theorem unknownOpcode_tmr (v : Byte) (s : State) :
    (unknownOpcode v s).tmr = s.tmr := rfl
@[simp] theorem unknownOpcode_seg (v : Byte) (s : State) :
    (unknownOpcode v s).seg = s.seg := rfl
@[simp] theorem unknownOpcode_phase (v : Byte) (s : State) :
    (unknownOpcode v s).phase = s.phase := rfl
@[simp] theorem unknownOpcode_frameStart (v : Byte) (s : State) :
    (unknownOpcode v s).frameStart = s.frameStart := rfl
@[simp] theorem unknownOpcode_byteStart (v : Byte) (s : State) :
    (unknownOpcode v s).byteStart = s.byteStart := rfl
@[simp] theorem unknownOpcode_bitStart (v : Byte) (s : State) :
    (unknownOpcode v s).bitStart = s.bitStart := rfl
@[simp] theorem unknownOpcode_stopStart (v : Byte) (s : State) :
    (unknownOpcode v s).stopStart = s.stopStart := rfl
@[simp] theorem unknownOpcode_lowDur (v : Byte) (s : State) :
    (unknownOpcode v s).lowDur = s.lowDur := rfl
@[simp] theorem unknownOpcode_bitVal (v : Byte) (s : State) :
    (unknownOpcode v s).bitVal = s.bitVal := rfl
@[simp] theorem unknownOpcode_shreg (v : Byte) (s : State) :
    (unknownOpcode v s).shreg = s.shreg := rfl
@[simp] theorem unknownOpcode_bitCnt (v : Byte) (s : State) :
    (unknownOpcode v s).bitCnt = s.bitCnt := rfl
@[simp] theorem unknownOpcode_opcode (v : Byte) (s : State) :
    (unknownOpcode v s).opcode = v := rfl
@[simp] theorem unknownOpcode_cmdLen (v : Byte) (s : State) :
    (unknownOpcode v s).cmdLen = s.cmdLen := rfl
@[simp] theorem unknownOpcode_rspLen (v : Byte) (s : State) :
    (unknownOpcode v s).rspLen = s.rspLen := rfl
@[simp] theorem unknownOpcode_byteIdx (v : Byte) (s : State) :
    (unknownOpcode v s).byteIdx = s.byteIdx := rfl
@[simp] theorem unknownOpcode_input (v : Byte) (s : State) :
    (unknownOpcode v s).input = s.input := rfl
@[simp] theorem unknownOpcode_events (v : Byte) (s : State) :
    (unknownOpcode v s).events = s.events ++ [⟨s.byteStart, s.cursor, .command v false⟩] ++
      [⟨s.frameStart, s.cursor, .error .unknownCommand⟩] := rfl
@[simp] theorem unknownOpcode_evCount (v : Byte) (s : State) :
    (unknownOpcode v s).evCount = s.evCount + 1 + 1 := rfl

/-! ### One step -/

theorem assembled_cursor (rest : List InputEvent) (s : State) : (assembled rest s).cursor = s.n :=
  Nat.add_sub_cancel s.n 1

/-- A step of a state with pending input takes the first input event, whatever it is. -/
theorem step_input {s t : State} (h : step s = .next t) : t.input = s.input.tail := by
  cases transition_of_step h <;> simp_all [Waiting]

/-- What a sample leaves alone: the configuration (42_frame_fsm.md R171, 40_timing_profile.md R126). -/
theorem step_sample_keeps {s t : State} {x : Bool} {rest : List InputEvent}
    (hin : s.input = .sample x :: rest) (h : step s = .next t) :
    t.input = rest ∧ t.n = s.n + 1 ∧ t.fs = s.fs ∧ t.role = s.role ∧ t.idleMin = s.idleMin ∧
      t.bitMidpoint = s.bitMidpoint ∧ t.stopBitWidth = s.stopBitWidth ∧
      t.bitTimeout = s.bitTimeout ∧ t.responseTimeout = s.responseTimeout := by
  cases transition_of_step h <;> simp_all [Waiting]

/-- A sample leaves RUNNING as it is (60_exceptions.md R245). -/
theorem step_sample_run {s t : State} {x : Bool} {rest : List InputEvent}
    (hin : s.input = .sample x :: rest) (hr : s.run = .running) (h : step s = .next t) :
    t.run = .running := by
  cases transition_of_step h <;> simp_all [Waiting]

/-- The cursor moves only with a sample, by one, and back to 0 only with Reset (10_state.md R29). -/
theorem step_n {s t : State} (h : step s = .next t) :
    t.n = match s.input with
      | [] => s.n
      | .reset :: _ => 0
      | .configure _ _ :: _ => s.n
      | .sample _ :: _ => s.n + 1 := by
  cases transition_of_step h <;> simp_all [Waiting]

end Sys2Proof.Machine
end

