-- ==== Sys2Proof/Laws/Cells.lean ====
section
/-! SUPPORT. Runs over bit cells: a low phase, a high phase, the cells of a byte, and a whole byte, from
the low sample that begins the first cell to the one that follows the last (41_bit_byte_stop.md). -/

namespace Sys2Proof.Machine

theorem runSteps_one (s : State) : runSteps 1 s = step s := by
  rw [runSteps]
  split <;> simp_all

theorem countOrRaise_below {bound : Nat} {e : FrameError} {i : Nat} {s : State}
    (h : s.tmr + 1 ≠ bound) : countOrRaise bound e i s = { s with tmr := s.tmr + 1 } := if_neg h

theorem countOrRaise_at {bound : Nat} {e : FrameError} {i : Nat} {s : State}
    (h : s.tmr + 1 = bound) : countOrRaise bound e i s = takeError (.frameLocal e) i s := if_pos h

/-- A wait that sees no edge counts on, `k` times below its bound. -/
theorem low_run {k : Nat} {s : State} {rest : List InputEvent} (hr : s.run = .running)
    (hc : s.state = .command) (hp : s.phase = .bitLow) (hk : s.tmr + k < s.bitTimeout)
    (hin : s.input = presenting (List.replicate k false) rest) :
    ∃ e, runSteps k s =
      .next { s with input := rest, n := s.n + k, tmr := s.tmr + k, evCount := e } := by
  induction k generalizing s with
  | zero => exact ⟨s.evCount, by rw [← show s.input = rest from hin]; rfl⟩
  | succ k ih =>
    have key : step s = .next { s with
        input := presenting (List.replicate k false) rest, n := s.n + 1, tmr := s.tmr + 1,
        evCount := 0 } := by
      rw [step_bitLow hr hc hp (x := false) (rest := presenting (List.replicate k false) rest) hin]
      exact congrArg Host.Outcome.next (countOrRaise_below (by
        simp only [consume_tmr, beginStep_tmr, consume_bitTimeout, beginStep_bitTimeout]
        omega))
    rw [runSteps_succ key]
    obtain ⟨e, he⟩ := ih (s := { s with
      input := presenting (List.replicate k false) rest, n := s.n + 1, tmr := s.tmr + 1,
      evCount := 0 }) hr hc hp (by simp only; omega) rfl
    exact ⟨e, by rw [he]; simp only [Nat.add_assoc, Nat.add_comm 1 k]⟩

/-- As `low_run`, in the high phase. -/
theorem high_run {k : Nat} {s : State} {rest : List InputEvent} (hr : s.run = .running)
    (hc : s.state = .command) (hp : s.phase = .bitHigh) (hk : s.tmr + k < s.bitTimeout)
    (hin : s.input = presenting (List.replicate k true) rest) :
    ∃ e, runSteps k s =
      .next { s with input := rest, n := s.n + k, tmr := s.tmr + k, evCount := e } := by
  induction k generalizing s with
  | zero => exact ⟨s.evCount, by rw [← show s.input = rest from hin]; rfl⟩
  | succ k ih =>
    have key : step s = .next { s with
        input := presenting (List.replicate k true) rest, n := s.n + 1, tmr := s.tmr + 1,
        evCount := 0 } := by
      rw [step_bitHigh hr hc hp (x := true) (rest := presenting (List.replicate k true) rest) hin]
      exact congrArg Host.Outcome.next (countOrRaise_below (by
        simp only [consume_tmr, beginStep_tmr, consume_bitTimeout, beginStep_bitTimeout]
        omega))
    rw [runSteps_succ key]
    obtain ⟨e, he⟩ := ih (s := { s with
      input := presenting (List.replicate k true) rest, n := s.n + 1, tmr := s.tmr + 1,
      evCount := 0 }) hr hc hp (by simp only; omega) rfl
    exact ⟨e, by rw [he]; simp only [Nat.add_assoc, Nat.add_comm 1 k]⟩

/-- As `low_run`, in the response gap. -/
theorem gap_run {k : Nat} {s : State} {rest : List InputEvent} (hr : s.run = .running)
    (hc : s.state = .command) (hp : s.phase = .rspWait) (hk : s.tmr + k < s.responseTimeout)
    (hin : s.input = presenting (List.replicate k true) rest) :
    ∃ e, runSteps k s =
      .next { s with input := rest, n := s.n + k, tmr := s.tmr + k, evCount := e } := by
  induction k generalizing s with
  | zero => exact ⟨s.evCount, by rw [← show s.input = rest from hin]; rfl⟩
  | succ k ih =>
    have key : step s = .next { s with
        input := presenting (List.replicate k true) rest, n := s.n + 1, tmr := s.tmr + 1,
        evCount := 0 } := by
      rw [step_rspWait hr hc hp (x := true) (rest := presenting (List.replicate k true) rest) hin]
      exact congrArg Host.Outcome.next (countOrRaise_below (by
        simp only [consume_tmr, beginStep_tmr, consume_responseTimeout, beginStep_responseTimeout]
        omega))
    rw [runSteps_succ key]
    obtain ⟨e, he⟩ := ih (s := { s with
      input := presenting (List.replicate k true) rest, n := s.n + 1, tmr := s.tmr + 1,
      evCount := 0 }) hr hc hp (by simp only; omega) rfl
    exact ⟨e, by rw [he]; simp only [Nat.add_assoc, Nat.add_comm 1 k]⟩

/-- A stop bit stays low for `k` more samples. -/
theorem stop_run {k : Nat} {s : State} {rest : List InputEvent} (hr : s.run = .running)
    (hc : s.state = .command) (hp : s.phase = .stopLow)
    (hin : s.input = presenting (List.replicate k false) rest) :
    ∃ e, runSteps k s = .next { s with input := rest, n := s.n + k, evCount := e } := by
  induction k generalizing s with
  | zero => exact ⟨s.evCount, by rw [← show s.input = rest from hin]; rfl⟩
  | succ k ih =>
    have key : step s = .next { s with
        input := presenting (List.replicate k false) rest, n := s.n + 1, evCount := 0 } :=
      step_stopLow hr hc hp (x := false) (rest := presenting (List.replicate k false) rest) hin
    rw [runSteps_succ key]
    obtain ⟨e, he⟩ := ih (s := { s with
      input := presenting (List.replicate k false) rest, n := s.n + 1, evCount := 0 }) hr hc hp rfl
    exact ⟨e, by rw [he]; simp only [Nat.add_assoc, Nat.add_comm 1 k]⟩

/-- A low phase that lasts `bit_timeout` samples past its falling edge (41_bit_byte_stop.md R143). -/
theorem low_timeout_run {k : Nat} {s : State} {rest : List InputEvent} (hr : s.run = .running)
    (hc : s.state = .command) (hp : s.phase = .bitLow) (hk : s.tmr + k + 1 = s.bitTimeout)
    (hin : s.input = presenting (List.replicate (k + 1) false) rest) :
    runSteps (k + 1) s = .next (takeError (.frameLocal .bitTimeout) (s.n + k) { s with
      input := rest, n := s.n + k + 1, tmr := s.tmr + k, evCount := 0 }) := by
  rw [List.replicate_succ', presenting_append] at hin
  obtain ⟨e, he⟩ := low_run hr hc hp (by omega) hin
  rw [runSteps_add he, runSteps_one]
  rw [step_bitLow (x := false) (rest := rest) (by exact hr) (by exact hc) (by exact hp) rfl]
  exact congrArg Host.Outcome.next (countOrRaise_at (by exact hk))

/-- A high phase that lasts `bit_timeout` samples past its rising edge (41_bit_byte_stop.md R145). -/
theorem high_timeout_run {k : Nat} {s : State} {rest : List InputEvent} (hr : s.run = .running)
    (hc : s.state = .command) (hp : s.phase = .bitHigh) (hk : s.tmr + k + 1 = s.bitTimeout)
    (hin : s.input = presenting (List.replicate (k + 1) true) rest) :
    runSteps (k + 1) s = .next (takeError (.frameLocal .bitTimeout) (s.n + k) { s with
      input := rest, n := s.n + k + 1, tmr := s.tmr + k, evCount := 0 }) := by
  rw [List.replicate_succ', presenting_append] at hin
  obtain ⟨e, he⟩ := high_run hr hc hp (by omega) hin
  rw [runSteps_add he, runSteps_one]
  rw [step_bitHigh (x := true) (rest := rest) (by exact hr) (by exact hc) (by exact hp) rfl]
  exact congrArg Host.Outcome.next (countOrRaise_at (by exact hk))

/-- The samples of a cell after its first low one. -/
def Cell.tailSamples (c : Cell) : List Bool :=
  List.replicate (c.low - 1) false ++ List.replicate c.high true

theorem accepted_iff (b : Nat) (c : Cell) :
    c.accepted b = true ↔ 1 ≤ c.low ∧ c.low ≤ b ∧ 1 ≤ c.high ∧ c.high ≤ b := by
  simp [Cell.accepted, and_assoc]

theorem cell_samples_eq {c : Cell} (h : 1 ≤ c.low) : c.samples = false :: c.tailSamples := by
  obtain ⟨l, h'⟩ := c
  cases l with
  | zero => simp at h
  | succ l => rfl

/-- From the falling edge that begins an accepted cell to its last high sample: the low phase is
measured and classified (41_bit_byte_stop.md R142). -/
theorem cell_run {c : Cell} {s : State} {rest : List InputEvent} (hr : s.run = .running)
    (hc : s.state = .command) (hp : s.phase = .bitLow) (ht : s.tmr = 0)
    (ha : c.accepted s.bitTimeout = true) (hin : s.input = presenting c.tailSamples rest) :
    ∃ e, runSteps (c.length - 1) s = .next { s with
      input := rest, n := s.n + (c.length - 1), lowDur := c.low,
      bitVal := classify c.low s.bitMidpoint, phase := .bitHigh, tmr := c.high - 1,
      evCount := e } := by
  obtain ⟨low, high⟩ := c
  obtain ⟨h1, h2, h3, h4⟩ := (accepted_iff _ _).mp ha
  simp only at h1 h2 h3 h4
  obtain ⟨l, rfl⟩ : ∃ l, low = l + 1 := ⟨low - 1, by omega⟩
  obtain ⟨k, rfl⟩ : ∃ k, high = k + 1 := ⟨high - 1, by omega⟩
  have hin' : s.input = presenting (List.replicate l false)
      (.sample true :: presenting (List.replicate k true) rest) := by
    rw [hin, Cell.tailSamples, presenting_append]; rfl
  obtain ⟨e, he⟩ := low_run hr hc hp (by omega) hin'
  have hlen : (Cell.mk (l + 1) (k + 1)).length - 1 = l + (1 + k) := by
    simp only [Cell.length]; omega
  rw [hlen, runSteps_add he, Nat.add_comm 1 k]
  rw [runSteps_succ (step_bitLow (s := { s with
    input := .sample true :: presenting (List.replicate k true) rest, n := s.n + l,
    tmr := s.tmr + l, evCount := e }) (x := true)
    (rest := presenting (List.replicate k true) rest) hr hc hp rfl)]
  obtain ⟨e', he'⟩ := high_run (k := k) (rest := rest) (s := { s with
    input := presenting (List.replicate k true) rest, n := s.n + l + 1, lowDur := l + 1,
    bitVal := classify (l + 1) s.bitMidpoint, phase := .bitHigh, tmr := 0, evCount := 0 })
    hr hc rfl (by simp only; omega) rfl
  refine ⟨e', ?_⟩
  simp only [stepBitLow, consume, beginStep, ht, Nat.zero_add, if_true] at he' ⊢
  rw [he']
  simp only [Nat.add_assoc, Nat.add_comm 1 k, Nat.add_sub_cancel]

/-- Accepted cells and a low sample begin with a low sample. -/
theorem cells_head {b : Nat} {cs : List Cell} (h : cs.all (Cell.accepted b) = true) :
    cs.flatMap Cell.samples ++ [false] = false :: (cs.flatMap Cell.samples ++ [false]).tail := by
  cases cs with
  | nil => rfl
  | cons c cs =>
    rw [List.all_cons, Bool.and_eq_true] at h
    rw [List.flatMap_cons, cell_samples_eq ((accepted_iff _ _).mp h.1).1]
    rfl

theorem cells_tail {b : Nat} {c : Cell} {cs : List Cell} (hc : c.accepted b = true)
    (h : cs.all (Cell.accepted b) = true) :
    ((c :: cs).flatMap Cell.samples ++ [false]).tail =
      c.tailSamples ++ false :: (cs.flatMap Cell.samples ++ [false]).tail := by
  rw [← cells_head h, List.flatMap_cons, cell_samples_eq ((accepted_iff _ _).mp hc).1]
  simp

@[simp] theorem cellsLength_nil : cellsLength [] = 0 := rfl

@[simp] theorem cellsLength_cons (c : Cell) (cs : List Cell) :
    cellsLength (c :: cs) = c.length + cellsLength cs := by
  simp [cellsLength]

theorem cellsLength_append (as bs : List Cell) :
    cellsLength (as ++ bs) = cellsLength as + cellsLength bs := by
  simp [cellsLength]

theorem accepted_length {b : Nat} {c : Cell} (h : c.accepted b = true) : 2 ≤ c.length := by
  have := (accepted_iff _ _).mp h
  simp only [Cell.length]
  omega

/-- The shift register after some cells (41_bit_byte_stop.md R150, R154). -/
def shiftCells (midpoint : Nat) (v : Byte) (cs : List Cell) : Byte :=
  cs.foldl (fun v c => shiftIn v (classify c.low midpoint)) v

theorem cellEvents_append (m : Nat) (pos : Nat) (as bs : List Cell) :
    cellEvents m pos (as ++ bs) =
      cellEvents m pos as ++ cellEvents m (pos + cellsLength as) bs := by
  induction as generalizing pos with
  | nil => rfl
  | cons c cs ih =>
    simp only [List.cons_append, cellEvents, ih, cellsLength_cons, Nat.add_assoc]

/-- Accepted cells within a byte: their Bit events, and their bits shifted in
(41_bit_byte_stop.md R144). -/
theorem cells_run {cs : List Cell} {s : State} {rest : List InputEvent} (hr : s.run = .running)
    (hc : s.state = .command) (hp : s.phase = .bitLow) (ht : s.tmr = 0)
    (hb : s.bitStart + 1 = s.n) (hlen : s.bitCnt.toNat + cs.length ≤ 7)
    (ha : cs.all (Cell.accepted s.bitTimeout) = true)
    (hin : s.input = presenting (cs.flatMap Cell.samples ++ [false]).tail rest) :
    ∃ d b e, runSteps (cellsLength cs) s = .next { s with
      input := rest, n := s.n + cellsLength cs,
      events := s.events ++ cellEvents s.bitMidpoint s.bitStart cs,
      shreg := shiftCells s.bitMidpoint s.shreg cs,
      bitCnt := s.bitCnt + BitVec.ofNat 3 cs.length, bitStart := s.bitStart + cellsLength cs,
      lowDur := d, bitVal := b, evCount := e } := by
  induction cs generalizing s with
  | nil =>
    refine ⟨s.lowDur, s.bitVal, s.evCount, ?_⟩
    rw [← show s.input = rest from hin]
    simp [cellEvents, shiftCells]
  | cons c cs ih =>
    rw [List.all_cons, Bool.and_eq_true] at ha
    rw [cells_tail ha.1 ha.2, presenting_append, presenting_cons] at hin
    obtain ⟨e, he⟩ := cell_run hr hc hp ht ha.1 hin
    have h2 := accepted_length ha.1
    have hl : cellsLength (c :: cs) = (c.length - 1) + (cellsLength cs + 1) := by
      rw [cellsLength_cons]; omega
    rw [List.length_cons] at hlen
    have h7 : s.bitCnt ≠ 7 := by
      intro h
      rw [h] at hlen
      simp at hlen
    rw [hl, runSteps_add he]
    rw [runSteps_succ ((step_bitHigh (s := { s with
      input := .sample false :: presenting (cs.flatMap Cell.samples ++ [false]).tail rest,
      n := s.n + (c.length - 1), lowDur := c.low, bitVal := classify c.low s.bitMidpoint,
      phase := .bitHigh, tmr := c.high - 1, evCount := e }) (x := false)
      (rest := presenting (cs.flatMap Cell.samples ++ [false]).tail rest) hr hc rfl rfl).trans
      (stepBitHigh_cell (by exact h7)))]
    have hcnt : (s.bitCnt + 1).toNat = s.bitCnt.toNat + 1 := by
      rw [BitVec.toNat_add]
      simp
      omega
    have hn : s.n + (c.length - 1) = s.bitStart + c.length := by omega
    obtain ⟨d', b', e', he'⟩ := ih (s := { s with
      input := presenting (cs.flatMap Cell.samples ++ [false]).tail rest,
      n := s.n + (c.length - 1) + 1, lowDur := c.low, bitVal := classify c.low s.bitMidpoint,
      phase := .bitLow, tmr := 0, evCount := 1, bitCnt := s.bitCnt + 1,
      bitStart := s.n + (c.length - 1), shreg := shiftIn s.shreg (classify c.low s.bitMidpoint),
      events := s.events ++ [⟨s.bitStart, s.n + (c.length - 1),
        .bit (classify c.low s.bitMidpoint)⟩] }) hr hc rfl rfl rfl
      (by simp only [hcnt]; omega) ha.2 rfl
    refine ⟨d', b', e', ?_⟩
    simp only [nextCell, completeCell, emit, consume, beginStep, Nat.zero_add] at he' ⊢
    rw [he']
    simp only [hn, cellEvents, shiftCells, List.foldl_cons, List.append_assoc,
      List.cons_append, List.nil_append, List.length_cons, hp, ht, BitVec.ofNat_add]
    congr 2
    · omega
    · omega
    · rw [BitVec.add_assoc, BitVec.add_comm 1]; rfl

/-- Eight accepted cells: seven and a last one. -/
theorem acceptedByte_split {b : Nat} {cs : List Cell} (h : acceptedByte b cs = true) :
    ∃ as c, cs = as ++ [c] ∧ as.length = 7 ∧ as.all (Cell.accepted b) = true ∧
      c.accepted b = true := by
  simp only [acceptedByte, Bool.and_eq_true, beq_iff_eq] at h
  have h8 := h.1
  obtain ⟨as, c, rfl⟩ := cs.eq_nil_or_concat'.resolve_left (by rintro rfl; simp at h8)
  refine ⟨as, c, rfl, by simpa using h8, ?_⟩
  simpa using h.2

/-- A whole byte, from its first falling edge to the one that completes its eighth cell: eight Bit
events, and ByteDone on the byte that the cells carry (41_bit_byte_stop.md R144, R154). -/
theorem byte_run {cs : List Cell} {s : State} {rest : List InputEvent} (hr : s.run = .running)
    (hc : s.state = .command) (hp : s.phase = .bitLow) (ht : s.tmr = 0)
    (hb : s.bitStart + 1 = s.n) (h0 : s.bitCnt = 0) (hv : s.shreg = 0)
    (ha : acceptedByte s.bitTimeout cs = true)
    (hin : s.input = presenting (cs.flatMap Cell.samples ++ [false]).tail rest) :
    ∃ d b m k, runSteps (cellsLength cs) s =
      byteDone (cellsByte s.bitMidpoint cs) (s.bitStart + cellsLength cs) { s with
        input := rest, n := s.n + cellsLength cs,
        events := s.events ++ cellEvents s.bitMidpoint s.bitStart cs,
        shreg := cellsByte s.bitMidpoint cs, bitCnt := 7, phase := .bitHigh, tmr := k,
        bitStart := m, lowDur := d, bitVal := b, evCount := 1 } := by
  obtain ⟨as, c, rfl, h7, haa, hac⟩ := acceptedByte_split ha
  have hall : (as ++ [c]).all (Cell.accepted s.bitTimeout) = true := by simp [haa, hac]
  have hsplit : ((as ++ [c]).flatMap Cell.samples ++ [false]).tail =
      (as.flatMap Cell.samples ++ [false]).tail ++ (c.tailSamples ++ [false]) := by
    have e1 : (as ++ [c]).flatMap Cell.samples ++ [false] =
        (as.flatMap Cell.samples ++ [false]) ++ (c.tailSamples ++ [false]) := by
      simp [cell_samples_eq ((accepted_iff _ _).mp hac).1]
    rw [e1, cells_head haa]
    rfl
  rw [hsplit, presenting_append, presenting_append] at hin
  obtain ⟨d, b, e, h1⟩ := cells_run hr hc hp ht hb (by rw [h0, h7]; decide) haa hin
  have h2 := accepted_length hac
  have hl : cellsLength (as ++ [c]) = cellsLength as + ((c.length - 1) + 1) := by
    rw [cellsLength_append, cellsLength_cons, cellsLength_nil]; omega
  obtain ⟨e', h3⟩ := cell_run (c := c) (rest := .sample false :: rest) (s := { s with
      input := presenting c.tailSamples (.sample false :: rest), n := s.n + cellsLength as,
      events := s.events ++ cellEvents s.bitMidpoint s.bitStart as,
      shreg := shiftCells s.bitMidpoint s.shreg as,
      bitCnt := s.bitCnt + BitVec.ofNat 3 as.length, bitStart := s.bitStart + cellsLength as,
      lowDur := d, bitVal := b, evCount := e }) hr hc hp ht hac rfl
  rw [hl, runSteps_add h1, presenting_cons, presenting_nil, runSteps_add h3, runSteps_one]
  refine ⟨c.low, classify c.low s.bitMidpoint, s.bitStart + cellsLength as, c.high - 1, ?_⟩
  rw [step_bitHigh (x := false) (rest := rest) (by exact hr) (by exact hc) rfl rfl]
  rw [stepBitHigh_byte (by simp [h0, h7])]
  have hn : s.n + cellsLength as + (c.length - 1) = s.bitStart + (cellsLength as + c.length) := by
    omega
  have hev : cellEvents s.bitMidpoint s.bitStart (as ++ [c]) =
      cellEvents s.bitMidpoint s.bitStart as ++ [⟨s.bitStart + cellsLength as,
        s.bitStart + (cellsLength as + c.length), .bit (classify c.low s.bitMidpoint)⟩] := by
    rw [cellEvents_append]
    simp only [cellEvents, Nat.add_assoc]
  have hby : cellsByte s.bitMidpoint (as ++ [c]) =
      shiftIn (shiftCells s.bitMidpoint s.shreg as) (classify c.low s.bitMidpoint) := by
    rw [hv, cellsByte, List.foldl_append]
    rfl
  have hc1 : c.length - 1 + 1 = c.length := by omega
  simp only [completeCell, emit, consume, beginStep, hn, hev, hby, hc1, List.append_assoc,
    Nat.zero_add]
  congr 2
  · omega
  · rw [h0, h7]; rfl

end Sys2Proof.Machine
end

