-- ==== Sys2Proof/Laws/Input.lean ====
section
/-! SUPPORT. The pending input is only a queue: no reaction reads or writes it. -/

namespace Sys2Proof.Machine

/-- An outcome with another list of pending input. -/
def withInput (i : List InputEvent) :
    Host.Outcome State Fault Refusal → Host.Outcome State Fault Refusal
  | .next t => .next { t with input := i }
  | .fault r => .fault r
  | .refused r => .refused r

/-- The reaction to an input event neither reads nor writes what is still pending. -/
theorem react_withInput (e : InputEvent) (s : State) (i : List InputEvent) :
    react e { s with input := i } = withInput i (react e s) := by
  obtain ⟨run, st, fs, role, im, bm, sw, bt, rt, n, hi, tmr,
    seg, ph, fst, bst, bis, sst, ld, bv, sh, bc, op, cl, rl, bi, inp, evs, ec⟩ := s
  cases e with
  | reset => rfl
  | configure f r =>
    simp only [react, configure]; split
    · rfl
    · split <;> rfl
  | sample x =>
    cases run with
    | unconfigured => rfl
    | fatal => rfl
    | running =>
      cases st with
      | initial =>
        cases x
        · rfl
        · by_cases h : hi + 1 = im <;>
            simp only [react, sampleStep, stepRunning, resync, consume, h, if_true, if_false] <;>
            rfl
      | idle => cases x <;> rfl
      | command =>
        cases ph with
        | bitLow =>
          cases x
          · by_cases h : tmr + 1 = bt <;>
              simp only [react, sampleStep, stepRunning, stepCommand, stepBitLow, countOrRaise,
                consume, Bool.false_eq_true, h, if_true, if_false] <;>
              rfl
          · rfl
        | bitHigh =>
          cases x
          · simp only [react, sampleStep, stepRunning, stepCommand]
            by_cases h7 : bc = 7
            · rw [stepBitHigh_byte (by exact h7), stepBitHigh_byte (by exact h7)]
              cases seg with
              | rsp =>
                rw [byteDone_responseData (by rfl), byteDone_responseData (by rfl)]
                by_cases h : bi + 1 = rl
                · simp only [responseDataDone, afterByte, withInput]
                  rw [if_pos (by exact h), if_pos (by exact h)]; rfl
                · simp only [responseDataDone, afterByte, withInput]
                  rw [if_neg (by exact h), if_neg (by exact h)]; rfl
              | cmd =>
                by_cases h0 : bi = 0
                · rw [byteDone_opcode (by rfl) (by exact h0), byteDone_opcode (by rfl) (by exact h0)]
                  simp only [consume]
                  cases hd : decodeOpcode (shiftIn sh bv) with
                  | none => rw [opcodeDone_unknown hd, opcodeDone_unknown hd]; rfl
                  | some c =>
                    rw [opcodeDone_known hd, opcodeDone_known hd, exec_eq_recognise, exec_eq_recognise]
                    cases c <;> rfl
                · rw [byteDone_commandData (by rfl) (by exact h0), byteDone_commandData (by rfl) (by exact h0)]
                  by_cases h : bi + 1 = cl
                  · simp only [commandDataDone, afterByte, withInput]
                    rw [if_pos (by exact h), if_pos (by exact h)]; rfl
                  · simp only [commandDataDone, afterByte, withInput]
                    rw [if_neg (by exact h), if_neg (by exact h)]; rfl
            · rw [stepBitHigh_cell (by exact h7), stepBitHigh_cell (by exact h7)]; rfl
          · by_cases h : tmr + 1 = bt <;>
              simp only [react, sampleStep, stepRunning, stepCommand, stepBitHigh, countOrRaise,
                consume, h, if_true, if_false] <;>
              rfl
        | stopLow =>
          cases x
          · rfl
          · cases seg <;> rfl
        | rspWait =>
          cases x
          · by_cases h : rl = 0 <;>
              simp only [react, sampleStep, stepRunning, stepCommand, stepRspWait, consume,
                Bool.false_eq_true, h, if_true, if_false] <;>
              rfl
          · by_cases h : tmr + 1 = rt <;>
              simp only [react, sampleStep, stepRunning, stepCommand, stepRspWait, countOrRaise,
                consume, h, if_true, if_false] <;>
              rfl

/-- The reaction to an input event leaves what is still pending. -/
theorem react_input {e : InputEvent} {s t : State} (h : react e s = .next t) : t.input = s.input := by
  have h3 := react_withInput e s s.input
  have h4 : ({ s with input := s.input } : State) = s := rfl
  rw [h4, h] at h3
  simp only [withInput, Host.Outcome.next.injEq] at h3
  rw [h3]

end Sys2Proof.Machine
end

