-- ==== Sys2Proof/Laws/PerInstr.lean ====
section
/-! SUPPORT. The per-instruction family `Codec`: every command is well formed, and decoding its encoded
word answers the command and no rest, also when bytes follow. -/

namespace Sys2Proof.Laws.Codec

/-- Decoding the encoding of `i` gives `i` back, and its opcode finds its own row of the table. -/
def Statement (i : Instr) : Prop :=
  i.wellFormed = true ∧ (∀ rest : List Byte, decode (encode i ++ rest) = .ok (i, rest)) ∧
    lookup (encodeOpcode i) = some i.spec

theorem info : Statement .info := ⟨by decide, fun _ => rfl, by decide⟩
theorem controllerState : Statement .controllerState := ⟨by decide, fun _ => rfl, by decide⟩
theorem readAccessory : Statement .readAccessory := ⟨by decide, fun _ => rfl, by decide⟩
theorem writeAccessory : Statement .writeAccessory := ⟨by decide, fun _ => rfl, by decide⟩
theorem readEeprom : Statement .readEeprom := ⟨by decide, fun _ => rfl, by decide⟩
theorem writeEeprom : Statement .writeEeprom := ⟨by decide, fun _ => rfl, by decide⟩
theorem readGba : Statement .readGba := ⟨by decide, fun _ => rfl, by decide⟩
theorem writeGba : Statement .writeGba := ⟨by decide, fun _ => rfl, by decide⟩
theorem shortPoll : Statement .shortPoll := ⟨by decide, fun _ => rfl, by decide⟩
theorem readOrigin : Statement .readOrigin := ⟨by decide, fun _ => rfl, by decide⟩
theorem calibrate : Statement .calibrate := ⟨by decide, fun _ => rfl, by decide⟩
theorem longPoll : Statement .longPoll := ⟨by decide, fun _ => rfl, by decide⟩
theorem fixDevice : Statement .fixDevice := ⟨by decide, fun _ => rfl, by decide⟩
theorem keyboardPoll : Statement .keyboardPoll := ⟨by decide, fun _ => rfl, by decide⟩
theorem reset : Statement .reset := ⟨by decide, fun _ => rfl, by decide⟩

end Sys2Proof.Laws.Codec
end

