-- ==== Sys2Proof/Laws/Profile.lean ====
section
/-! SUPPORT. What the function Profile answers, said once. -/

namespace Sys2Proof.Machine

/-- `profileWith` answers the formula's fields, or nothing. -/
theorem profileWith_cases (mid : Micros) (fs : Nat) (r : Role) :
    (fs ≠ 0 ∧ (rawProfile mid fs r).wellFormed = true ∧
      profileWith mid fs r = some (rawProfile mid fs r)) ∨
    ((fs = 0 ∨ (rawProfile mid fs r).wellFormed = false) ∧ profileWith mid fs r = none) := by
  unfold profileWith
  split
  · next h => exact .inl ⟨h.1, h.2, rfl⟩
  · next h =>
    refine .inr ⟨?_, rfl⟩
    by_cases h0 : fs = 0
    · exact .inl h0
    · exact .inr (by simpa using fun hw => h ⟨h0, hw⟩)

theorem wellFormed_iff (p : TimingProfile) : p.wellFormed = true ↔
    0 < p.idleMin ∧ 0 < p.bitMidpoint ∧ 0 < p.bitTimeout ∧ 0 < p.responseTimeout ∧
      0 < p.stopBitWidth := by
  simp [TimingProfile.wellFormed, and_assoc]

/-- "Invariant: all fields strictly positive" (10_state.md R28), for every profile that a role has. -/
theorem profileWith_pos {mid : Micros} {fs : Nat} {r : Role} {p : TimingProfile}
    (h : profileWith mid fs r = some p) :
    0 < p.idleMin ∧ 0 < p.bitMidpoint ∧ 0 < p.bitTimeout ∧ 0 < p.responseTimeout ∧
      0 < p.stopBitWidth := by
  rcases profileWith_cases mid fs r with ⟨-, hw, he⟩ | ⟨-, he⟩
  · rw [he] at h
    cases h
    exact (wellFormed_iff _).mp hw
  · rw [he] at h
    cases h

end Sys2Proof.Machine
end

