-- ==== Sys2Proof/Laws/Segments.lean ====
section
/-! SUPPORT. Runs over the data bytes of a segment, and over its stop bit (42_frame_fsm.md R181 to R187). -/

namespace Sys2Proof.Machine

/-- The payload of a data byte of a segment. -/
def dataPayload : Segment → Byte → Payload
  | .cmd => .commandData
  | .rsp => .responseData

/-- A data byte of either segment completes (42_frame_fsm.md R181, R185). -/
theorem byteDone_data {v : Byte} {i : Nat} {s : State} (h : s.seg = .cmd → s.byteIdx ≠ 0) :
    byteDone v i s = .next (afterByte (s.byteIdx + 1) (segmentLen s) i
      { emit ⟨s.byteStart, i, dataPayload s.seg v⟩ s with byteIdx := s.byteIdx + 1 }) := by
  cases hs : s.seg with
  | cmd => rw [byteDone_commandData hs (h hs), commandDataDone, segmentLen, hs]; rfl
  | rsp => rw [byteDone_responseData hs, responseDataDone, segmentLen, hs]; rfl

theorem bytesSamples_cons (b : List Cell) (bs : List (List Cell)) :
    bytesSamples (b :: bs) = b.flatMap Cell.samples ++ bytesSamples bs := by
  simp [bytesSamples]

theorem acceptedByte_all {t : Nat} {cs : List Cell} (h : acceptedByte t cs = true) :
    cs.all (Cell.accepted t) = true := by
  simp only [acceptedByte, Bool.and_eq_true] at h
  exact h.2

theorem bytes_all {t : Nat} {bs : List (List Cell)} (h : bs.all (acceptedByte t) = true) :
    bs.flatten.all (Cell.accepted t) = true := by
  induction bs with
  | nil => rfl
  | cons b bs ih =>
    rw [List.all_cons, Bool.and_eq_true] at h
    rw [List.flatten_cons, List.all_append, acceptedByte_all h.1, ih h.2]
    rfl

/-- Accepted bytes and a low sample begin with a low sample. -/
theorem bytes_head {t : Nat} {bs : List (List Cell)} (h : bs.all (acceptedByte t) = true) :
    bytesSamples bs ++ [false] = false :: (bytesSamples bs ++ [false]).tail :=
  cells_head (bytes_all h)

theorem bytes_tail {t : Nat} {b : List Cell} {bs : List (List Cell)}
    (hb : acceptedByte t b = true) (h : bs.all (acceptedByte t) = true) :
    (bytesSamples (b :: bs) ++ [false]).tail =
      (b.flatMap Cell.samples ++ [false]).tail ++ (bytesSamples bs ++ [false]).tail := by
  have e : bytesSamples (b :: bs) ++ [false] =
      (b.flatMap Cell.samples ++ [false]) ++ (bytesSamples bs ++ [false]).tail := by
    rw [bytesSamples_cons, List.append_assoc, bytes_head h]
    simp
  rw [e, cells_head (acceptedByte_all hb)]
  rfl

/-- The data bytes of a segment, from the first one's falling edge to the falling edge of the stop bit:
every byte's Bit events and its own event. -/
theorem data_run {bs : List (List Cell)} {s : State} {rest : List InputEvent}
    (hr : s.run = .running) (hc : s.state = .command) (hp : s.phase = .bitLow) (ht : s.tmr = 0)
    (hb : s.bitStart + 1 = s.n) (h0 : s.bitCnt = 0) (hv : s.shreg = 0)
    (hbs : s.byteStart = s.bitStart) (hseg : s.seg = .cmd → s.byteIdx ≠ 0) (hne : bs ≠ [])
    (hlen : s.byteIdx.toNat + bs.length = (segmentLen s).toNat)
    (ha : bs.all (acceptedByte s.bitTimeout) = true)
    (hin : s.input = presenting (bytesSamples bs ++ [false]).tail rest) :
    ∃ a b c v k d x e, runSteps (cellsLength bs.flatten) s = .next { s with
      input := rest, n := s.n + cellsLength bs.flatten,
      events := s.events ++ byteEvents s.bitMidpoint (dataPayload s.seg) s.bitStart bs,
      byteIdx := segmentLen s, phase := .stopLow,
      stopStart := s.bitStart + cellsLength bs.flatten,
      byteStart := a, bitStart := b, bitCnt := c, shreg := v, tmr := k, lowDur := d, bitVal := x,
      evCount := e } := by
  induction bs generalizing s with
  | nil => exact absurd rfl hne
  | cons b bs ih =>
    rw [List.all_cons, Bool.and_eq_true] at ha
    rw [bytes_tail ha.1 ha.2, presenting_append] at hin
    obtain ⟨d, x, m, k, h1⟩ := byte_run hr hc hp ht hb h0 hv ha.1 hin
    rw [byteDone_data (by exact hseg)] at h1
    rw [List.length_cons] at hlen
    have hlt := (segmentLen s).isLt
    have hk : (s.byteIdx + 1).toNat = s.byteIdx.toNat + 1 := by
      rw [BitVec.toNat_add]
      simp
      omega
    rw [List.flatten_cons, cellsLength_append, runSteps_add h1]
    cases bs with
    | nil =>
      have hend : s.byteIdx + 1 = segmentLen s := by
        apply BitVec.eq_of_toNat_eq
        rw [hk, ← hlen]
        rfl
      rw [afterByte, if_pos (by exact hend)]
      simp only [List.flatten_nil, cellsLength_nil, runSteps_zero, startStop, emit, byteEvents,
        hend, hbs, Nat.add_zero, List.append_assoc]
      exact ⟨_, _, _, _, _, _, _, _, rfl⟩
    | cons b' bs =>
      have hend : s.byteIdx + 1 ≠ segmentLen s := by
        intro h
        rw [← h, hk, List.length_cons] at hlen
        omega
      rw [afterByte, if_neg (by exact hend)]
      obtain ⟨a2, b2, c2, v2, k2, d2, x2, e2, h2⟩ := ih (s := startByte (s.bitStart + cellsLength b)
        { emit ⟨s.byteStart, s.bitStart + cellsLength b,
            dataPayload s.seg (cellsByte s.bitMidpoint b)⟩ { s with
            input := presenting (bytesSamples (b' :: bs) ++ [false]).tail rest,
            n := s.n + cellsLength b,
            events := s.events ++ cellEvents s.bitMidpoint s.bitStart b,
            shreg := cellsByte s.bitMidpoint b, bitCnt := 7, phase := .bitHigh, tmr := k,
            bitStart := m, lowDur := d, bitVal := x, evCount := 1 } with
          byteIdx := s.byteIdx + 1 }) hr hc rfl rfl (by simp; omega) rfl rfl rfl
        (fun _ h => by
          have := congrArg BitVec.toNat h
          simp only [startByte_byteIdx] at this
          rw [hk] at this
          simp at this)
        (by simp) (by
          simp only [startByte_byteIdx]
          rw [hk]
          simp only [List.length_cons] at hlen ⊢
          show _ = (segmentLen s).toNat
          omega) ha.2 rfl
      refine ⟨a2, b2, c2, v2, k2, d2, x2, e2, ?_⟩
      refine h2.trans ?_
      simp only [startByte, emit, byteEvents, hbs, List.append_assoc, List.cons_append,
        List.nil_append, Nat.add_assoc]
      rfl

/-- A stop bit of `w` low samples, the first one consumed, and the rising edge after it
(41_bit_byte_stop.md R158): the command's leads to RSP_WAIT, the response's to IDLE. -/
theorem stop_end_run {w : Nat} {s : State} {rest : List InputEvent} (hr : s.run = .running)
    (hc : s.state = .command) (hp : s.phase = .stopLow) (hw : 1 ≤ w)
    (hs : s.stopStart + 1 = s.n)
    (hin : s.input = presenting (List.replicate (w - 1) false ++ [true]) rest) :
    runSteps w s = .next (segmentDone { s with
      input := rest, n := s.n + w, evCount := 1,
      events := s.events ++ [⟨s.stopStart, s.stopStart + w, .stopBit s.stopBitWidth⟩] }) := by
  obtain ⟨k, rfl⟩ : ∃ k, w = k + 1 := ⟨w - 1, by omega⟩
  rw [Nat.add_sub_cancel, presenting_append] at hin
  obtain ⟨e, he⟩ := stop_run hr hc hp hin
  rw [runSteps_add he, runSteps_one]
  have hn : s.n + k = s.stopStart + (k + 1) := by omega
  rw [step_stopLow (x := true) (rest := rest) (by exact hr) (by exact hc) (by exact hp) rfl]
  simp only [stepStopLow, if_true, consume, beginStep, emit, hn, Nat.add_assoc, Nat.zero_add]
  congr 3
  omega

/-- A response gap of `g` high samples, the first one consumed, and the falling edge that begins the
response's first byte (42_frame_fsm.md R183, R184). -/
theorem response_begins_run {g : Nat} {s : State} {rest : List InputEvent} (hr : s.run = .running)
    (hc : s.state = .command) (hp : s.phase = .rspWait) (ht : s.tmr = 0) (hg : 1 ≤ g)
    (hle : g ≤ s.responseTimeout) (hl : s.rspLen ≠ 0)
    (hin : s.input = presenting (List.replicate (g - 1) true ++ [false]) rest) :
    runSteps g s = .next (startByte (s.n + g - 1) { s with
      input := rest, n := s.n + g, evCount := 0, seg := .rsp, byteIdx := 0 }) := by
  obtain ⟨k, rfl⟩ : ∃ k, g = k + 1 := ⟨g - 1, by omega⟩
  rw [Nat.add_sub_cancel, presenting_append] at hin
  obtain ⟨e, he⟩ := gap_run hr hc hp (by omega) hin
  rw [runSteps_add he, runSteps_one]
  rw [step_rspWait (x := false) (rest := rest) (by exact hr) (by exact hc) (by exact hp) rfl]
  rw [stepRspWait, if_neg (by decide), if_neg (by exact hl)]
  rfl

end Sys2Proof.Machine
end

