-- ==== Sys2Proof/Tests/Slice0.lean ====
section
/-! SUPPORT. The model's own tests. Expected values come from the tables and worked examples of spec/, which
each comment names; the last section holds one witness for every obligation that has hypotheses. -/

namespace Sys2Proof.Tests

open Sys2Proof.Machine

/-! ### Well-formedness: each check refuses an ill-formed term (43_commands.md R211, 30_encoding.md R96) -/

theorem test_spec_good : (CommandSpec.mk 0x00 "Info" 1 3).wellFormed = true := by decide
theorem test_spec_no_command : (CommandSpec.mk 0x00 "Info" 0 3).wellFormed = false := by decide
theorem test_spec_long_command : (CommandSpec.mk 0x00 "Info" 64 3).wellFormed = false := by decide
theorem test_spec_no_response : (CommandSpec.mk 0x00 "Info" 1 0).wellFormed = false := by decide
theorem test_spec_long_response : (CommandSpec.mk 0x00 "Info" 1 64).wellFormed = false := by decide
theorem test_frame_good : (Frame.mk .readEeprom [0x2A] [1, 2, 3, 4, 5, 6, 7, 8]).wellFormed = true := by
  decide
theorem test_frame_no_command_data :
    (Frame.mk .readEeprom [] [1, 2, 3, 4, 5, 6, 7, 8]).wellFormed = false := by decide
theorem test_frame_more_command_data : (Frame.mk .info [0] [1, 2, 3]).wellFormed = false := by decide
theorem test_frame_less_response : (Frame.mk .info [] [1, 2]).wellFormed = false := by decide
theorem test_micros_good : (Micros.mk 5 2).wellFormed = true := by decide
theorem test_micros_zero : (Micros.mk 0 2).wellFormed = false := by decide
theorem test_micros_no_denominator : (Micros.mk 5 0).wellFormed = false := by decide
theorem test_profile_good : (TimingProfile.mk 1 1 1 1 1).wellFormed = true := by decide
theorem test_profile_no_idle : (TimingProfile.mk 0 1 1 1 1).wellFormed = false := by decide
theorem test_profile_no_midpoint : (TimingProfile.mk 1 0 1 1 1).wellFormed = false := by decide
theorem test_profile_no_bit_timeout : (TimingProfile.mk 1 1 0 1 1).wellFormed = false := by decide
theorem test_profile_no_response_timeout : (TimingProfile.mk 1 1 1 0 1).wellFormed = false := by decide
theorem test_profile_no_stop_width : (TimingProfile.mk 1 1 1 1 0).wellFormed = false := by decide

/-! ### Decoding: every command's word, written cell by cell from 30_encoding.md R98 -/

theorem test_decode_info : decode [0b00000000] = .ok (.info, []) := by decide
theorem test_decode_controllerState : decode [0b00000001] = .ok (.controllerState, []) := by decide
theorem test_decode_readAccessory : decode [0b00000010] = .ok (.readAccessory, []) := by decide
theorem test_decode_writeAccessory : decode [0b00000011] = .ok (.writeAccessory, []) := by decide
theorem test_decode_readEeprom : decode [0b00000100] = .ok (.readEeprom, []) := by decide
theorem test_decode_writeEeprom : decode [0b00000101] = .ok (.writeEeprom, []) := by decide
theorem test_decode_readGba : decode [0b00010100] = .ok (.readGba, []) := by decide
theorem test_decode_writeGba : decode [0b00010101] = .ok (.writeGba, []) := by decide
theorem test_decode_shortPoll : decode [0b01000000] = .ok (.shortPoll, []) := by decide
theorem test_decode_readOrigin : decode [0b01000001] = .ok (.readOrigin, []) := by decide
theorem test_decode_calibrate : decode [0b01000010] = .ok (.calibrate, []) := by decide
theorem test_decode_longPoll : decode [0b01000011] = .ok (.longPoll, []) := by decide
theorem test_decode_fixDevice : decode [0b01001110] = .ok (.fixDevice, []) := by decide
theorem test_decode_keyboardPoll : decode [0b01010100] = .ok (.keyboardPoll, []) := by decide
theorem test_decode_reset : decode [0b11111111] = .ok (.reset, []) := by decide

/-- The five ranges of unknown opcodes begin and end here (30_encoding.md R99). -/
theorem test_decode_unknown :
    ([0x06, 0x13, 0x16, 0x3F, 0x44, 0x4D, 0x4F, 0x53, 0x55, 0xFE] : List Byte).all
      (fun b => (decodeOpcode b).isNone) = true := by decide
theorem test_decode_unknown_named : decode [0b00000111] = .error (.unknownOpcode 7) := by decide
theorem test_decode_nothing : decode [] = .error .noOpcode := by decide
/-- Calibrate has two command-data and ten response bytes; here one byte is missing (R100). -/
theorem test_decode_short_frame : decodeFrame [0x42, 0, 0, 1, 2, 3, 4, 5, 6, 7, 8, 9] =
    .error (.tooShort .calibrate) := by decide
theorem test_decode_frame : decodeFrame [0x04, 0x2A, 1, 2, 3, 4, 5, 6, 7, 8, 9] =
    .ok (Frame.mk .readEeprom [0x2A] [1, 2, 3, 4, 5, 6, 7, 8], [9]) := by decide
theorem test_table_word : decodeTableWord 8 0x54 = some .keyboardPoll := by decide
theorem test_table_word_unknown : decodeTableWord 8 0x55 = none := by decide
/-- `0x07` has no row, so its name is its two digits (30_encoding.md R106). -/
theorem test_hex_name : hexName 0x07 = ['0', 'x', '0', '7'] := by decide
theorem test_hex_name_upper : hexName 0xAF = ['0', 'x', 'A', 'F'] := by decide
theorem test_name_reset : resolvedName 0xFF = "Reset" := by decide
/-- A ROM entry is `valid(1) ++ command_len(6) ++ response_len(6)` (20_memory.md R66). -/
theorem test_rom_entry : romEntry 0x05 = 0b1_001010_000001#13 := by decide
/-- Of an empty address the spec fixes the bit `valid` only (log 21). -/
theorem test_rom_entry_empty : (romEntry 0x06).getLsbD 12 = false := by decide

/-! ### Timing profiles (40_timing_profile.md R121, R123, R124: the worked examples) -/

theorem test_samples : samples 24000000 ⟨5, 2⟩ = 60 := by decide
theorem test_profile_1mhz : profile 1000000 .console = some ⟨100, 2, 10, 50, 5⟩ := by decide
theorem test_profile_400khz : profile 400000 .console = some ⟨40, 1, 4, 20, 2⟩ := by decide
theorem test_profile_below : profile 399999 .console = none := by decide
theorem test_profile_zero : profile 0 .console = none := by decide
/-- The CONTROLLER condition at the suggested midpoint of 2 µs: exactly below 500 kHz (R123). -/
theorem test_profile_controller :
    profileWith ⟨2, 1⟩ 499999 .controller = none ∧
      (profileWith ⟨2, 1⟩ 500000 .controller).isSome = true := by decide

/-- At 9.9 µs and 1.05 MHz the CONTROLLER midpoint equals the bit timeout: R129 (c) as written fails
(log 8). -/
theorem test_profile_midpoint_meets_timeout :
    profileWith ⟨99, 10⟩ 1050000 .controller = some ⟨105, 10, 10, 52, 4⟩ := by decide

/-! ### One step -/

/-- RUNNING at 400 kHz, CONSOLE, with its profile of R123, in IDLE at sample `n`. -/
def at400 (n : Nat) (input : List InputEvent) : State :=
  { State.reset with
    run := .running, state := .idle, fs := 400000, idleMin := 40, bitMidpoint := 1,
    bitTimeout := 4, responseTimeout := 20, stopBitWidth := 2, hiCnt := 40, n := n, input := input }

/-- In COMMAND, in a frame that began at sample 50. -/
def inFrame (p : Phase) (n : Nat) (x : Bool) : State :=
  { at400 n [.sample x] with
    state := .command, phase := p, frameStart := 50, byteStart := 50, bitStart := 50 }

/-- The next state of an outcome. -/
def next? (o : Host.Outcome State Fault Refusal) : Option State :=
  match o with
  | .next t => some t
  | _ => none

/-- What the recognition of an opcode latches, and where the frame goes on. -/
def latched (i : Instr) : Option (Byte × Length6 × Length6 × Phase) :=
  (next? (exec i (inFrame .bitHigh 83 false))).map (fun t => (t.opcode, t.cmdLen, t.rspLen, t.phase))

/-! Each command latches the two lengths of 43_commands.md R211; a command with one byte goes on to its
stop bit, the others to a data byte (42_frame_fsm.md R187). -/

theorem test_exec_info : latched .info = some (0b00000000, 1, 3, .stopLow) := by decide
theorem test_exec_controllerState : latched .controllerState = some (0b00000001, 1, 4, .stopLow) := by decide
theorem test_exec_readAccessory : latched .readAccessory = some (0b00000010, 3, 33, .bitLow) := by decide
theorem test_exec_writeAccessory : latched .writeAccessory = some (0b00000011, 35, 1, .bitLow) := by decide
theorem test_exec_readEeprom : latched .readEeprom = some (0b00000100, 2, 8, .bitLow) := by decide
theorem test_exec_writeEeprom : latched .writeEeprom = some (0b00000101, 10, 1, .bitLow) := by decide
theorem test_exec_readGba : latched .readGba = some (0b00010100, 3, 33, .bitLow) := by decide
theorem test_exec_writeGba : latched .writeGba = some (0b00010101, 35, 1, .bitLow) := by decide
theorem test_exec_shortPoll : latched .shortPoll = some (0b01000000, 3, 8, .bitLow) := by decide
theorem test_exec_readOrigin : latched .readOrigin = some (0b01000001, 1, 10, .stopLow) := by decide
theorem test_exec_calibrate : latched .calibrate = some (0b01000010, 3, 10, .bitLow) := by decide
theorem test_exec_longPoll : latched .longPoll = some (0b01000011, 3, 10, .bitLow) := by decide
theorem test_exec_fixDevice : latched .fixDevice = some (0b01001110, 3, 3, .bitLow) := by decide
theorem test_exec_keyboardPoll : latched .keyboardPoll = some (0b01010100, 3, 8, .bitLow) := by decide
theorem test_exec_reset : latched .reset = some (0b11111111, 1, 3, .stopLow) := by decide

/-- The step runs the word that is placed for it. -/
theorem test_fetch_word : (next? (step (State.reset.withFetchWord 8 0x05))).map
    (fun t => (t.opcode, t.cmdLen, t.rspLen)) = some (5, 10, 1) := by decide
theorem test_fetch_unknown : (next? (step (State.reset.withFetchWord 8 0x07))).map
    (fun t => (t.state, t.evCount)) = some (.initial, 3) := by decide

/-- `t == bit_midpoint` gives 1 and one more gives 0 (41_bit_byte_stop.md R142, at 24 MHz). -/
theorem test_classify : classify 60 60 = true ∧ classify 61 60 = false := by decide
/-- The first cell is the most significant bit (20_memory.md R67). -/
theorem test_shift : shiftIn 0b0100_0001 true = 0b1000_0011 := by decide
theorem test_low_timeout : (next? (step { inFrame .bitLow 54 false with tmr := 3 })).map
    (fun t => (t.state, t.events)) = some (.initial, [⟨50, 54, .error .bitTimeout⟩]) := by decide
/-- An edge at exactly `bit_start + bit_timeout` is an edge (R142). -/
theorem test_low_edge_at_bound : (next? (step { inFrame .bitLow 54 true with tmr := 3 })).map
    (fun t => (t.phase, t.lowDur, t.bitVal)) = some (.bitHigh, 4, false) := by decide
theorem test_bit_event : (next? (step { inFrame .bitHigh 54 false with bitVal := true })).map
    (fun t => (t.events, t.shreg, t.bitCnt)) = some ([⟨50, 54, .bit true⟩], 1, 1) := by decide
theorem test_command_stop : (next? (step { inFrame .stopLow 84 true with stopStart := 82 })).map
    (fun t => (t.phase, t.events)) = some (.rspWait, [⟨82, 84, .stopBit 2⟩]) := by decide
theorem test_response_stop : (next? (step { inFrame .stopLow 84 true with
    stopStart := 82, seg := .rsp })).map (fun t => t.state) = some .idle := by decide
theorem test_response_timeout : (next? (step { inFrame .rspWait 104 true with
    tmr := 19, rspLen := 3 })).map (fun t => (t.state, t.events)) =
    some (.initial, [⟨50, 104, .error .responseTimeout⟩]) := by decide
/-- "1 MHz ... hi_cnt reaches 100 ... state <- IDLE" (42_frame_fsm.md R174), here at 400 kHz. -/
theorem test_idle_reached : (next? (step { at400 39 [.sample true] with
    state := .initial, hiCnt := 39 })).map (fun t => t.state) = some .idle := by decide
/-- `Reset`, then `Sample(1)`: FATAL, `n == 1`, no event (60_exceptions.md R244). -/
theorem test_sample_unconfigured : (next? (step { State.reset with input := [.sample true] })).map
    (fun t => (t.run, t.n, t.evCount)) = some (.fatal, 1, 0) := by decide
/-- `Configure(300_000, CONSOLE)`: FATAL (60_exceptions.md R243). -/
theorem test_configure_fatal : (next? (step { State.reset with
    input := [.configure 300000 .console] })).map (fun t => t.run) = some .fatal := by decide
/-- `Configure(1_000_000, CONSOLE)`: RUNNING, INITIAL (40_timing_profile.md R124). -/
theorem test_configure_loads : (next? (step { State.reset with
    input := [.configure 1000000 .console] })).map (fun t => (t.run, t.state, t.idleMin)) =
    some (.running, .initial, 100) := by decide
theorem test_reset_event : (next? (step { inFrame .bitHigh 54 false with
    input := [.reset] })).map (fun t => (t.run, t.n, t.byteStart)) = some (.unconfigured, 0, 0) := by
  decide
theorem test_ports : (outputs (inFrame .bitLow 54 false)).pos = some 53 ∧
    (outputs State.reset).pos = none := by decide
theorem test_ports_fatal : (outputs { inFrame .bitLow 54 false with run := .fatal }).state = 0 := by
  decide

/-! ### Witnesses: the hypotheses of each obligation are met, at the boundary values of its clauses -/

/-- In the low phase of the first cell of a frame, `k` samples after its falling edge. -/
def lowAt (k : Nat) (input : List InputEvent) : State :=
  { inFrame .bitLow (51 + k) false with tmr := k, input := input }

/-- In the high phase of that cell, its low phase one sample long, `k` samples after the rising edge. -/
def highAt (k : Nat) (input : List InputEvent) : State :=
  { inFrame .bitHigh (52 + k) false with tmr := k, lowDur := 1, bitVal := true, input := input }

/-- In a data byte of Read EEPROM, its eighth cell in the high phase. -/
def dataAt (g : Segment) (k : Length6) : State :=
  { inFrame .bitHigh 115 false with
    seg := g, byteIdx := k, cmdLen := 2, rspLen := 8, opcode := 4, bitCnt := 7, byteStart := 82,
    bitStart := 112, lowDur := 1, tmr := 1, bitVal := true }

theorem test_inv_low (k : Nat) (input : List InputEvent) (h : k < 4) : Inv (lowAt k input) where
  parked h := absurd rfl h
  profiled _ := by show profile 400000 .console = some ⟨40, 1, 4, 20, 2⟩; decide
  counting _ h := by cases h
  frozen _ _ := rfl
  framed _ _ :=
    { started := Nat.le_refl _
      first := fun _ => rfl
      latched := fun h => absurd ⟨rfl, rfl⟩ h
      inPhase := ⟨⟨.inl ⟨rfl, rfl⟩, (by decide : 0 < 2 ^ 0), Nat.le_refl _⟩,
        by show 50 + k + 1 = 51 + k; omega, h⟩ }

theorem test_inv_high (k : Nat) (input : List InputEvent) (h : k < 4) : Inv (highAt k input) where
  parked h := absurd rfl h
  profiled _ := by show profile 400000 .console = some ⟨40, 1, 4, 20, 2⟩; decide
  counting _ h := by cases h
  frozen _ _ := rfl
  framed _ _ :=
    { started := Nat.le_refl _
      first := fun _ => rfl
      latched := fun h => absurd ⟨rfl, rfl⟩ h
      inPhase := ⟨⟨.inl ⟨rfl, rfl⟩, (by decide : 0 < 2 ^ 0), Nat.le_refl _⟩,
        by show 50 + 1 + k + 1 = 52 + k; omega, h, Nat.le_refl 1, (by decide : 1 ≤ 4), rfl⟩ }

/-- A state of the invariant in a later byte, whose lengths are latched. -/
theorem test_inv_data : Inv (dataAt .cmd 1) where
  parked h := absurd rfl h
  profiled _ := by show profile 400000 .console = some ⟨40, 1, 4, 20, 2⟩; decide
  counting _ h := by cases h
  frozen _ _ := rfl
  framed _ _ :=
    { started := by decide
      first := fun h => absurd h.2 (by decide)
      latched := fun _ => ⟨Instr.readEeprom.spec, by decide, by decide, by decide⟩
      inPhase := ⟨⟨.inr (by decide), by decide, by decide⟩, by decide, by decide, by decide,
        by decide, by decide⟩ }

theorem test_inv_reset (input : List InputEvent) : Inv { State.reset with input := input } where
  parked _ := rfl
  profiled h := by cases h
  counting h := by cases h
  frozen h := by cases h
  framed h := by cases h

theorem witness_StepRunsDecodedCommand :
    let s := State.reset.withFetchWord 8 0x41
    s.run = .running ∧ s.state = .command ∧ s.phase = .bitHigh ∧ s.bitCnt = 7 ∧ s.seg = .cmd ∧
      s.byteIdx = 0 ∧ s.input = [.sample false] ∧
      decode [shiftIn s.shreg s.bitVal] = .ok (.readOrigin, []) ∧
      Instr.readOrigin.wellFormed = true := by decide

theorem witness_CommandsComplete : (inFrame .bitHigh 82 false).n = 81 + 1 := by decide

theorem witness_CommandsLeaveTheRest_stop :
    (∃ t, exec .info (inFrame .bitHigh 82 false) = .next t) ∧ Instr.info.spec.commandLen = 1 :=
  ⟨⟨_, rfl⟩, by decide⟩

theorem witness_CommandsLeaveTheRest_data :
    (∃ t, exec .calibrate (inFrame .bitHigh 82 false) = .next t) ∧
      Instr.calibrate.spec.commandLen ≠ 1 := ⟨⟨_, rfl⟩, by decide⟩

theorem witness_UnknownOpcodeRaisesError :
    let s := State.reset.withFetchWord 8 0xFE
    s.run = .running ∧ s.state = .command ∧ s.phase = .bitHigh ∧ s.bitCnt = 7 ∧ s.seg = .cmd ∧
      s.byteIdx = 0 ∧ s.input = [.sample false] ∧ lookup (shiftIn s.shreg s.bitVal) = none := by
  decide

theorem witness_FirstCellIsMostSignificant :
    let cs : List Cell := byteCells ⟨⟨3, 1⟩, ⟨1, 3⟩⟩ 0x80
    cs.length = 8 ∧ cs[0]? = some ⟨1, 3⟩ ∧ cs[7]? = some ⟨3, 1⟩ := by decide

/-- The frame of the witnesses: Info, with its three response bytes. -/
def infoFrame : Frame := ⟨.info, [], [0x05, 0x00, 0x02]⟩

/-- Info on the wire at 400 kHz, with a response gap of exactly `response_timeout`. -/
def infoWire : WireFrame := wireFrame ⟨⟨4, 1⟩, ⟨1, 4⟩⟩ 1 20 3 infoFrame

theorem witness_FrameOnWireDecodes :
    let s := at400 50 (presenting infoWire.samples [])
    s.run = .running ∧ s.state = .idle ∧ infoFrame.wellFormed = true ∧
      (Cell.mk 4 1).accepted s.bitTimeout = true ∧ (Cell.mk 1 4).accepted s.bitTimeout = true ∧
      s.bitMidpoint < 4 ∧ 1 ≤ s.bitMidpoint ∧ 20 ≤ s.responseTimeout :=
  ⟨rfl, rfl, by decide, by decide, by decide, by decide, by decide, by decide⟩

theorem witness_WellFormedFrame :
    let s := at400 50 (presenting infoWire.samples [])
    s.run = .running ∧ s.state = .idle ∧
      infoWire.accepted s.bitMidpoint s.bitTimeout s.responseTimeout .info = true :=
  ⟨rfl, rfl, by decide⟩

theorem witness_UnknownFrameIsAborted :
    let cs : List Cell := byteCells ⟨⟨4, 1⟩, ⟨1, 4⟩⟩ 0x07
    let s := at400 50 (presenting (cs.flatMap Cell.samples ++ [false]) [])
    s.run = .running ∧ s.state = .idle ∧ acceptedByte s.bitTimeout cs = true ∧
      lookup (cellsByte s.bitMidpoint cs) = none := ⟨rfl, rfl, by decide, by decide⟩

/-- From IDLE: the first cell of a byte fails, and the eighth, each at the longest phases. -/
theorem witness_TruncatedByteIsAborted_idle :
    let s := at400 50 []
    s.run = .running ∧ s.state = .idle ∧ ([] : List Cell).length ≤ 7 ∧
      ([] : List Cell).all (Cell.accepted s.bitTimeout) = true ∧
      (List.replicate 7 (Cell.mk 4 4)).length ≤ 7 ∧
      (List.replicate 7 (Cell.mk 4 4)).all (Cell.accepted s.bitTimeout) = true ∧
      1 ≤ 4 ∧ 4 ≤ s.bitTimeout ∧ 1 ≤ s.bitTimeout := by decide

/-- In a response byte, whose first falling edge has been consumed: the first cell's low phase fails, and
its high phase does. -/
theorem witness_TruncatedByteIsAborted_command :
    let s := { lowAt 0 (presenting (List.replicate 4 false) []) with seg := .rsp, byteIdx := 3 }
    let s' := { lowAt 0 (presenting (List.replicate 5 true) []) with seg := .rsp, byteIdx := 3 }
    s.run = .running ∧ s.state = .command ∧ s.phase = .bitLow ∧ s.tmr = 0 ∧ s.bitCnt = 0 ∧
      s.bitStart + 1 = s.n ∧ 1 ≤ s.bitTimeout ∧
      .sample false :: s.input = presenting (([] : List Cell).flatMap Cell.samples ++
        List.replicate (s.bitTimeout + 1) false) [] ∧
      .sample false :: s'.input = presenting (([] : List Cell).flatMap Cell.samples ++
        List.replicate 1 false ++ List.replicate (s'.bitTimeout + 1) true) [] := by decide

theorem witness_RisingEdgeClassifiesBit :
    let s := lowAt 3 [.sample true]
    s.run = .running ∧ s.state = .command ∧ s.phase = .bitLow ∧ s.input = [.sample true] ∧ Inv s :=
  ⟨rfl, rfl, rfl, rfl, test_inv_low 3 _ (by decide)⟩

theorem witness_LowPhase_timesOut :
    let s := lowAt 3 [.sample false]
    s.run = .running ∧ s.state = .command ∧ s.phase = .bitLow ∧ s.input = [.sample false] ∧
      s.tmr + 1 = s.bitTimeout ∧ Inv s :=
  ⟨rfl, rfl, rfl, rfl, rfl, test_inv_low 3 _ (by decide)⟩

theorem witness_LowPhase_counts :
    let s := lowAt 2 [.sample false]
    s.run = .running ∧ s.state = .command ∧ s.phase = .bitLow ∧ s.input = [.sample false] ∧
      s.tmr + 1 ≠ s.bitTimeout := by decide

theorem witness_FallingEdgeCompletesCell :
    let s := highAt 0 [.sample false]
    s.run = .running ∧ s.state = .command ∧ s.phase = .bitHigh ∧ s.bitCnt ≠ 7 ∧
      s.input = [.sample false] := by decide

theorem witness_HighPhase_timesOut :
    let s := highAt 3 [.sample true]
    s.run = .running ∧ s.state = .command ∧ s.phase = .bitHigh ∧ s.input = [.sample true] ∧
      s.tmr + 1 = s.bitTimeout ∧ Inv s :=
  ⟨rfl, rfl, rfl, rfl, rfl, test_inv_high 3 _ (by decide)⟩

theorem witness_HighPhase_counts :
    let s := highAt 2 [.sample true]
    s.run = .running ∧ s.state = .command ∧ s.phase = .bitHigh ∧ s.input = [.sample true] ∧
      s.tmr + 1 ≠ s.bitTimeout := by decide

/-- The shortest and the longest low pulse. -/
theorem witness_LowPulseOfAnyLength :
    let s := lowAt 0 (presenting (List.replicate 0 false ++ [true]) [])
    let s' := lowAt 0 (presenting (List.replicate 3 false ++ [true]) [])
    s.run = .running ∧ s.state = .command ∧ s.phase = .bitLow ∧ s.tmr = 0 ∧ 1 ≤ s.bitTimeout ∧
      s'.run = .running ∧ s'.state = .command ∧ s'.phase = .bitLow ∧ s'.tmr = 0 ∧
      4 ≤ s'.bitTimeout := by decide

/-- The last command-data byte, and one that is not the last. -/
theorem witness_CommandDataByteCompletes :
    let s := dataAt .cmd 1
    let s' := { dataAt .cmd 1 with cmdLen := 3 }
    s.run = .running ∧ s.state = .command ∧ s.phase = .bitHigh ∧ s.bitCnt = 7 ∧ s.seg = .cmd ∧
      s.byteIdx ≠ 0 ∧ s.input = [.sample false] ∧ s.byteIdx + 1 = s.cmdLen ∧
      s'.byteIdx + 1 ≠ s'.cmdLen := by decide

/-- The last response byte, and the first. -/
theorem witness_ResponseDataByteCompletes :
    let s := dataAt .rsp 7
    let s' := dataAt .rsp 0
    s.run = .running ∧ s.state = .command ∧ s.phase = .bitHigh ∧ s.bitCnt = 7 ∧ s.seg = .rsp ∧
      s.input = [.sample false] ∧ s.byteIdx + 1 = s.rspLen ∧ s'.seg = .rsp ∧
      s'.byteIdx + 1 ≠ s'.rspLen := by decide

theorem witness_StopBitEndsSegment :
    let s := inFrame .stopLow 84 true
    let s' := { inFrame .stopLow 84 true with seg := .rsp }
    s.run = .running ∧ s.state = .command ∧ s.phase = .stopLow ∧ s.input = [.sample true] ∧
      s.seg = .cmd ∧ s'.seg = .rsp := by decide

theorem witness_StopBitWaitHasNoBound :
    let s := { inFrame .stopLow 84 false with input := presenting (List.replicate 3 false) [] }
    s.run = .running ∧ s.state = .command ∧ s.phase = .stopLow ∧
      s.input = [.sample false, .sample false, .sample false] := by decide

theorem witness_ResponseWait_edge :
    let s := { inFrame .rspWait 84 false with rspLen := 3 }
    let s' := inFrame .rspWait 84 false
    s.run = .running ∧ s.state = .command ∧ s.phase = .rspWait ∧ s.input = [.sample false] ∧
      s.rspLen ≠ 0 ∧ s'.rspLen = 0 := by decide

theorem witness_ResponseWait_noEdge :
    let s := { inFrame .rspWait 84 true with tmr := 19 }
    let s' := { inFrame .rspWait 84 true with tmr := 18 }
    s.run = .running ∧ s.state = .command ∧ s.phase = .rspWait ∧ s.input = [.sample true] ∧
      s.tmr + 1 = s.responseTimeout ∧ s'.tmr + 1 ≠ s'.responseTimeout := by decide

/-- One sample below the bound, and the bound. -/
theorem witness_ResponseTimeoutIsExact :
    let s := { inFrame .rspWait 84 true with input := presenting (List.replicate 19 true) [] }
    let s' := { inFrame .rspWait 84 true with input := presenting (List.replicate 20 true) [] }
    s.run = .running ∧ s.state = .command ∧ s.phase = .rspWait ∧ s.tmr = 0 ∧
      19 < s.responseTimeout ∧ 20 = s'.responseTimeout := by decide

theorem witness_FallingEdgeStartsFrame :
    let s := at400 50 [.sample false]
    let s' := at400 50 [.sample true]
    s.run = .running ∧ s.state = .idle ∧ s.input = [.sample false] ∧ s'.input = [.sample true] := by
  decide

/-- RUNNING in INITIAL, `k` high samples counted. -/
def initialAt (k : Nat) (input : List InputEvent) : State :=
  { at400 60 input with state := .initial, hiCnt := k }

theorem witness_DebounceStep :
    let s := initialAt 39 [.sample true]
    let s' := initialAt 38 [.sample true]
    s.run = .running ∧ s.state = .initial ∧ s.input = [.sample true] ∧ s.hiCnt + 1 = s.idleMin ∧
      s'.hiCnt + 1 ≠ s'.idleMin ∧ (initialAt 39 [.sample false]).input = [.sample false] := by
  decide

/-- Exactly `idle_min` high samples, and one fewer before a low one. -/
theorem witness_OnlyAnIdleGapLeavesInitial :
    let s := initialAt 0 (presenting (List.replicate 40 true) [])
    s.run = .running ∧ s.state = .initial ∧ s.hiCnt = 0 ∧ 0 < s.idleMin ∧ s.idleMin = 40 ∧
      noIdleGap s.idleMin s.hiCnt (List.replicate 39 true ++ [false]) = true := by decide

/-- Each conclusion of `LineLevelMatchesPhase` is reached. -/
theorem witness_LineLevelMatchesPhase :
    (next? (step (at400 50 [.sample false]))).map (fun t => (t.state, t.phase)) =
        some (.command, .bitLow) ∧
      (next? (step (lowAt 0 [.sample true]))).map (fun t => (t.state, t.phase)) =
        some (.command, .bitHigh) ∧
      (next? (step (dataAt .cmd 1))).map (fun t => (t.state, t.phase)) =
        some (.command, .stopLow) ∧
      (next? (step (inFrame .stopLow 84 true))).map (fun t => (t.state, t.phase)) =
        some (.command, .rspWait) ∧
      (next? (step (at400 50 [.sample true]))).map (fun t => t.state) = some .idle := by decide

theorem witness_CommandIsLeft :
    let s := lowAt 3 [.sample false]
    s.run = .running ∧ s.state = .command ∧ s.input = [.sample false] ∧ ∃ t, step s = .next t :=
  ⟨rfl, rfl, rfl, _, rfl⟩

theorem witness_EventsOfOneStep :
    ∃ t, step (dataAt .cmd 1) = .next t ∧ (dataAt .cmd 1).input ≠ [] := ⟨_, rfl, by decide⟩

theorem witness_EventStream :
    let s := { dataAt .cmd 1 with input := [.sample false, .sample true] }
    Inv s ∧ (∀ e ∈ s.input.take 2, e ≠ InputEvent.reset) ∧ ∃ t, runSteps 2 s = .next t :=
  ⟨{ parked := fun h => absurd rfl h
     profiled := test_inv_data.profiled
     counting := fun _ h => by cases h
     frozen := fun _ _ => rfl
     framed := fun _ _ =>
      { started := (test_inv_data.framed rfl rfl).started
        first := (test_inv_data.framed rfl rfl).first
        latched := (test_inv_data.framed rfl rfl).latched
        inPhase := ⟨⟨.inr (by decide), by decide, by decide⟩, by decide, by decide, by decide,
          by decide, by decide⟩ } },
    by decide, _, rfl⟩

/-- Each of the three errors is raised by a step. -/
theorem witness_ErrorsOfOneStep :
    (next? (step (lowAt 3 [.sample false]))).map (fun t => t.events) =
        some ([] ++ [⟨50, 54, .error .bitTimeout⟩]) ∧
      (next? (step (State.reset.withFetchWord 8 0x07))).map (fun t => t.events) =
        some ([] ++ [⟨0, 0, .bit true⟩, ⟨0, 0, .command 0x07 false⟩,
          ⟨0, 0, .error .unknownCommand⟩]) ∧
      (next? (step { inFrame .rspWait 104 true with tmr := 19 })).map (fun t => t.events) =
        some ([] ++ [⟨50, 104, .error .responseTimeout⟩]) := by decide

theorem witness_ReturnFromErrorIsExact :
    let s := lowAt 3 (.sample false :: presenting (List.replicate 40 true ++ [false]) [])
    Inv s ∧ s.run = .running ∧ s.state = .command ∧ s.idleMin = 40 ∧
      ∃ t, step s = .next t ∧ t.state = .initial :=
  ⟨test_inv_low 3 _ (by decide), rfl, rfl, rfl, _, rfl, rfl⟩

theorem witness_FailingConfigureIsFatal :
    let s := { State.reset with input := [.configure 0 .console] }
    s.run ≠ .fatal ∧ s.input = [.configure 0 .console] ∧
      profile (0 : SampleRate).toNat .console = none := by decide

theorem witness_FatalIsSticky :
    let es : List InputEvent := [.sample true, .configure 1000000 .console]
    let s := { State.reset with run := .fatal, input := es ++ [InputEvent.reset] }
    s.run = .fatal ∧ (∀ e ∈ es, e ≠ InputEvent.reset) ∧ s.input = es ++ [InputEvent.reset] := by decide

theorem witness_SampleBeforeConfigureIsFatal :
    let s := { State.reset with input := [.sample true] }
    Inv s ∧ s.run = .unconfigured ∧ s.input = [.sample true] := ⟨test_inv_reset _, rfl, rfl⟩

theorem witness_SamplesIsTheExactFloor :
    let m : Micros := ⟨5, 2⟩
    let m' : Micros := ⟨4, 1⟩
    0 < m.den ∧ 0 < m'.den ∧ 400000 ≤ 400001 ∧ m.num * m'.den ≤ m'.num * m.den := by decide

theorem witness_ProfileFailsExactlyWhenDegenerate :
    (Micros.mk 2 1).wellFormed = true ∧
      profileWith ⟨2, 1⟩ 400000 .console = some ⟨40, 1, 4, 20, 2⟩ ∧
      profileWith ⟨2, 1⟩ 500000 .controller = some ⟨50, 1, 5, 25, 2⟩ := by decide

/-- The suggested midpoint meets every premise of `ProfileFieldsAreBounded`. -/
theorem witness_ProfileFieldsAreBounded :
    (Micros.mk 2 1).wellFormed = true ∧ 2 ≤ 100 * 1 ∧ 2 < 10 * 1 ∧ 2 ≤ 5 * 1 ∧
      profileWith ⟨2, 1⟩ 500000 .controller = some ⟨50, 1, 5, 25, 2⟩ := by decide

/-- The largest midpoint of the strict bound, 5 µs, at the lowest rate it admits. -/
theorem witness_ProfileFieldsAreBounded_strict :
    (Micros.mk 5 1).wellFormed = true ∧ 5 ≤ 5 * 1 ∧
      profileWith ⟨5, 1⟩ 250000 .controller = some ⟨25, 1, 2, 12, 1⟩ := by decide

theorem witness_ConfigureLoadsTheProfile :
    let s := { inFrame .bitLow 54 false with input := [.configure 1000000 .console] }
    s.input = [.configure 1000000 .console] ∧ s.run ≠ .fatal ∧
      profile (1000000 : SampleRate).toNat .console = some ⟨100, 2, 10, 50, 5⟩ ∧
      { s with run := .fatal }.run = .fatal := by decide

theorem witness_ResetClearsEveryRegister :
    let s := { inFrame .bitHigh 54 false with input := [.reset, .reset] }
    s.input = [.reset, .reset] ∧ s.input = .reset :: [.reset] := by decide

theorem witness_NoInputChangesNothing : (at400 50 []).input = [] := by decide

theorem witness_ClockCyclePriority :
    (Cycle.mk true true true true 0 0).rst = true ∧
      (Cycle.mk false true true true 400000 0).rst = false ∧
      (Cycle.mk false true true true 400000 0).cfgLoad = true ∧
      (Cycle.mk false true true true 400000 0).sampleValid = true := by decide

/-- Each condition of `OutputPortsShowTheState` is met, and a step emits two events. -/
theorem witness_OutputPortsShowTheState :
    State.reset.run = .unconfigured ∧ { State.reset with run := .fatal }.run = .fatal ∧
      (initialAt 0 []).run = .running ∧ (initialAt 0 []).state = .initial ∧
      (at400 50 []).state = .idle ∧ (dataAt .cmd 1).run = .running ∧
      (dataAt .cmd 1).state = .command ∧ (dataAt .cmd 1).n = 114 + 1 ∧ (dataAt .cmd 1).input ≠ [] ∧
      (next? (step (dataAt .cmd 1))).map (fun t => t.events) = some ((dataAt .cmd 1).events ++
        [⟨112, 115, .bit true⟩, ⟨82, 115, .commandData 1⟩]) := by decide

/-- One sample below the bound, the bound, and the last falling edge within it. -/
theorem witness_ResponseBoundCountsFromTheStopBit :
    let s (xs : List Bool) : State :=
      { inFrame .stopLow 84 true with
        stopStart := 82, rspLen := 3, input := .sample true :: presenting xs [] }
    (s []).run = .running ∧ (s []).state = .command ∧ (s []).phase = .stopLow ∧
      (s []).seg = .cmd ∧ 19 < (s []).responseTimeout ∧ 20 = (s []).responseTimeout ∧
      (s []).rspLen ≠ 0 ∧
      (s (List.replicate 20 true)).input = .sample true :: presenting (List.replicate 20 true) [] ∧
      (s (List.replicate 19 true ++ [false])).input =
        .sample true :: presenting (List.replicate 19 true ++ [false]) [] := by decide

theorem witness_EventRecordIsFaithful :
    (Event.mk 50 54 (.bit true)).record = (Event.mk 50 54 (.bit true)).record := rfl

theorem witness_EveryStepKeepsInvariant :
    Inv (dataAt .cmd 1) ∧ ∃ t, step (dataAt .cmd 1) = .next t := ⟨test_inv_data, _, rfl⟩

/-- Two states that differ in every dead register. -/
theorem witness_DeadRegistersNeverReachAnOutput :
    let s := at400 50 [.sample false]
    let s' := { s with
      tmr := 9, seg := .rsp, phase := .stopLow, frameStart := 1, byteStart := 2, bitStart := 3,
      stopStart := 4, lowDur := 5, bitVal := true, shreg := 6, bitCnt := 7, opcode := 8,
      cmdLen := 9, rspLen := 10, byteIdx := 11, fs := 12, role := .controller }
    s ≠ s' ∧ s.run = s'.run ∧ s.state = s'.state ∧ s.n = s'.n ∧ s.hiCnt = s'.hiCnt ∧
      s.input = s'.input ∧ s.events = s'.events ∧ s.evCount = s'.evCount ∧ s.state ≠ .command ∧
      s.idleMin = s'.idleMin ∧ s.bitMidpoint = s'.bitMidpoint ∧ s.bitTimeout = s'.bitTimeout ∧
      s.responseTimeout = s'.responseTimeout ∧ s.stopBitWidth = s'.stopBitWidth ∧
      ∃ t, runSteps 1 s = .next t :=
  ⟨by decide, rfl, rfl, rfl, rfl, rfl, rfl, rfl, by decide, rfl, rfl, rfl, rfl, rfl, _, rfl⟩

end Sys2Proof.Tests
end

section
/-! The statements about runs without input, the input ports and the output ports. -/

namespace Sys2Proof.Machine

/-! ### No input -/

/-- Settles O45, by induction on the number of steps: each of them is a step without input. -/
theorem noInputChangesNothing : Obligations.NoInputChangesNothing := by
  intro s k hin
  induction k with
  | zero => rfl
  | succ k ih => rw [runSteps_succ (step_nil hin), ih]

/-! ### One clock cycle -/

/-- The step that takes `e` is the reaction to `e`, with the rest of the queue put back. -/
theorem step_cons_eq_withInput (e : InputEvent) (es : List InputEvent) (s : State) :
    step { s with input := e :: es } = withInput es (react e (beginStep s.input s)) := by
  rw [← react_withInput]
  exact step_cons rfl

/-- Reacting to some input events is a run over them, whatever is pending behind them. -/
theorem reactAll_eq_runSteps (es : List InputEvent) (s : State) :
    reactAll es s = runSteps es.length { s with input := es ++ s.input } := by
  induction es generalizing s with
  | nil => rfl
  | cons e es ih =>
    have hstep := step_cons_eq_withInput e (es ++ s.input) s
    cases hr : react e (beginStep s.input s) with
    | next t =>
      have hin : t.input = s.input := react_input (s := beginStep s.input s) hr
      rw [hr] at hstep
      calc reactAll (e :: es) s
          = reactAll es t := by simp only [reactAll, hr]
        _ = runSteps es.length { t with input := es ++ s.input } := by rw [ih t, hin]
        _ = _ := (runSteps_succ hstep).symm
    | fault r => cases r
    | refused r =>
      rw [hr] at hstep
      simp only [reactAll, hr, List.length_cons, runSteps, List.cons_append, hstep, withInput]

/-- Settles O46: the three clauses of the priority by the definition of the cycle's input events, the
work of a cycle by `reactAll_eq_runSteps`. -/
theorem clockCyclePriority : Obligations.ClockCyclePriority := by
  refine ⟨fun c hrst => ?_, fun c hrst hcfg hsmp => ?_, fun c s => reactAll_eq_runSteps c.inputEvents s⟩
  · simp [Cycle.inputEvents, hrst]
  · simp [Cycle.inputEvents, hrst, hcfg, hsmp]

/-! ### The output ports -/

/-- A step that takes an input event appends at most three events, and `evCount` counts them: by the rows
of R192, each of which appends a list of events that it writes out. -/
theorem step_events {s t : State} (hin : s.input ≠ []) (h : step s = .next t) :
    ∃ new, t.events = s.events ++ new ∧ t.evCount = new.length ∧ new.length ≤ 3 := by
  cases transition_of_step h
  case noInput hnil => exact absurd hnil hin
  all_goals simp

/-- The events port shows the events that the latest step appended. -/
theorem evPort_of_appended {t : State} {old new : List Event} (he : t.events = old ++ new)
    (hc : t.evCount = new.length) : evPort t = new := by
  simp [evPort, he, hc]

/-- The latest step's events at the port, for whatever list the step is known to have appended. -/
theorem evPort_of_step {s t : State} {new : List Event} (hin : s.input ≠ [])
    (h : step s = .next t) (happ : t.events = s.events ++ new) :
    new.length ≤ 3 ∧ t.evCount = new.length ∧ evPort t = new := by
  obtain ⟨new', happ', hcount, hle⟩ := step_events hin h
  obtain rfl : new' = new := List.append_cancel_left (happ'.symm.trans happ)
  exact ⟨hle, hcount, evPort_of_appended happ hcount⟩

/-- Settles O51: the codes by the run status and the FSM state, the events by `evPort_of_step`. -/
theorem outputPortsShowTheState : Obligations.OutputPortsShowTheState := by
  intro s
  refine ⟨?_, ?_, ?_, ?_, ?_, ?_, ?_, ?_, ?_⟩
  · intro hr; simp [outputs, hr, RunStatus.code]
  · intro hr; simp [outputs, hr, RunStatus.code]
  · intro hr; simp [outputs, hr, RunStatus.code]
  · intro hr; simp [outputs, statePort, hr, FsmState.code]
  · intro hr hs; simp [outputs, statePort, hr, hs, FsmState.code]
  · intro hr hs; simp [outputs, statePort, hr, hs, FsmState.code]
  · intro hr hs; simp [outputs, statePort, hr, hs, FsmState.code]
  · intro p hn; simp [outputs, posPort, hn]
  · intro t new hin hstep happ
    obtain ⟨hle, hcount, hport⟩ := evPort_of_step hin hstep happ
    have hlt : new.length < 4 := by omega
    simp [outputs, hcount, hport, hle, hlt]

end Sys2Proof.Machine
end

section
/-! SUPPORT. The rows of 42_frame_fsm.md R192 are exactly the steps: the converse of the inversion lemma. -/

namespace Sys2Proof.Machine

variable {s t : State}

theorem phase_of_waiting {p : Phase} {x : Bool} {rest : List InputEvent}
    (h : Waiting s p x rest) : s.phase = p := by
  obtain ⟨-, -, hp, -⟩ := h
  exact hp

theorem step_of_waiting_bitLow {x : Bool} {rest : List InputEvent}
    (h : Waiting s .bitLow x rest) : step s = .next (stepBitLow x s.n (taken rest s)) := by
  obtain ⟨hr, hs, hp, hin⟩ := h
  exact step_bitLow hr hs hp hin

theorem step_of_waiting_bitHigh {x : Bool} {rest : List InputEvent}
    (h : Waiting s .bitHigh x rest) : step s = stepBitHigh x s.n (taken rest s) := by
  obtain ⟨hr, hs, hp, hin⟩ := h
  exact step_bitHigh hr hs hp hin

theorem step_of_waiting_stopLow {x : Bool} {rest : List InputEvent}
    (h : Waiting s .stopLow x rest) : step s = .next (stepStopLow x s.n (taken rest s)) := by
  obtain ⟨hr, hs, hp, hin⟩ := h
  exact step_stopLow hr hs hp hin

theorem step_of_waiting_rspWait {x : Bool} {rest : List InputEvent}
    (h : Waiting s .rspWait x rest) : step s = .next (stepRspWait x s.n (taken rest s)) := by
  obtain ⟨hr, hs, hp, hin⟩ := h
  exact step_rspWait hr hs hp hin

/-- The falling edge after the eighth cell is ByteDone on the assembled byte. -/
theorem step_byteDone {rest : List InputEvent} (h : Waiting s .bitHigh false rest)
    (hb : s.bitCnt = 7) :
    step s = byteDone (shiftIn s.shreg s.bitVal) s.n (assembled rest s) := by
  rw [step_of_waiting_bitHigh h]
  exact stepBitHigh_byte hb

/-- The converse of the inversion lemma: every row of the table is a step. -/
theorem step_of_transition (h : Transition s t) : step s = .next t := by
  cases h with
  | noInput h => exact step_nil h
  | reset rest h => exact step_reset h
  | configureIgnored rest f r h hr => simp [step_configure h, configure, hr]
  | configureFails rest f r h hr hp => simp [step_configure h, configure, hr, hp]
  | configureLoads rest f r p h hr hp => simp [step_configure h, configure, hr, hp]
  | notConfigured rest x h hr => exact step_unconfigured hr h
  | ignored rest x h hr => exact step_fatal hr h
  | idleReached rest h hr hs hc => simp [step_initial hr hs h, resync, hc]
  | highCounted rest h hr hs hc => simp [step_initial hr hs h, resync, hc]
  | lowInInitial rest h hr hs => exact step_initial hr hs h
  | idleHigh rest h hr hs => exact step_idle hr hs h
  | frameStarts rest h hr hs => exact step_idle hr hs h
  | lowEnds rest h => exact step_of_waiting_bitLow h
  | lowTimesOut rest h ht => simp [step_of_waiting_bitLow h, stepBitLow, countOrRaise, ht]
  | lowCounts rest h ht => simp [step_of_waiting_bitLow h, stepBitLow, countOrRaise, ht]
  | highTimesOut rest h ht => simp [step_of_waiting_bitHigh h, stepBitHigh, countOrRaise, ht]
  | highCounts rest h ht => simp [step_of_waiting_bitHigh h, stepBitHigh, countOrRaise, ht]
  | cellDone rest h hb =>
    rw [step_of_waiting_bitHigh h]
    exact stepBitHigh_cell hb
  | opcodeKnown rest i h hb ho hd =>
    obtain ⟨hs, hi⟩ := ho
    rw [step_byteDone h hb, byteDone_opcode (by exact hs) (by exact hi), opcodeDone_known hd,
      exec_eq_recognise]
  | opcodeUnknown rest h hb ho hd =>
    obtain ⟨hs, hi⟩ := ho
    rw [step_byteDone h hb, byteDone_opcode (by exact hs) (by exact hi), opcodeDone_unknown hd]
  | commandData rest h hb hs hi =>
    rw [step_byteDone h hb, byteDone_commandData (by exact hs) (by exact hi)]
  | responseData rest h hb hs =>
    rw [step_byteDone h hb, byteDone_responseData (by exact hs)]
  | stopWaits rest h => exact step_of_waiting_stopLow h
  | commandStops rest h hs => simp [step_of_waiting_stopLow h, stepStopLow, segmentDone, hs]
  | responseStops rest h hs => simp [step_of_waiting_stopLow h, stepStopLow, segmentDone, hs]
  | responseTimesOut rest h ht => simp [step_of_waiting_rspWait h, stepRspWait, countOrRaise, ht]
  | gapCounts rest h ht => simp [step_of_waiting_rspWait h, stepRspWait, countOrRaise, ht]
  | responseBegins rest h hl =>
    rw [step_of_waiting_rspWait h]
    exact congrArg _ (if_neg hl)
  | emptyResponse rest h hl =>
    rw [step_of_waiting_rspWait h]
    exact congrArg _ (if_pos hl)

end Sys2Proof.Machine
end

section
/-! Write before read (10_state.md R42): a simulation between states that agree on their live registers,
which every row of the table keeps, one lemma per operation. -/

namespace Sys2Proof.Machine

variable {s s' t : State}

/-! ### The registers that are live -/

/-- The profile registers (R28). -/
def loaded (s : State) : TimingProfile :=
  ⟨s.idleMin, s.bitMidpoint, s.bitTimeout, s.responseTimeout, s.stopBitWidth⟩

theorem loaded_eq_iff : loaded s = loaded s' ↔
    s.idleMin = s'.idleMin ∧ s.bitMidpoint = s'.bitMidpoint ∧ s.bitTimeout = s'.bitTimeout ∧
      s.responseTimeout = s'.responseTimeout ∧ s.stopBitWidth = s'.stopBitWidth :=
  TimingProfile.mk.injEq .. ▸ Iff.rfl

/-- Inside the opcode byte: the length registers are those of an older frame, and no step reads them
before they are latched (R37). -/
def Recognising (s : State) : Prop := inOpcode s ∧ (s.phase = .bitLow ∨ s.phase = .bitHigh)

/-- The lengths of the current frame agree. -/
def SameLengths (s s' : State) : Prop := s.cmdLen = s'.cmdLen ∧ s.rspLen = s'.rspLen

/-- The two states agree on the registers that are live inside a frame (R42): the value of the bit
between the two edges of a cell, the start of the stop bit inside one, the lengths once latched. -/
structure SameFrame (s s' : State) : Prop where
  seg : s.seg = s'.seg
  phase : s.phase = s'.phase
  tmr : s.tmr = s'.tmr
  frameStart : s.frameStart = s'.frameStart
  byteStart : s.byteStart = s'.byteStart
  bitStart : s.bitStart = s'.bitStart
  shreg : s.shreg = s'.shreg
  bitCnt : s.bitCnt = s'.bitCnt
  byteIdx : s.byteIdx = s'.byteIdx
  bitVal : s.phase = .bitHigh → s.bitVal = s'.bitVal
  stopStart : s.phase = .stopLow → s.stopStart = s'.stopStart
  lengths : ¬ Recognising s → SameLengths s s'

/-- THE SIMULATION: the two states agree on every live register; the profile is live while RUNNING, the
registers of a frame inside one. -/
structure SameLive (s s' : State) : Prop where
  run : s.run = s'.run
  state : s.state = s'.state
  n : s.n = s'.n
  hiCnt : s.hiCnt = s'.hiCnt
  input : s.input = s'.input
  events : s.events = s'.events
  evCount : s.evCount = s'.evCount
  profiled : s.run = .running → loaded s = loaded s'
  framed : s.run = .running → s.state = .command → SameFrame s s'

theorem SameLive.outputs_eq (h : SameLive s s') : outputs s = outputs s' := by
  simp only [outputs, statePort, posPort, evPort, h.run, h.state, h.n, h.events, h.evCount]

/-! ### What the operations of a frame keep -/

section Frame

variable {i : Nat}

theorem SameFrame.taken (h : SameFrame s s') (rest : List InputEvent) :
    SameFrame (taken rest s) (taken rest s') := { h with }

theorem SameFrame.emit (h : SameFrame s s') (e e' : Event) : SameFrame (emit e s) (emit e' s') :=
  { h with }

theorem SameFrame.inOpcode_iff (h : SameFrame s s') : inOpcode s ↔ inOpcode s' := by
  simp only [inOpcode, h.seg, h.byteIdx]

theorem SameFrame.bitTimeout_iff (h : SameFrame s s') (hp : loaded s = loaded s') :
    s.tmr + 1 = s.bitTimeout ↔ s'.tmr + 1 = s'.bitTimeout := by
  obtain ⟨-, -, hbit, -⟩ := loaded_eq_iff.1 hp
  rw [h.tmr, hbit]

theorem SameFrame.responseTimeout_iff (h : SameFrame s s') (hp : loaded s = loaded s') :
    s.tmr + 1 = s.responseTimeout ↔ s'.tmr + 1 = s'.responseTimeout := by
  obtain ⟨-, -, -, hrsp, -⟩ := loaded_eq_iff.1 hp
  rw [h.tmr, hrsp]

theorem SameFrame.lengths_of_phase (h : SameFrame s s')
    (hp : s.phase = .stopLow ∨ s.phase = .rspWait) : SameLengths s s' :=
  h.lengths fun hrec => by rcases hp with hp | hp <;> simp [Recognising, hp] at hrec

theorem SameFrame.lengths_of_latched (h : SameFrame s s') (ho : ¬ inOpcode s) : SameLengths s s' :=
  h.lengths fun hrec => ho hrec.1

theorem SameFrame.count (h : SameFrame s s') {k k' : Nat} (hk : k = k') :
    SameFrame { s with tmr := k } { s' with tmr := k' } := { h with tmr := hk }

/-- The rising edge of a cell makes the value of its bit live. -/
theorem SameFrame.endLow (h : SameFrame s s') {d d' : Nat} {b b' : Bool}
    (hb : b = b') :
    SameFrame { s with lowDur := d, bitVal := b, phase := .bitHigh, tmr := 0 }
      { s' with lowDur := d', bitVal := b', phase := .bitHigh, tmr := 0 } :=
  { h with
    phase := rfl, tmr := rfl, bitVal := fun _ => hb, stopStart := nofun
    lengths := fun hrec => h.lengths fun ⟨ho, _⟩ => hrec ⟨ho, .inr rfl⟩ }

theorem SameFrame.completeCell (h : SameFrame s s') (hp : s.phase = .bitHigh) :
    SameFrame (completeCell i s) (completeCell i s') :=
  { h with shreg := by simp [h.shreg, h.bitVal hp] }

theorem SameFrame.nextCell (h : SameFrame s s') :
    SameFrame (nextCell i s) (nextCell i s') :=
  { h with
    phase := rfl, tmr := rfl, bitStart := rfl, bitCnt := congrArg (· + 1) h.bitCnt
    bitVal := nofun, stopStart := nofun
    lengths := fun hrec => h.lengths fun ⟨ho, _⟩ => hrec ⟨ho, .inl rfl⟩ }

/-- ByteStart writes every register of a byte, so none of them need agree before it. -/
theorem sameFrame_startByte (hseg : s.seg = s'.seg) (hstart : s.frameStart = s'.frameStart)
    (hidx : s.byteIdx = s'.byteIdx) (hlen : ¬ inOpcode s → SameLengths s s') :
    SameFrame (startByte i s) (startByte i s') where
  seg := hseg
  phase := rfl
  tmr := rfl
  frameStart := hstart
  byteStart := rfl
  bitStart := rfl
  shreg := rfl
  bitCnt := rfl
  byteIdx := hidx
  bitVal := nofun
  stopStart := nofun
  lengths := fun hrec => hlen fun ho => hrec ⟨ho, .inl rfl⟩

/-- FrameStart leaves no register of an older frame live. -/
theorem sameFrame_startFrame : SameFrame (startFrame i s) (startFrame i s') :=
  sameFrame_startByte rfl rfl rfl fun ho => absurd ⟨rfl, rfl⟩ ho

theorem SameFrame.startByte (h : SameFrame s s') (hlen : SameLengths s s') :
    SameFrame (startByte i s) (startByte i s') :=
  sameFrame_startByte h.seg h.frameStart h.byteIdx fun _ => hlen

theorem SameFrame.startStop (h : SameFrame s s') (hlen : SameLengths s s') :
    SameFrame (startStop i s) (startStop i s') :=
  { h with phase := rfl, bitVal := nofun, stopStart := fun _ => rfl, lengths := fun _ => hlen }

/-- OpcodeDone makes the lengths live. -/
theorem SameFrame.latch (h : SameFrame s s') (op : Byte) (c r : Length6) :
    SameFrame { s with opcode := op, cmdLen := c, rspLen := r, byteIdx := 1 }
      { s' with opcode := op, cmdLen := c, rspLen := r, byteIdx := 1 } :=
  { h with byteIdx := rfl, lengths := fun _ => ⟨rfl, rfl⟩ }

theorem SameFrame.countByte (h : SameFrame s s') (hlen : SameLengths s s') :
    SameFrame { s with byteIdx := s.byteIdx + 1 } { s' with byteIdx := s'.byteIdx + 1 } :=
  { h with byteIdx := congrArg (· + 1) h.byteIdx, lengths := fun _ => hlen }

theorem SameFrame.waitResponse (h : SameFrame s s') (hlen : SameLengths s s') :
    SameFrame { s with phase := .rspWait, tmr := 0 } { s' with phase := .rspWait, tmr := 0 } :=
  { h with
    phase := rfl, tmr := rfl, bitVal := nofun, stopStart := nofun, lengths := fun _ => hlen }

theorem SameFrame.beginResponse (h : SameFrame s s') (hlen : SameLengths s s') :
    SameFrame { s with seg := .rsp, byteIdx := 0 } { s' with seg := .rsp, byteIdx := 0 } :=
  { h with seg := rfl, byteIdx := rfl, lengths := fun _ => hlen }

end Frame

/-! ### What the operations of the machine keep -/

section Live

variable {i : Nat}

theorem SameLive.beginStep (h : SameLive s s') (rest : List InputEvent) :
    SameLive (beginStep rest s) (beginStep rest s') :=
  { h with input := rfl, evCount := rfl, framed := fun hr hs => { h.framed hr hs with } }

theorem SameLive.taken (h : SameLive s s') (rest : List InputEvent) :
    SameLive (taken rest s) (taken rest s') :=
  { h with
    n := congrArg (· + 1) h.n, input := rfl, evCount := rfl
    framed := fun hr hs => (h.framed hr hs).taken rest }

theorem SameLive.emit (h : SameLive s s') {e e' : Event} (he : e = e') :
    SameLive (emit e s) (emit e' s') :=
  { h with
    events := by simp [h.events, he], evCount := congrArg (· + 1) h.evCount
    framed := fun hr hs => { h.framed hr hs with } }

theorem SameLive.cursor_eq (h : SameLive s s') : s.cursor = s'.cursor := congrArg (· - 1) h.n

theorem sameLive_hardReset (hin : s.input = s'.input) (hev : s.events = s'.events) :
    SameLive (hardReset s) (hardReset s') :=
  ⟨rfl, rfl, rfl, rfl, hin, hev, rfl, nofun, nofun⟩

theorem SameLive.loadProfile (h : SameLive s s') (f : SampleRate) (r : Role) (p : TimingProfile) :
    SameLive (loadProfile f r p s) (loadProfile f r p s') :=
  { h with
    run := rfl, state := rfl, hiCnt := rfl, profiled := fun _ => rfl, framed := fun _ => nofun }

theorem SameLive.configError (h : SameLive s s') {i i' : Nat} :
    SameLive (takeError .config i s) (takeError .config i' s') :=
  { h with run := rfl, state := rfl, profiled := nofun, framed := nofun }

/-- A frame-local error reads the start of the frame, and leaves no register of it live. -/
theorem SameLive.frameError (h : SameLive s s') (hstart : s.frameStart = s'.frameStart)
    {j : Nat} (hi : i = j) (e : FrameError) :
    SameLive (takeError (.frameLocal e) i s) (takeError (.frameLocal e) j s') :=
  { h.emit (e := ⟨s.frameStart, i, .error e⟩) (e' := ⟨s'.frameStart, j, .error e⟩)
      (by rw [hstart, hi]) with
    state := rfl, hiCnt := rfl, framed := fun _ => nofun }

theorem SameLive.countHigh (h : SameLive s s') {k k' : Nat} (hk : k = k') :
    SameLive { s with hiCnt := k } { s' with hiCnt := k' } :=
  { h with hiCnt := hk, framed := fun hr hs => { h.framed hr hs with } }

theorem SameLive.toIdle (h : SameLive s s') :
    SameLive { s with state := .idle } { s' with state := .idle } :=
  { h with state := rfl, framed := fun _ => nofun }

theorem SameLive.startFrame (h : SameLive s s') : SameLive (startFrame i s) (startFrame i s') :=
  { h with state := rfl, framed := fun _ _ => sameFrame_startFrame }

theorem SameLive.completeCell (h : SameLive s s') (hf : SameFrame s s') (hp : s.phase = .bitHigh) :
    SameLive (completeCell i s) (completeCell i s') :=
  { h.emit (e := ⟨s.bitStart, i, .bit s.bitVal⟩) (e' := ⟨s'.bitStart, i, .bit s'.bitVal⟩)
      (by rw [hf.bitStart, hf.bitVal hp]) with
    framed := fun _ _ => hf.completeCell hp }

/-- Once the lengths are live, AfterByte begins the same stop bit or the same byte. -/
theorem SameFrame.afterByte (hf : SameFrame s s') (h : SameLive s s') (hlen : SameLengths s s')
    {k k' len len' : Length6} {j : Nat} (hk : k = k') (hl : len = len') (hi : i = j) :
    SameLive (afterByte k len i s) (afterByte k' len' j s') := by
  subst hk hl hi
  unfold Machine.afterByte
  split
  · exact { h with framed := fun _ _ => hf.startStop hlen }
  · exact { h with framed := fun _ _ => hf.startByte hlen }

theorem SameLive.recognise (h : SameLive s s') (hf : SameFrame s s') (op : Byte) (c r : Length6) :
    SameLive (recognise op c r s) (recognise op c r s') := by
  have hemit := h.emit (e := ⟨s.byteStart, s.cursor, .command op true⟩)
    (e' := ⟨s'.byteStart, s'.cursor, .command op true⟩) (by rw [hf.byteStart, h.cursor_eq])
  have hframe := (hf.emit ⟨s.byteStart, s.cursor, .command op true⟩
    ⟨s'.byteStart, s'.cursor, .command op true⟩).latch op c r
  exact hframe.afterByte { hemit with framed := fun _ _ => hframe } ⟨rfl, rfl⟩ rfl rfl h.cursor_eq

theorem SameLive.unknownOpcode (h : SameLive s s') (hf : SameFrame s s') {v v' : Byte}
    (hv : v = v') : SameLive (unknownOpcode v s) (unknownOpcode v' s') := by
  subst hv
  have hemit : SameLive
      (Machine.emit ⟨s.byteStart, s.cursor, .command v false⟩ { s with opcode := v })
      (Machine.emit ⟨s'.byteStart, s'.cursor, .command v false⟩ { s' with opcode := v }) :=
    { h.emit (e := ⟨s.byteStart, s.cursor, .command v false⟩)
        (e' := ⟨s'.byteStart, s'.cursor, .command v false⟩) (by rw [hf.byteStart, h.cursor_eq]) with
      framed := fun _ _ => { hf with } }
  exact hemit.frameError hf.frameStart h.cursor_eq .unknownCommand

/-- A data byte of either segment is emitted and counted, against the length of its segment. -/
theorem SameLive.dataDone (h : SameLive s s') (hf : SameFrame s s') (hlen : SameLengths s s')
    {pl pl' : Payload} (hpl : pl = pl') {len len' : Length6} (hl : len = len') :
    SameLive
      (Machine.afterByte (s.byteIdx + 1) len i
        { Machine.emit ⟨s.byteStart, i, pl⟩ s with byteIdx := s.byteIdx + 1 })
      (Machine.afterByte (s'.byteIdx + 1) len' i
        { Machine.emit ⟨s'.byteStart, i, pl'⟩ s' with byteIdx := s'.byteIdx + 1 }) := by
  have hemit := h.emit (e := ⟨s.byteStart, i, pl⟩) (e' := ⟨s'.byteStart, i, pl'⟩)
    (by rw [hf.byteStart, hpl])
  have hframe := (hf.emit ⟨s.byteStart, i, pl⟩ ⟨s'.byteStart, i, pl'⟩).countByte hlen
  exact hframe.afterByte { hemit with framed := fun _ _ => hframe } hlen
    (congrArg (· + 1) hf.byteIdx) hl rfl

theorem SameLive.commandDataDone (h : SameLive s s') (hf : SameFrame s s')
    (hlen : SameLengths s s') {v v' : Byte} (hv : v = v') :
    SameLive (commandDataDone v i s) (commandDataDone v' i s') :=
  h.dataDone hf hlen (congrArg _ hv) hlen.1

theorem SameLive.responseDataDone (h : SameLive s s') (hf : SameFrame s s')
    (hlen : SameLengths s s') {v v' : Byte} (hv : v = v') :
    SameLive (responseDataDone v i s) (responseDataDone v' i s') :=
  h.dataDone hf hlen (congrArg _ hv) hlen.2

end Live

/-! ### The simulation -/

/-- The state in which SegmentDone does its work: the stop bit has been emitted. -/
abbrev stopped (rest : List InputEvent) (s : State) : State :=
  emit ⟨s.stopStart, s.n, .stopBit s.stopBitWidth⟩ (taken rest s)

/-- A sample inside a frame finds both states in the same phase of it. -/
theorem SameLive.waiting (h : SameLive s s') {p : Phase} {x : Bool} {rest : List InputEvent}
    (hw : Waiting s p x rest) :
    Waiting s' p x rest ∧ SameFrame s s' ∧ loaded s = loaded s' := by
  obtain ⟨hr, hs, hp, hin⟩ := hw
  have hf := h.framed hr hs
  exact ⟨⟨h.run ▸ hr, h.state ▸ hs, hf.phase ▸ hp, h.input ▸ hin⟩, hf, h.profiled hr⟩

/-- A wait that sees no edge counts in both states. -/
theorem SameLive.countWait (h : SameLive s s') (hf : SameFrame s s') (rest : List InputEvent) :
    SameLive { Machine.taken rest s with tmr := s.tmr + 1 }
      { Machine.taken rest s' with tmr := s'.tmr + 1 } :=
  { h.taken rest with
    framed := fun _ _ => (hf.taken rest).count (congrArg (· + 1) hf.tmr) }

/-- The falling edge of a cell completes the same cell in both states. -/
theorem SameLive.assembled (h : SameLive s s') {rest : List InputEvent}
    (hw : Waiting s .bitHigh false rest) :
    Waiting s' .bitHigh false rest ∧ SameLive (assembled rest s) (assembled rest s') ∧
      SameFrame (Machine.assembled rest s) (Machine.assembled rest s') := by
  obtain ⟨hw', hf, -⟩ := h.waiting hw
  obtain ⟨-, -, hp, -⟩ := hw
  have hf' := hf.taken rest
  unfold Machine.assembled
  rw [← h.n]
  exact ⟨hw', (h.taken rest).completeCell hf' hp, hf'.completeCell hp⟩

/-- The rising edge of a stop bit emits the same event in both states. -/
theorem SameLive.emitStop (h : SameLive s s') {rest : List InputEvent}
    (hw : Waiting s .stopLow true rest) :
    Waiting s' .stopLow true rest ∧ SameFrame (stopped rest s) (stopped rest s') ∧
      SameLive (stopped rest s) (stopped rest s') := by
  obtain ⟨hw', hf, hp⟩ := h.waiting hw
  obtain ⟨-, -, hphase, -⟩ := hw
  obtain ⟨-, -, -, -, hstop⟩ := loaded_eq_iff.1 hp
  exact ⟨hw', (hf.taken rest).emit _ _,
    (h.taken rest).emit (by rw [hf.stopStart hphase, h.n, hstop])⟩

/-- Every row of the table that one state takes, the other takes too. -/
theorem SameLive.transition (h : SameLive s s') (ht : Transition s t) :
    ∃ t', Transition s' t' ∧ SameLive t t' := by
  have hn := h.n
  cases ht with
  | noInput hin => exact ⟨_, .noInput (h.input ▸ hin), h⟩
  | reset rest hin =>
    exact ⟨_, .reset rest (h.input ▸ hin), sameLive_hardReset rfl h.events⟩
  | configureIgnored rest f r hin hr =>
    exact ⟨_, .configureIgnored rest f r (h.input ▸ hin) (h.run ▸ hr), h.beginStep rest⟩
  | configureFails rest f r hin hr hp =>
    exact ⟨_, .configureFails rest f r (h.input ▸ hin) (h.run ▸ hr) hp,
      (h.beginStep rest).configError⟩
  | configureLoads rest f r p hin hr hp =>
    exact ⟨_, .configureLoads rest f r p (h.input ▸ hin) (h.run ▸ hr) hp,
      (h.beginStep rest).loadProfile f r p⟩
  | notConfigured rest x hin hr =>
    exact ⟨_, .notConfigured rest x (h.input ▸ hin) (h.run ▸ hr), (h.taken rest).configError⟩
  | ignored rest x hin hr =>
    exact ⟨_, .ignored rest x (h.input ▸ hin) (h.run ▸ hr), h.taken rest⟩
  | idleReached rest hin hr hs hc =>
    obtain ⟨hidle, -⟩ := loaded_eq_iff.1 (h.profiled hr)
    rw [h.hiCnt, hidle] at hc
    exact ⟨_, .idleReached rest (h.input ▸ hin) (h.run ▸ hr) (h.state ▸ hs) hc,
      ((h.taken rest).countHigh (congrArg (· + 1) h.hiCnt)).toIdle⟩
  | highCounted rest hin hr hs hc =>
    obtain ⟨hidle, -⟩ := loaded_eq_iff.1 (h.profiled hr)
    rw [h.hiCnt, hidle] at hc
    exact ⟨_, .highCounted rest (h.input ▸ hin) (h.run ▸ hr) (h.state ▸ hs) hc,
      (h.taken rest).countHigh (congrArg (· + 1) h.hiCnt)⟩
  | lowInInitial rest hin hr hs =>
    exact ⟨_, .lowInInitial rest (h.input ▸ hin) (h.run ▸ hr) (h.state ▸ hs),
      (h.taken rest).countHigh rfl⟩
  | idleHigh rest hin hr hs =>
    exact ⟨_, .idleHigh rest (h.input ▸ hin) (h.run ▸ hr) (h.state ▸ hs), h.taken rest⟩
  | frameStarts rest hin hr hs =>
    exact ⟨_, .frameStarts rest (h.input ▸ hin) (h.run ▸ hr) (h.state ▸ hs),
      hn ▸ (h.taken rest).startFrame⟩
  | lowEnds rest hw =>
    obtain ⟨hw', hf, hp⟩ := h.waiting hw
    obtain ⟨-, hmid, -⟩ := loaded_eq_iff.1 hp
    have hf' := (hf.taken rest).endLow (d := s.tmr + 1) (d' := s'.tmr + 1)
      (congrArg₂ (fun d m => classify (d + 1) m) hf.tmr hmid)
    exact ⟨_, .lowEnds rest hw', { h.taken rest with framed := fun _ _ => hf' }⟩
  | lowTimesOut rest hw ht =>
    obtain ⟨hw', hf, hp⟩ := h.waiting hw
    exact ⟨_, .lowTimesOut rest hw' ((hf.bitTimeout_iff hp).1 ht),
      (h.taken rest).frameError hf.frameStart hn _⟩
  | lowCounts rest hw ht =>
    obtain ⟨hw', hf, hp⟩ := h.waiting hw
    exact ⟨_, .lowCounts rest hw' (mt (hf.bitTimeout_iff hp).2 ht), h.countWait hf rest⟩
  | highTimesOut rest hw ht =>
    obtain ⟨hw', hf, hp⟩ := h.waiting hw
    exact ⟨_, .highTimesOut rest hw' ((hf.bitTimeout_iff hp).1 ht),
      (h.taken rest).frameError hf.frameStart hn _⟩
  | highCounts rest hw ht =>
    obtain ⟨hw', hf, hp⟩ := h.waiting hw
    exact ⟨_, .highCounts rest hw' (mt (hf.bitTimeout_iff hp).2 ht), h.countWait hf rest⟩
  | cellDone rest hw hb =>
    obtain ⟨hw', hl, hf⟩ := h.assembled hw
    refine ⟨_, .cellDone rest hw' (hf.bitCnt ▸ hb), ?_⟩
    rw [← hn]
    exact { hl with framed := fun _ _ => hf.nextCell }
  | opcodeKnown rest c hw hb ho hd =>
    obtain ⟨hw', hl, hf⟩ := h.assembled hw
    have hv : shiftIn s.shreg s.bitVal = shiftIn s'.shreg s'.bitVal := hf.shreg
    exact ⟨_, .opcodeKnown rest c hw' (hf.bitCnt ▸ hb) (hf.inOpcode_iff.1 ho) (hv ▸ hd),
      hl.recognise hf _ _ _⟩
  | opcodeUnknown rest hw hb ho hd =>
    obtain ⟨hw', hl, hf⟩ := h.assembled hw
    have hv : shiftIn s.shreg s.bitVal = shiftIn s'.shreg s'.bitVal := hf.shreg
    exact ⟨_, .opcodeUnknown rest hw' (hf.bitCnt ▸ hb) (hf.inOpcode_iff.1 ho) (hv ▸ hd),
      hl.unknownOpcode hf hf.shreg⟩
  | commandData rest hw hb hs hi =>
    obtain ⟨hw', hl, hf⟩ := h.assembled hw
    refine ⟨_, .commandData rest hw' (hf.bitCnt ▸ hb) (hf.seg ▸ hs) (hf.byteIdx ▸ hi), ?_⟩
    rw [← hn]
    exact hl.commandDataDone hf (hf.lengths_of_latched fun ⟨_, h0⟩ => hi h0) hf.shreg
  | responseData rest hw hb hs =>
    obtain ⟨hw', hl, hf⟩ := h.assembled hw
    refine ⟨_, .responseData rest hw' (hf.bitCnt ▸ hb) (hf.seg ▸ hs), ?_⟩
    rw [← hn]
    exact hl.responseDataDone hf (hf.lengths_of_latched fun ⟨hc, _⟩ => nomatch hc.symm.trans hs)
      hf.shreg
  | stopWaits rest hw =>
    obtain ⟨hw', -, -⟩ := h.waiting hw
    exact ⟨_, .stopWaits rest hw', h.taken rest⟩
  | commandStops rest hw hs =>
    obtain ⟨hw', hf, hl⟩ := h.emitStop hw
    have hf' := hf.waitResponse (hf.lengths_of_phase (.inl (phase_of_waiting (s := s) hw)))
    exact ⟨_, .commandStops rest hw' (hf.seg ▸ hs), { hl with framed := fun _ _ => hf' }⟩
  | responseStops rest hw hs =>
    obtain ⟨hw', hf, hl⟩ := h.emitStop hw
    exact ⟨_, .responseStops rest hw' (hf.seg ▸ hs), hl.toIdle⟩
  | responseTimesOut rest hw ht =>
    obtain ⟨hw', hf, hp⟩ := h.waiting hw
    exact ⟨_, .responseTimesOut rest hw' ((hf.responseTimeout_iff hp).1 ht),
      (h.taken rest).frameError hf.frameStart hn _⟩
  | gapCounts rest hw ht =>
    obtain ⟨hw', hf, hp⟩ := h.waiting hw
    exact ⟨_, .gapCounts rest hw' (mt (hf.responseTimeout_iff hp).2 ht), h.countWait hf rest⟩
  | responseBegins rest hw hl =>
    obtain ⟨hw', hf, -⟩ := h.waiting hw
    have hlen := hf.lengths_of_phase (.inr (phase_of_waiting hw))
    have hf' := (hf.taken rest).beginResponse hlen
    refine ⟨_, .responseBegins rest hw' (hlen.2 ▸ hl), ?_⟩
    rw [← hn]
    exact { h.taken rest with framed := fun _ _ => hf'.startByte hlen }
  | emptyResponse rest hw hl =>
    obtain ⟨hw', hf, -⟩ := h.waiting hw
    have hlen := hf.lengths_of_phase (.inr (phase_of_waiting hw))
    have hf' := (hf.taken rest).beginResponse hlen
    refine ⟨_, .emptyResponse rest hw' (hlen.2 ▸ hl), ?_⟩
    rw [← hn]
    exact { h.taken rest with framed := fun _ _ => hf'.startStop hlen }

/-- A step of one state is matched by a step of the other. -/
theorem SameLive.step (h : SameLive s s') (hs : step s = .next t) :
    ∃ t', step s' = .next t' ∧ SameLive t t' := by
  obtain ⟨t', ht', hl⟩ := h.transition (transition_of_step hs)
  exact ⟨t', step_of_transition ht', hl⟩

/-- A run of one state is matched by a run of the other, by induction on its length. -/
theorem SameLive.runSteps {k : Nat} (h : SameLive s s') (hs : runSteps k s = .next t) :
    ∃ t', runSteps k s' = .next t' ∧ SameLive t t' := by
  induction k generalizing s s' with
  | zero => cases hs; exact ⟨s', rfl, h⟩
  | succ k ih =>
    obtain ⟨u, hu, hrun⟩ := runSteps_succ_inv hs
    obtain ⟨u', hu', hl⟩ := h.step hu
    obtain ⟨t', ht', hl'⟩ := ih hl hrun
    exact ⟨t', (runSteps_succ hu').trans ht', hl'⟩

/-- Settles O50: outside a frame no register of a frame is live, so the two states are in the
simulation, which every run keeps and which decides the outputs and the events. -/
theorem deadRegistersNeverReachAnOutput : Obligations.DeadRegistersNeverReachAnOutput := by
  intro s s' hrun hstate hn hhi hin hev hcount hprof k t hsteps
  have hlive : SameLive s s' :=
    { run := hrun, state := hstate, n := hn, hiCnt := hhi, input := hin, events := hev
      evCount := hcount
      profiled := fun hr => by
        obtain ⟨-, hidle, hmid, hbit, hrsp, hstop⟩ := hprof hr
        exact loaded_eq_iff.2 ⟨hidle, hmid, hbit, hrsp, hstop⟩
      framed := fun hr hs => absurd hs (hprof hr).1 }
  obtain ⟨t', ht', hl⟩ := hlive.runSteps hsteps
  exact ⟨t', ht', hl.outputs_eq, hl.events⟩

end Sys2Proof.Machine
end

section
/-! The encodings of 20_memory.md: the wire order of a byte's bits, and the port record of an event. -/

namespace Sys2Proof.Machine

/-! ### The bits of a byte in wire order -/

/-- The shift law, bit by bit: the new bit is bit 0, and every other bit comes from below (R150). -/
theorem shiftIn_getLsbD (v : Byte) (b : Bool) (j : Nat) :
    (shiftIn v b).getLsbD j = if j = 0 then b else decide (j < 8) && v.getLsbD (j - 1) := by
  have hmask : ∀ u : Byte, u &&& 0xFF = u := by decide
  rw [shiftIn, hmask]
  cases j with
  | zero => cases b <;> simp
  | succ j => cases b <;> simp [BitVec.getLsbD_one]

/-- Cell `k` of some cells is bit `length - 1 - k` of the shift register after them, if that is one of
its eight bits: by induction on the cells from the last one, which is bit 0. -/
theorem shiftCells_getLsbD (midpoint : Nat) (v : Byte) (cs : List Cell) {k : Nat} {c : Cell}
    (hc : cs[k]? = some c) (hk : cs.length ≤ k + 8) :
    (shiftCells midpoint v cs).getLsbD (cs.length - 1 - k) = decide (c.low ≤ midpoint) := by
  induction cs using List.reverseRecOn with
  | nil => simp at hc
  | append_singleton cs last ih =>
    have hsplit : shiftCells midpoint v (cs ++ [last]) =
        shiftIn (shiftCells midpoint v cs) (classify last.low midpoint) := by
      simp [shiftCells]
    rw [hsplit, shiftIn_getLsbD, List.length_append, List.length_singleton, Nat.add_sub_cancel]
    rw [List.length_append, List.length_singleton] at hk
    rcases Nat.lt_trichotomy k cs.length with hlt | rfl | hgt
    · rw [List.getElem?_append_left hlt] at hc
      have hbit := ih hc (by omega)
      rw [if_neg (by omega), decide_eq_true (by omega), Bool.true_and,
        Nat.sub_right_comm, hbit]
    · obtain rfl : last = c := by simpa using hc
      simp [classify_eq]
    · rw [List.getElem?_eq_none (by simpa using hgt)] at hc
      cases hc

/-- Settles O9: the eight cells' byte is the shift register after them, from 0. -/
theorem firstCellIsMostSignificant : Obligations.FirstCellIsMostSignificant := by
  intro midpoint cs k c hlen hc
  have hbit := shiftCells_getLsbD midpoint 0 cs hc (by omega)
  rwa [hlen] at hbit

/-! ### The port record of an event -/

/-- The error of a cause code (60_exceptions.md R241); the code 0 is never produced. -/
def frameErrorOfCode (c : BitVec 2) : FrameError :=
  if c = 1 then .bitTimeout else if c = 2 then .unknownCommand else .responseTimeout

theorem frameErrorOfCode_code (e : FrameError) : frameErrorOfCode e.code = e := by
  cases e <;> rfl

/-- What a host reads back from a record: the payload of the record's kind code (20_memory.md R64). -/
def EventRecord.payload (r : EventRecord) : Payload :=
  match r.kind.toNat with
  | 0 => .command r.data r.known
  | 1 => .commandData r.data
  | 2 => .responseData r.data
  | 3 => .bit (r.data == 1)
  | 4 => .stopBit r.width
  | _ => .error (frameErrorOfCode r.cause)

/-- The event that a record stands for. -/
def EventRecord.event (r : EventRecord) : Event := ⟨r.start, r.stop, r.payload⟩

/-- Reading a record back gives the event, kind by kind. -/
theorem record_event : Function.LeftInverse EventRecord.event Event.record := by
  rintro ⟨a, b, p⟩
  cases p with
  | command op known => rfl
  | commandData v => rfl
  | responseData v => rfl
  | bit value => cases value <;> rfl
  | stopBit w => rfl
  | error cause => exact congrArg (fun e => Event.mk a b (.error e)) (frameErrorOfCode_code cause)

/-- Settles O47: the record of each kind is its definition's row, and it can be read back. -/
theorem eventRecordIsFaithful : Obligations.EventRecordIsFaithful :=
  ⟨fun _ _ _ _ => rfl, fun _ _ _ => rfl, fun _ _ _ => rfl, fun _ _ => rfl, fun _ _ => rfl,
    fun _ _ _ => rfl, fun _ _ => rfl, fun _ _ => rfl, fun _ _ => rfl, fun _ _ => rfl,
    fun _ _ => rfl, fun _ _ => rfl, fun _ _ h => record_event.injective h⟩

end Sys2Proof.Machine
end

section
/-! The order of the event stream (20_memory.md R75). A kind of event has at most one open span at a
time; a step closes open spans at the sample it consumes, with one event each, and opens new ones there. -/

namespace Sys2Proof.Machine

/-! ### The open spans of a state -/

/-- The kinds among which R75 (d) orders spans; the three byte-level kinds count as one. -/
inductive SpanKind where
  | bit
  | byte
  | stopBit
  | error

/-- The kind of an event's span (20_memory.md R65, R68). -/
def Event.spanKind (e : Event) : SpanKind :=
  match e.payload with
  | .command _ _ => .byte
  | .commandData _ => .byte
  | .responseData _ => .byte
  | .bit _ => .bit
  | .stopBit _ => .stopBit
  | .error _ => .error

theorem isBit_iff (e : Event) : e.isBit = true ↔ e.spanKind = .bit := by
  obtain ⟨_, _, p⟩ := e
  cases p <;> simp [Event.isBit, Event.spanKind]

theorem byte?_isSome_iff (e : Event) : e.byte?.isSome = true ↔ e.spanKind = .byte := by
  obtain ⟨_, _, p⟩ := e
  cases p <;> simp [Event.byte?, Event.spanKind]

theorem isStopBit_iff (e : Event) : e.isStopBit = true ↔ e.spanKind = .stopBit := by
  obtain ⟨_, _, p⟩ := e
  cases p <;> simp [Event.isStopBit, Event.spanKind]

theorem isError_iff (e : Event) : e.isError = true ↔ e.spanKind = .error := by
  obtain ⟨_, _, p⟩ := e
  cases p <;> simp [Event.isError, Event.spanKind]

/-- The four ways of R75 (d) in which two events are of one kind. -/
theorem spanKind_eq_of_sameKind {a b : Event}
    (h : (a.isBit = true ∧ b.isBit = true) ∨ (a.byte?.isSome = true ∧ b.byte?.isSome = true) ∨
      (a.isStopBit = true ∧ b.isStopBit = true) ∨ (a.isError = true ∧ b.isError = true)) :
    a.spanKind = b.spanKind := by
  simp only [isBit_iff, byte?_isSome_iff, isStopBit_iff, isError_iff] at h
  rcases h with ⟨ha, hb⟩ | ⟨ha, hb⟩ | ⟨ha, hb⟩ | ⟨ha, hb⟩ <;> exact ha.trans hb.symm

variable {s t : State} {new evs : List Event} {k : SpanKind} {p : Nat}

/-- The two phases of a bit cell, low and high (R33). -/
def Phase.inCell (p : Phase) : Prop := p = .bitLow ∨ p = .bitHigh

theorem not_inCell_stopLow : ¬ Phase.stopLow.inCell := by
  rintro (h | h) <;> cases h

theorem not_inCell_rspWait : ¬ Phase.rspWait.inCell := by
  rintro (h | h) <;> cases h

/-- A span of kind `k` is open at `p`: the frame's in every phase of COMMAND, the byte's and the cell's
inside a byte, and the stop bit's inside a stop bit (10_state.md R34). -/
def OpenAt (s : State) (k : SpanKind) (p : Nat) : Prop :=
  s.run = .running ∧ s.state = .command ∧
    match k with
    | .error => p = s.frameStart
    | .byte => s.phase.inCell ∧ p = s.byteStart
    | .bit => s.phase.inCell ∧ p = s.bitStart
    | .stopBit => s.phase = .stopLow ∧ p = s.stopStart

theorem OpenAt.state_eq (h : OpenAt s k p) : s.state = .command := h.2.1

/-- After ByteStart at `i` the byte's and the cell's spans are open there (R148); the frame's is
kept. -/
theorem openAt_startByte {i : Nat} (h : OpenAt (startByte i s) k p) :
    p = i ∨ k = .error ∧ OpenAt s k p := by
  obtain ⟨hr, hs, hk⟩ := h
  cases k with
  | error => exact .inr ⟨rfl, hr, hs, hk⟩
  | byte => exact .inl hk.2
  | bit => exact .inl hk.2
  | stopBit => cases hk.1

/-- After StopStart at `i` the stop bit's span is open there (R157); the frame's is kept. -/
theorem openAt_startStop {i : Nat} (h : OpenAt (startStop i s) k p) :
    p = i ∨ k = .error ∧ OpenAt s k p := by
  obtain ⟨hr, hs, hk⟩ := h
  cases k with
  | error => exact .inr ⟨rfl, hr, hs, hk⟩
  | byte => exact absurd hk.1 not_inCell_stopLow
  | bit => exact absurd hk.1 not_inCell_stopLow
  | stopBit => exact .inl hk.2

theorem openAt_afterByte {i : Nat} {j len : Length6} (h : OpenAt (afterByte j len i s) k p) :
    p = i ∨ k = .error ∧ OpenAt s k p := by
  rcases afterByte_cases j len i s with ⟨-, heq⟩ | ⟨-, heq⟩ <;> rw [heq] at h
  · exact openAt_startStop h
  · exact openAt_startByte h

theorem openAt_recognise {op : Byte} {c r : Length6} (h : OpenAt (recognise op c r s) k p) :
    p = s.cursor ∨ k = .error ∧ OpenAt s k p :=
  (openAt_afterByte h :)

theorem openAt_commandDataDone {v : Byte} {i : Nat} (h : OpenAt (commandDataDone v i s) k p) :
    p = i ∨ k = .error ∧ OpenAt s k p :=
  (openAt_afterByte h :)

theorem openAt_responseDataDone {v : Byte} {i : Nat} (h : OpenAt (responseDataDone v i s) k p) :
    p = i ∨ k = .error ∧ OpenAt s k p :=
  (openAt_afterByte h :)

/-- A frame that starts at `i` has all its spans open there (R176). -/
theorem openAt_startFrame {i : Nat} (h : OpenAt (startFrame i s) k p) : p = i := by
  obtain ⟨-, -, hk⟩ := h
  cases k with
  | error => exact hk
  | byte => exact hk.2
  | bit => exact hk.2
  | stopBit => cases hk.1

/-- The next cell of a byte begins at `i`, inside the spans of the byte and of the frame (R144). -/
theorem openAt_nextCell {i : Nat} (hp : s.phase.inCell) (h : OpenAt (nextCell i s) k p) :
    p = i ∨ k ≠ .bit ∧ OpenAt s k p := by
  obtain ⟨hr, hs, hk⟩ := h
  cases k with
  | error => exact .inr ⟨nofun, hr, hs, hk⟩
  | byte => exact .inr ⟨nofun, hr, hs, hp, hk.2⟩
  | bit => exact .inl hk.2
  | stopBit => cases hk.1

/-- The rising edge inside a cell leaves open what was open (R142). -/
theorem openAt_bitHigh (hp : s.phase.inCell) (h : OpenAt { s with phase := .bitHigh } k p) :
    OpenAt s k p := by
  obtain ⟨hr, hs, hk⟩ := h
  cases k with
  | error => exact ⟨hr, hs, hk⟩
  | byte => exact ⟨hr, hs, hp, hk.2⟩
  | bit => exact ⟨hr, hs, hp, hk.2⟩
  | stopBit => cases hk.1

/-- In RSP_WAIT only the frame's span is open. -/
theorem openAt_rspWait (h : OpenAt { s with phase := .rspWait } k p) : k = .error ∧ OpenAt s k p := by
  obtain ⟨hr, hs, hk⟩ := h
  cases k with
  | error => exact ⟨rfl, hr, hs, hk⟩
  | byte => exact absurd hk.1 not_inCell_rspWait
  | bit => exact absurd hk.1 not_inCell_rspWait
  | stopBit => cases hk.1

/-- A completed cell opens and closes nothing by itself: the phase decides what begins next. -/
theorem openAt_assembled {rest : List InputEvent} : OpenAt (assembled rest s) k p ↔ OpenAt s k p := by
  simp [OpenAt]

/-! ### What one step does to them -/

/-- The events `new` of a step from `s` to `t`: each closes an open span at the sample `s.n`, which the
step consumes, no two the same one; and what is open in `t` was opened at that sample, or was open and
is not closed. -/
structure Emission (s t : State) (new : List Event) : Prop where
  appended : t.events = s.events ++ new
  counted : s.n ≤ t.n
  closes : ∀ e ∈ new, OpenAt s e.spanKind e.start ∧ e.stop = s.n ∧ s.n < t.n
  distinct : new.Pairwise (fun a b => a.spanKind ≠ b.spanKind)
  opens : ∀ k p, OpenAt t k p →
    (p = s.n ∧ s.n < t.n) ∨ (OpenAt s k p ∧ ∀ e ∈ new, e.spanKind ≠ k)

/-- A step without events. -/
theorem Emission.silent (hev : t.events = s.events) (hn : s.n ≤ t.n)
    (hopen : ∀ k p, OpenAt t k p → (p = s.n ∧ s.n < t.n) ∨ OpenAt s k p) : Emission s t [] where
  appended := by simp [hev]
  counted := hn
  closes := nofun
  distinct := .nil
  opens k p h := (hopen k p h).imp_right fun hs => ⟨hs, nofun⟩

/-- A step that takes the frame-local error at the sample it consumes, and emits nothing else. -/
theorem emission_takeError {e : FrameError} {rest : List InputEvent} (hr : s.run = .running)
    (hs : s.state = .command) :
    Emission s (takeError (.frameLocal e) s.n (taken rest s)) [⟨s.frameStart, s.n, .error e⟩] where
  appended := rfl
  counted := Nat.le_succ s.n
  closes := List.forall_mem_singleton.2 ⟨⟨hr, hs, rfl⟩, rfl, Nat.lt_succ_self s.n⟩
  distinct := List.pairwise_singleton ..
  opens _ _ h := nomatch h.state_eq

/-- A completed cell within a byte closes its span, and the next cell begins there. -/
theorem emission_cellDone {rest : List InputEvent} (h : Waiting s .bitHigh false rest) :
    Emission s (nextCell s.n (assembled rest s)) [⟨s.bitStart, s.n, .bit s.bitVal⟩] where
  appended := rfl
  counted := Nat.le_succ s.n
  closes := by
    obtain ⟨hr, hs, hp, -⟩ := h
    exact List.forall_mem_singleton.2 ⟨⟨hr, hs, .inr hp, rfl⟩, rfl, Nat.lt_succ_self s.n⟩
  distinct := List.pairwise_singleton ..
  opens k p ho := by
    obtain ⟨-, -, hp, -⟩ := h
    rcases openAt_nextCell (s := assembled rest s) (.inr hp) ho with hp | ⟨hk, hs⟩
    · exact .inl ⟨hp, Nat.lt_succ_self s.n⟩
    · exact .inr ⟨openAt_assembled.1 hs, List.forall_mem_singleton.2 hk.symm⟩

/-- A completed byte closes the spans of its last cell and of itself; what is open after it began at
this sample or is the frame's. -/
theorem emission_byte {rest : List InputEvent} {pl : Payload} (h : Waiting s .bitHigh false rest)
    (hpl : ∀ a b, (Event.mk a b pl).spanKind = .byte) (hn : t.n = s.n + 1)
    (hev : t.events = s.events ++ [⟨s.bitStart, s.n, .bit s.bitVal⟩, ⟨s.byteStart, s.n, pl⟩])
    (hopen : ∀ k p, OpenAt t k p → p = s.n ∨ k = .error ∧ OpenAt (assembled rest s) k p) :
    Emission s t [⟨s.bitStart, s.n, .bit s.bitVal⟩, ⟨s.byteStart, s.n, pl⟩] where
  appended := hev
  counted := by omega
  closes := by
    obtain ⟨hr, hs, hp, -⟩ := h
    have hlt : s.n < t.n := by omega
    have hbyte : OpenAt s .byte s.byteStart := ⟨hr, hs, .inr hp, rfl⟩
    exact List.forall_mem_cons.2 ⟨⟨⟨hr, hs, .inr hp, rfl⟩, rfl, hlt⟩,
      List.forall_mem_singleton.2 ⟨hpl .. ▸ hbyte, rfl, hlt⟩⟩
  distinct := List.pairwise_pair.2 (by rw [hpl]; nofun)
  opens k p ho := by
    rcases hopen k p ho with hp | ⟨rfl, hs⟩
    · exact .inl ⟨hp, by omega⟩
    · exact .inr ⟨openAt_assembled.1 hs, List.forall_mem_cons.2
        ⟨nofun, List.forall_mem_singleton.2 (by rw [hpl]; nofun)⟩⟩

/-- An unknown opcode closes the spans of the cell, of the byte and of the frame (R180). -/
theorem emission_unknownOpcode {rest : List InputEvent} (h : Waiting s .bitHigh false rest)
    (v : Byte) :
    Emission s (unknownOpcode v (assembled rest s)) [⟨s.bitStart, s.n, .bit s.bitVal⟩,
      ⟨s.byteStart, s.n, .command v false⟩, ⟨s.frameStart, s.n, .error .unknownCommand⟩] where
  appended := by simp [assembled_cursor]
  counted := Nat.le_succ s.n
  closes := by
    obtain ⟨hr, hs, hp, -⟩ := h
    have hlt : s.n < s.n + 1 := Nat.lt_succ_self s.n
    exact List.forall_mem_cons.2 ⟨⟨⟨hr, hs, .inr hp, rfl⟩, rfl, hlt⟩, List.forall_mem_cons.2
      ⟨⟨⟨hr, hs, .inr hp, rfl⟩, rfl, hlt⟩, List.forall_mem_singleton.2
        ⟨⟨hr, hs, rfl⟩, rfl, hlt⟩⟩⟩
  distinct := by simp [Event.spanKind]
  opens _ _ ho := nomatch ho.state_eq

/-- The rising edge that ends a stop bit closes its span. -/
theorem emission_stopBit {rest : List InputEvent} (h : Waiting s .stopLow true rest)
    (hn : t.n = s.n + 1)
    (hev : t.events = s.events ++ [⟨s.stopStart, s.n, .stopBit s.stopBitWidth⟩])
    (hopen : ∀ k p, OpenAt t k p → k = .error ∧ OpenAt s k p) :
    Emission s t [⟨s.stopStart, s.n, .stopBit s.stopBitWidth⟩] where
  appended := hev
  counted := by omega
  closes := by
    obtain ⟨hr, hs, hp, -⟩ := h
    exact List.forall_mem_singleton.2 ⟨⟨hr, hs, hp, rfl⟩, rfl, by omega⟩
  distinct := List.pairwise_singleton ..
  opens k p ho := by
    obtain ⟨rfl, hs⟩ := hopen k p ho
    exact .inr ⟨hs, List.forall_mem_singleton.2 nofun⟩

/-- Every step but Reset closes and opens spans in this way, row by row of R192. -/
theorem emission_of_transition (h : Transition s t) (hreset : ∀ rest, s.input ≠ .reset :: rest) :
    ∃ new, Emission s t new := by
  have hlt : s.n < s.n + 1 := Nat.lt_succ_self s.n
  cases h with
  | noInput h => exact ⟨[], .silent rfl le_rfl fun _ _ => .inr⟩
  | reset rest h => exact absurd h (hreset rest)
  | configureIgnored rest f r h hr => exact ⟨[], .silent rfl le_rfl fun _ _ => .inr⟩
  | configureFails rest f r h hr hp =>
    exact ⟨[], .silent rfl le_rfl fun _ _ ho => nomatch ho.state_eq⟩
  | configureLoads rest f r p h hr hp =>
    exact ⟨[], .silent rfl le_rfl fun _ _ ho => nomatch ho.state_eq⟩
  | notConfigured rest x h hr => exact ⟨[], .silent rfl hlt.le fun _ _ ho => nomatch ho.state_eq⟩
  | ignored rest x h hr => exact ⟨[], .silent rfl hlt.le fun _ _ => .inr⟩
  | idleReached rest h hr hs hc => exact ⟨[], .silent rfl hlt.le fun _ _ ho => nomatch ho.state_eq⟩
  | highCounted rest h hr hs hc => exact ⟨[], .silent rfl hlt.le fun _ _ => .inr⟩
  | lowInInitial rest h hr hs => exact ⟨[], .silent rfl hlt.le fun _ _ => .inr⟩
  | idleHigh rest h hr hs => exact ⟨[], .silent rfl hlt.le fun _ _ => .inr⟩
  | frameStarts rest h hr hs =>
    exact ⟨[], .silent rfl hlt.le fun _ _ ho => .inl ⟨openAt_startFrame ho, hlt⟩⟩
  | lowEnds rest h =>
    obtain ⟨-, -, hp, -⟩ := h
    exact ⟨[], .silent rfl hlt.le fun _ _ ho => .inr (openAt_bitHigh (.inl hp) ho)⟩
  | lowTimesOut rest h ht =>
    obtain ⟨hr, hs, -, -⟩ := h
    exact ⟨_, emission_takeError hr hs⟩
  | lowCounts rest h ht => exact ⟨[], .silent rfl hlt.le fun _ _ => .inr⟩
  | highTimesOut rest h ht =>
    obtain ⟨hr, hs, -, -⟩ := h
    exact ⟨_, emission_takeError hr hs⟩
  | highCounts rest h ht => exact ⟨[], .silent rfl hlt.le fun _ _ => .inr⟩
  | cellDone rest h hb => exact ⟨_, emission_cellDone h⟩
  | opcodeKnown rest i h hb ho hd =>
    exact ⟨_, emission_byte h (pl := .command (encodeOpcode i) true)
      (fun _ _ => rfl) (by simp) (by simp [assembled_cursor]) fun _ _ hopen =>
        (openAt_recognise hopen).imp_left fun hp => hp.trans (assembled_cursor rest s)⟩
  | opcodeUnknown rest h hb ho hd => exact ⟨_, emission_unknownOpcode h _⟩
  | commandData rest h hb hs hi =>
    exact ⟨_, emission_byte h (pl := .commandData (shiftIn s.shreg s.bitVal))
      (fun _ _ => rfl) (by simp) (by simp) fun _ _ => openAt_commandDataDone⟩
  | responseData rest h hb hs =>
    exact ⟨_, emission_byte h (pl := .responseData (shiftIn s.shreg s.bitVal))
      (fun _ _ => rfl) (by simp) (by simp) fun _ _ => openAt_responseDataDone⟩
  | stopWaits rest h => exact ⟨[], .silent rfl hlt.le fun _ _ => .inr⟩
  | commandStops rest h hs =>
    exact ⟨_, emission_stopBit h rfl rfl fun _ _ ho => openAt_rspWait ho⟩
  | responseStops rest h hs =>
    exact ⟨_, emission_stopBit h rfl rfl fun _ _ ho => nomatch ho.state_eq⟩
  | responseTimesOut rest h ht =>
    obtain ⟨hr, hs, -, -⟩ := h
    exact ⟨_, emission_takeError hr hs⟩
  | gapCounts rest h ht => exact ⟨[], .silent rfl hlt.le fun _ _ => .inr⟩
  | responseBegins rest h hl =>
    exact ⟨[], .silent rfl hlt.le fun _ _ ho =>
      (openAt_startByte ho).imp (fun hp => ⟨hp, hlt⟩) And.right⟩
  | emptyResponse rest h hl =>
    exact ⟨[], .silent rfl hlt.le fun _ _ ho =>
      (openAt_startStop ho).imp (fun hp => ⟨hp, hlt⟩) And.right⟩

/-! ### What a run does to them -/

theorem tail_take_subset {α : Type} (xs : List α) (k : Nat) :
    xs.tail.take k ⊆ xs.take (k + 1) := by
  cases xs with
  | nil => simp
  | cons x xs => simp

/-- What every emission keeps of a state and the events since some moment, a run without Reset keeps: by
induction on its length. -/
theorem runSteps_induction {P : List Event → State → Prop}
    (hP : ∀ {evs new s t}, P evs s → Emission s t new → P (evs ++ new) t)
    {k : Nat} {evs : List Event} (h0 : P evs s) (hreset : ∀ e ∈ s.input.take k, e ≠ .reset)
    (hrun : runSteps k s = .next t) : ∃ new, t.events = s.events ++ new ∧ P (evs ++ new) t := by
  induction k generalizing s evs with
  | zero =>
    cases hrun
    exact ⟨[], by simp, by simpa using h0⟩
  | succ k ih =>
    obtain ⟨u, hu, hrun'⟩ := runSteps_succ_inv hrun
    have hhead : ∀ rest, s.input ≠ .reset :: rest := fun rest hin =>
      hreset .reset (by simp [hin]) rfl
    obtain ⟨new, hnew⟩ := emission_of_transition (transition_of_step hu) hhead
    have htail : ∀ e ∈ u.input.take k, e ≠ .reset := by
      rw [step_input hu]
      exact fun e he => hreset e (tail_take_subset s.input k he)
    obtain ⟨later, hlater, hPt⟩ := ih (hP h0 hnew) htail hrun'
    exact ⟨new ++ later, by rw [hlater, hnew.appended, List.append_assoc],
      by rwa [← List.append_assoc]⟩

/-- R75 (a) and (b) for the events since the cursor was at `base`. -/
structure StopsOrdered (base : Nat) (evs : List Event) (s : State) : Prop where
  started : base ≤ s.n
  consumed : ∀ e ∈ evs, base ≤ e.stop ∧ e.stop < s.n
  sorted : evs.Pairwise (fun a b => a.stop ≤ b.stop)

/-- The new events all end at the sample that the step consumes, which is past every earlier end. -/
theorem StopsOrdered.emit {base : Nat} (h : StopsOrdered base evs s) (he : Emission s t new) :
    StopsOrdered base (evs ++ new) t where
  started := h.started.trans he.counted
  consumed := List.forall_mem_append.2
    ⟨fun e hmem => by
      obtain ⟨hge, hlt⟩ := h.consumed e hmem
      exact ⟨hge, hlt.trans_le he.counted⟩,
      fun e hmem => by
        obtain ⟨-, hstop, hlt⟩ := he.closes e hmem
        exact hstop ▸ ⟨h.started, hlt⟩⟩
  sorted := List.pairwise_append.2
    ⟨h.sorted,
      he.distinct.imp_of_mem fun {a b} ha hb _ => by
        obtain ⟨-, hstop, -⟩ := he.closes a ha
        obtain ⟨-, hstop', -⟩ := he.closes b hb
        exact (hstop.trans hstop'.symm).le,
      fun a ha b hb => by
        obtain ⟨-, hstop, -⟩ := he.closes b hb
        exact hstop ▸ (h.consumed a ha).2.le⟩

/-- Settles O33: every step keeps `StopsOrdered`, from the run's first state on. -/
theorem eventStreamIsOrdered : Obligations.EventStreamIsOrdered := by
  intro k s t hreset hrun
  have h0 : StopsOrdered s.n [] s := ⟨le_rfl, nofun, .nil⟩
  obtain ⟨new, happ, hnew⟩ := runSteps_induction StopsOrdered.emit h0 hreset hrun
  exact ⟨new, happ, hnew.sorted, hnew.consumed⟩

/-- THE INVARIANT behind R75 (d): the events of one kind in `evs` are disjoint, and a span of that kind
that is still open begins at a consumed sample, after all of them. -/
structure SpansOrdered (evs : List Event) (s : State) : Prop where
  past : ∀ e ∈ evs, e.stop ≤ s.n
  nonempty : ∀ e ∈ evs, e.start < e.stop
  disjoint : evs.Pairwise (fun a b => a.spanKind = b.spanKind → a.stop ≤ b.start)
  opened : ∀ k p, OpenAt s k p → p < s.n ∧ ∀ e ∈ evs, e.spanKind = k → e.stop ≤ p

/-- The event that closes a span begins where the span was opened; a span that opens does so at the
consumed sample, where the latest events end. -/
theorem SpansOrdered.emit (h : SpansOrdered evs s) (he : Emission s t new) :
    SpansOrdered (evs ++ new) t where
  past := List.forall_mem_append.2
    ⟨fun e hmem => (h.past e hmem).trans he.counted, fun e hmem => by
      obtain ⟨-, hstop, hlt⟩ := he.closes e hmem
      exact hstop ▸ hlt.le⟩
  nonempty := List.forall_mem_append.2
    ⟨h.nonempty, fun e hmem => by
      obtain ⟨hopen, hstop, -⟩ := he.closes e hmem
      exact hstop ▸ (h.opened _ _ hopen).1⟩
  disjoint := List.pairwise_append.2
    ⟨h.disjoint, he.distinct.imp fun hne heq => absurd heq hne, fun a ha b hb heq => by
      obtain ⟨hopen, -, -⟩ := he.closes b hb
      exact (h.opened _ _ hopen).2 a ha heq⟩
  opened k p hopen := by
    rcases he.opens k p hopen with ⟨rfl, hlt⟩ | ⟨hold, hother⟩
    · refine ⟨hlt, List.forall_mem_append.2 ⟨fun e hmem _ => h.past e hmem, fun e hmem _ => ?_⟩⟩
      obtain ⟨-, hstop, -⟩ := he.closes e hmem
      exact hstop.le
    · obtain ⟨hlt, hle⟩ := h.opened k p hold
      exact ⟨hlt.trans_le he.counted,
        List.forall_mem_append.2 ⟨hle, fun e hmem heq => absurd heq (hother e hmem)⟩⟩

/-- Under the invariant the span latches in use are consumed samples (R34). -/
theorem PhaseInv.latches_lt (h : PhaseInv s) : s.byteStart < s.n ∧
    (s.phase.inCell → s.bitStart < s.n) ∧ (s.phase = .stopLow → s.stopStart < s.n) := by
  unfold PhaseInv at h
  cases hp : s.phase <;> simp only [hp] at h
  case bitLow =>
    obtain ⟨hbyte, hn, -⟩ := h
    exact ⟨by have := hbyte.ordered; omega, fun _ => by omega, nofun⟩
  case bitHigh =>
    obtain ⟨hbyte, hn, -⟩ := h
    exact ⟨by have := hbyte.ordered; omega, fun _ => by omega, nofun⟩
  case stopLow =>
    obtain ⟨-, -, hlt, hn⟩ := h
    exact ⟨by omega, fun hc => absurd hc not_inCell_stopLow, fun _ => hn⟩
  case rspWait =>
    obtain ⟨-, -, -, -, hlt, hn⟩ := h
    exact ⟨by omega, fun hc => absurd hc not_inCell_rspWait, nofun⟩

theorem Inv.openAt_lt (h : Inv s) (ho : OpenAt s k p) : p < s.n := by
  obtain ⟨hr, hs, hk⟩ := ho
  have hframe := h.framed hr hs
  obtain ⟨hbyte, hbit, hstop⟩ := hframe.inPhase.latches_lt
  cases k with
  | error => exact hk ▸ hframe.started.trans_lt hbyte
  | byte => exact hk.2 ▸ hbyte
  | bit => exact hk.2 ▸ hbit hk.1
  | stopBit => exact hk.2 ▸ hstop hk.1

/-- Settles O34: the invariant has no span open ahead of the cursor, and every step keeps
`SpansOrdered`; an event that starts where an earlier one ended or after starts after that one's start,
as no span is empty. -/
theorem spansOfOneKindAreDisjoint : Obligations.SpansOfOneKindAreDisjoint := by
  intro k s t hinv hreset hrun
  have h0 : SpansOrdered [] s := ⟨nofun, nofun, .nil, fun _ _ ho => ⟨hinv.openAt_lt ho, nofun⟩⟩
  obtain ⟨new, happ, hnew⟩ := runSteps_induction SpansOrdered.emit h0 hreset hrun
  rw [List.nil_append] at hnew
  refine ⟨new, happ, hnew.nonempty, hnew.disjoint.imp_of_mem fun {a b} ha _ hab hsame => ?_⟩
  have hle : a.stop ≤ b.start := hab (spanKind_eq_of_sameKind hsame)
  exact ⟨hle, (hnew.nonempty a ha).trans_le hle⟩

end Sys2Proof.Machine
end

section
/-! The opcode map and the byte form of frames (30_encoding.md R95 to R100). -/

namespace Sys2Proof

/-! ### Opcodes -/

/-- The decoder answers a command at that command's opcode byte and nowhere else (R98). -/
theorem decodeOpcode_eq_some_iff {b : Byte} {i : Instr} :
    decodeOpcode b = some i ↔ b = encodeOpcode i :=
  ⟨fun h => (encodeOpcode_of_decodeOpcode h).symm, fun h => h ▸ decodeOpcode_encodeOpcode i⟩

theorem decode_encodeOpcode (i : Instr) (rest : List Byte) :
    decode (encodeOpcode i :: rest) = .ok (i, rest) := by
  rw [decode_cons, decodeOpcode_encodeOpcode]

/-- What bytes the decoder accepts: a command's opcode byte, then any bytes. -/
theorem decode_eq_ok_iff {bs rest : List Byte} {i : Instr} :
    decode bs = .ok (i, rest) ↔ bs = encodeOpcode i :: rest := by
  refine ⟨fun h => ?_, fun h => h ▸ decode_encodeOpcode i rest⟩
  cases bs with
  | nil => cases h
  | cons b bs =>
    rw [decode_cons] at h
    cases hd : decodeOpcode b with
    | none => rw [hd] at h; cases h
    | some j =>
      rw [hd] at h
      cases h
      rw [decodeOpcode_eq_some_iff.1 hd]

/-- Settles O6: the seven known bytes are what the encoder writes, and 7 is no command's byte. -/
theorem opcodeBytesDecode : Obligations.OpcodeBytesDecode :=
  ⟨decode_encodeOpcode .info [], decode_encodeOpcode .writeEeprom [], decode_encodeOpcode .readGba [],
    decode_encodeOpcode .calibrate [], decode_encodeOpcode .fixDevice [],
    decode_encodeOpcode .keyboardPoll [], decode_encodeOpcode .reset [], by decide⟩

/-- An address of the table is empty when its byte is none of the 15 opcodes (R99). -/
theorem isNone_lookup (b : Byte) :
    (lookup b).isNone = !(Instr.all.map encodeOpcode).contains b := by
  rw [lookup_eq_decodeOpcode, Option.isNone_map]
  cases hd : decodeOpcode b with
  | some i =>
    have hmem : b ∈ Instr.all.map encodeOpcode :=
      List.mem_map.2 ⟨i, mem_all i, encodeOpcode_of_decodeOpcode hd⟩
    simpa using hmem
  | none =>
    have hmem : b ∉ Instr.all.map encodeOpcode := fun h => by
      obtain ⟨i, -, rfl⟩ := List.mem_map.1 h
      rw [decodeOpcode_encodeOpcode] at hd
      cases hd
    simpa using hmem

set_option maxRecDepth 4000 in
/-- Settles O7: the iff is `decodeOpcode_eq_some_iff`, the agreement with the table a law of the model,
and the count is over the bytes that are none of the 15 opcodes. -/
theorem opcodeMapIsExact : Obligations.OpcodeMapIsExact := by
  refine ⟨fun b i => decodeOpcode_eq_some_iff, lookup_eq_decodeOpcode, ?_⟩
  simp only [isNone_lookup]
  decide

/-! ### Frames -/

/-- Only the two counts of a frame can be wrong: its command is always well formed (R96). -/
theorem frame_wellFormed_iff (f : Frame) : f.wellFormed = true ↔
    f.cmdData.length + 1 = f.instr.spec.commandLen ∧
      f.rspData.length = f.instr.spec.responseLen := by
  simp [Frame.wellFormed, instr_wellFormed]

/-- The frame decoder after an opcode byte: the lengths of the table cut the bytes that follow in three,
or there are too few (R95, R100). -/
theorem decodeFrame_encodeOpcode (i : Instr) (xs : List Byte) :
    decodeFrame (encodeOpcode i :: xs) =
      if xs.length < i.spec.commandLen - 1 + i.spec.responseLen then .error (.tooShort i)
      else .ok (⟨i, xs.take (i.spec.commandLen - 1),
        (xs.drop (i.spec.commandLen - 1)).take i.spec.responseLen⟩,
        xs.drop (i.spec.commandLen - 1 + i.spec.responseLen)) := by
  simp only [decodeFrame, decode_encodeOpcode]

theorem exists_of_decodeFrame_eq_ok {bs : List Byte} {p : Frame × List Byte}
    (h : decodeFrame bs = .ok p) : ∃ i xs, bs = encodeOpcode i :: xs := by
  unfold decodeFrame at h
  cases hd : decode bs with
  | error e => rw [hd] at h; cases h
  | ok q => exact ⟨q.1, q.2, decode_eq_ok_iff.1 hd⟩

/-- Settles O8: encoding first, the lengths of the table are those of the two data fields, so the decoder
cuts the bytes where they were joined; decoding first, the three pieces join to the bytes again. -/
theorem frameBytesRoundTrip : Obligations.FrameBytesRoundTrip := by
  intro f bs rest
  rw [frame_wellFormed_iff]
  constructor
  · rintro ⟨⟨hcmd, hrsp⟩, rfl⟩
    have hbytes : encodeFrame f ++ rest =
        encodeOpcode f.instr :: (f.cmdData ++ (f.rspData ++ rest)) := by
      simp [encodeFrame, encode]
    rw [hbytes, decodeFrame_encodeOpcode, ← hcmd, ← hrsp, Nat.add_sub_cancel, if_neg (by simp)]
    simp
  · intro h
    obtain ⟨i, xs, rfl⟩ := exists_of_decodeFrame_eq_ok h
    rw [decodeFrame_encodeOpcode] at h
    obtain ⟨hpos, -⟩ := spec_bounds i
    split at h
    · cases h
    · next hlen =>
      cases h
      refine ⟨⟨?_, ?_⟩, ?_⟩
      · simp only [List.length_take]; omega
      · simp only [List.length_take, List.length_drop]; omega
      · simp only [encodeFrame, encode, ← List.drop_drop, List.append_assoc, List.cons_append,
          List.nil_append, List.take_append_drop]

end Sys2Proof
end

section
/-! The wire form of frames (30_encoding.md R90 to R97): an accepted frame on the wire, run from IDLE, gives
its events, and the bytes of those events are the frame's. -/

namespace Sys2Proof.Machine

variable {s u : State} {i : Instr} {g : Segment} {pos : Nat} {new : List Event}
  {rest : List InputEvent}

/-! ### A frame's samples, cut where the machine changes phase -/

theorem length_cellSamples (cs : List Cell) : (cs.flatMap Cell.samples).length = cellsLength cs := by
  induction cs with
  | nil => rfl
  | cons c cs ih => simp [ih, Cell.samples, Cell.length, Nat.add_assoc]

theorem WireFrame.length_samples (w : WireFrame) : w.samples.length =
    1 + cellsLength w.cmdBytes.flatten + w.cmdStop + w.gap + cellsLength w.rspBytes.flatten +
      w.rspStop := by
  simp only [WireFrame.samples, bytesSamples, List.length_append, length_cellSamples,
    List.length_replicate, List.length_singleton]
  omega

theorem WireFrame.samples_eq {w : WireFrame} {t : Nat} (hc : 1 ≤ w.cmdStop) (hg : 1 ≤ w.gap)
    (hr : 1 ≤ w.rspStop) (ha : w.rspBytes.all (acceptedByte t) = true) :
    w.samples = (bytesSamples w.cmdBytes ++ [false]) ++
      ((List.replicate (w.cmdStop - 1) false ++ [true]) ++
        ((List.replicate (w.gap - 1) true ++ [false]) ++
          ((bytesSamples w.rspBytes ++ [false]).tail ++
            (List.replicate (w.rspStop - 1) false ++ [true])))) := by
  have hfirst {k : Nat} (x : Bool) (hk : 1 ≤ k) :
      List.replicate k x = x :: List.replicate (k - 1) x := by
    rw [← List.replicate_succ, Nat.sub_add_cancel hk]
  have hrsp : [false] ++ (bytesSamples w.rspBytes ++ [false]).tail =
      bytesSamples w.rspBytes ++ [false] := (bytes_head ha).symm
  calc w.samples
      = bytesSamples w.cmdBytes ++ [false] ++ List.replicate (w.cmdStop - 1) false ++ [true] ++
          List.replicate (w.gap - 1) true ++ (bytesSamples w.rspBytes ++ [false]) ++
          List.replicate (w.rspStop - 1) false ++ [true] := by
        rw [WireFrame.samples, hfirst false hc, hfirst true hg, hfirst false hr]
        simp only [List.append_assoc, List.cons_append, List.nil_append]
    _ = bytesSamples w.cmdBytes ++ [false] ++ List.replicate (w.cmdStop - 1) false ++ [true] ++
          List.replicate (w.gap - 1) true ++
          ([false] ++ (bytesSamples w.rspBytes ++ [false]).tail) ++
          List.replicate (w.rspStop - 1) false ++ [true] := by rw [hrsp]
    _ = _ := by simp only [List.append_assoc]

/-- Each part ends with the sample that the machine answers by the next phase. -/
theorem WireFrame.presenting_samples {w : WireFrame} {t : Nat} (hc : 1 ≤ w.cmdStop)
    (hg : 1 ≤ w.gap) (hr : 1 ≤ w.rspStop) (ha : w.rspBytes.all (acceptedByte t) = true) :
    presenting w.samples rest =
      presenting (bytesSamples w.cmdBytes ++ [false])
        (presenting (List.replicate (w.cmdStop - 1) false ++ [true])
          (presenting (List.replicate (w.gap - 1) true ++ [false])
            (presenting (bytesSamples w.rspBytes ++ [false]).tail
              (presenting (List.replicate (w.rspStop - 1) false ++ [true]) rest)))) := by
  rw [WireFrame.samples_eq hc hg hr ha]
  simp only [presenting_append]

/-- The conditions of 42_frame_fsm.md R193 on a frame's stream, one by one. -/
theorem WireFrame.accepted_iff {m bt rt : Nat} {w : WireFrame} :
    w.accepted m bt rt i = true ↔
      w.cmdBytes.length = i.spec.commandLen ∧ w.rspBytes.length = i.spec.responseLen ∧
        cellsByte m (w.cmdBytes.headD []) = encodeOpcode i ∧
        w.cmdBytes.all (acceptedByte bt) = true ∧ w.rspBytes.all (acceptedByte bt) = true ∧
        1 ≤ w.cmdStop ∧ 1 ≤ w.gap ∧ w.gap ≤ rt ∧ 1 ≤ w.rspStop := by
  simp only [WireFrame.accepted, Bool.and_eq_true, beq_iff_eq, decide_eq_true_eq, and_assoc]

/-! ### The parts of a frame -/

/-- The length of a segment in the table (43_commands.md R211). -/
def tableLen (i : Instr) : Segment → Nat
  | .cmd => i.spec.commandLen
  | .rsp => i.spec.responseLen

theorem tableLen_pos (i : Instr) (g : Segment) : 0 < tableLen i g := by
  obtain ⟨hc, -, hr, -⟩ := spec_bounds i
  cases g with
  | cmd => exact hc
  | rsp => exact hr

/-- `u` has just consumed the edge at `pos` in segment `g` of a frame of the command `i`, `new` being the
events of the frame so far; the frame began in the state `s`. -/
structure InSegment (s : State) (i : Instr) (g : Segment) (pos : Nat) (new : List Event)
    (u : State) : Prop where
  run : u.run = .running
  state : u.state = .command
  loaded : loaded u = loaded s
  seg : u.seg = g
  cmdLen : u.cmdLen = BitVec.ofNat 6 i.spec.commandLen
  rspLen : u.rspLen = BitVec.ofNat 6 i.spec.responseLen
  n : u.n = pos + 1
  events : u.events = s.events ++ new

theorem InSegment.segmentLen_toNat (h : InSegment s i g pos new u) :
    (segmentLen u).toNat = tableLen i g := by
  obtain ⟨hc1, hc2, hr1, hr2⟩ := spec_bounds i
  cases g with
  | cmd => simp only [segmentLen, h.seg, h.cmdLen, tableLen, BitVec.toNat_ofNat]; omega
  | rsp => simp only [segmentLen, h.seg, h.rspLen, tableLen, BitVec.toNat_ofNat]; omega

theorem InSegment.segmentLen_ne_zero (h : InSegment s i g pos new u) : segmentLen u ≠ 0 := fun hz => by
  have hlen := h.segmentLen_toNat
  rw [hz] at hlen
  exact (tableLen_pos i g).ne hlen

/-- No segment is empty: at its beginning a byte follows (42_frame_fsm.md R184). -/
theorem InSegment.afterByte_first (h : InSegment s i g pos new u) (hidx : u.byteIdx = 0) :
    afterByte u.byteIdx (segmentLen u) pos u = startByte pos u := by
  rw [afterByte, hidx, if_neg h.segmentLen_ne_zero.symm]

/-- The stop bit of a segment has begun at `pos`. -/
structure StopBegins (s : State) (i : Instr) (g : Segment) (pos : Nat) (new : List Event)
    (u : State) : Prop extends InSegment s i g pos new u where
  phase : u.phase = .stopLow
  stopStart : u.stopStart = pos

/-- From the end of a byte to the stop bit, over the data bytes that the segment still misses, if any. -/
theorem InSegment.data_run {bs : List (List Cell)} (h : InSegment s i g pos new u)
    (hidx : g = .cmd → u.byteIdx ≠ 0) (hlen : u.byteIdx.toNat + bs.length = tableLen i g)
    (ha : bs.all (acceptedByte s.bitTimeout) = true)
    (hin : u.input = presenting (bytesSamples bs ++ [false]).tail rest) :
    ∃ t, runSteps (cellsLength bs.flatten) (afterByte u.byteIdx (segmentLen u) pos u) = .next t ∧
      t.input = rest ∧ StopBegins s i g (pos + cellsLength bs.flatten)
        (new ++ byteEvents s.bitMidpoint (dataPayload g) pos bs) t := by
  obtain ⟨-, hmid, htime, -, -⟩ := loaded_eq_iff.1 h.loaded
  rw [← h.segmentLen_toNat] at hlen
  cases bs with
  | nil =>
    rw [afterByte, if_pos (BitVec.eq_of_toNat_eq hlen)]
    exact ⟨_, rfl, hin, ⟨h.run, h.state, h.loaded, h.seg, h.cmdLen, h.rspLen, h.n,
      by simp [byteEvents, h.events]⟩, rfl, rfl⟩
  | cons b bs =>
    have hmore : u.byteIdx ≠ segmentLen u := fun heq => by
      rw [heq, List.length_cons] at hlen
      omega
    rw [afterByte, if_neg hmore]
    obtain ⟨_, _, _, _, _, _, _, _, hrun⟩ := Machine.data_run (bs := b :: bs)
      (s := startByte pos u) h.run h.state rfl rfl h.n.symm rfl rfl rfl
      (fun hc => hidx (h.seg.symm.trans hc)) (by simp) hlen (by rw [← htime] at ha; exact ha) hin
    refine ⟨_, hrun, rfl, ⟨h.run, h.state, h.loaded, h.seg, h.cmdLen, h.rspLen, ?_, ?_⟩, rfl, rfl⟩
    · simp only [startByte_n, h.n]; omega
    · simp [h.events, h.seg, hmid]

/-- What OpcodeDone writes before AfterByte, for the command `i` (42_frame_fsm.md R179). -/
def latchCommand (i : Instr) (s : State) : State :=
  { emit ⟨s.byteStart, s.cursor, .command (encodeOpcode i) true⟩ s with
    opcode := encodeOpcode i, cmdLen := BitVec.ofNat 6 i.spec.commandLen,
    rspLen := BitVec.ofNat 6 i.spec.responseLen, byteIdx := 1 }

/-- A known opcode byte completes as every other byte of its segment does, by AfterByte. -/
theorem byteDone_known {v : Byte} (hseg : s.seg = .cmd) (hidx : s.byteIdx = 0)
    (hdec : decodeOpcode v = some i) (hpos : s.cursor = pos) : byteDone v pos s =
      .next (afterByte (latchCommand i s).byteIdx (segmentLen (latchCommand i s)) pos
        (latchCommand i s)) := by
  rw [byteDone_opcode hseg hidx, opcodeDone_known hdec, exec_eq_recognise]
  simp [recognise, latchCommand, segmentLen, hseg, hpos]

/-- The opcode byte of a known command, from IDLE (42_frame_fsm.md R175 to R179). -/
theorem opcode_run {b : List Cell} (hr : s.run = .running) (hs : s.state = .idle)
    (hb : acceptedByte s.bitTimeout b = true) (hop : cellsByte s.bitMidpoint b = encodeOpcode i)
    (hin : s.input = .sample false :: presenting (b.flatMap Cell.samples ++ [false]).tail rest) :
    ∃ u, runSteps (1 + cellsLength b) s =
        .next (afterByte u.byteIdx (segmentLen u) (s.n + cellsLength b) u) ∧
      u.input = rest ∧ u.byteIdx = 1 ∧
      InSegment s i .cmd (s.n + cellsLength b)
        (byteEvents s.bitMidpoint (fun v => .command v true) s.n [b]) u := by
  have hdec : decodeOpcode (cellsByte s.bitMidpoint b) = some i :=
    hop ▸ decodeOpcode_encodeOpcode i
  obtain ⟨d, x, m, k, hbyte⟩ := byte_run (cs := b) (rest := rest)
    (s := startFrame s.n (taken (presenting (b.flatMap Cell.samples ++ [false]).tail rest) s))
    hr rfl rfl rfl rfl rfl rfl hb rfl
  rw [Nat.add_comm 1, runSteps_succ (step_idle hr hs hin)]
  refine ⟨_, hbyte.trans (byteDone_known rfl rfl hdec ?_), rfl, rfl,
    { run := hr, state := rfl, loaded := rfl, seg := rfl, cmdLen := rfl, rspLen := rfl,
      n := ?_, events := ?_ }⟩
  · simp only [State.cursor, startFrame_n, startFrame_bitStart, consume_n, beginStep_n]; omega
  · simp only [latchCommand, emit_n, startFrame_n, consume_n, beginStep_n]; omega
  · simp [latchCommand, byteEvents, hop, State.cursor]

/-- The command segment, from IDLE to the first low sample of its stop bit (R176 to R181, R187). -/
theorem command_segment_run {b : List Cell} {bs : List (List Cell)} (hr : s.run = .running)
    (hs : s.state = .idle) (hlen : (b :: bs).length = i.spec.commandLen)
    (ha : (b :: bs).all (acceptedByte s.bitTimeout) = true)
    (hop : cellsByte s.bitMidpoint b = encodeOpcode i)
    (hin : s.input = presenting (bytesSamples (b :: bs) ++ [false]) rest) :
    ∃ t, runSteps (1 + cellsLength (b :: bs).flatten) s = .next t ∧ t.input = rest ∧
      StopBegins s i .cmd (s.n + cellsLength (b :: bs).flatten)
        (byteEvents s.bitMidpoint (fun v => .command v true) s.n [b] ++
          byteEvents s.bitMidpoint .commandData (s.n + cellsLength b) bs) t := by
  rw [bytes_head ha] at hin
  rw [List.all_cons, Bool.and_eq_true] at ha
  rw [bytes_tail ha.1 ha.2, presenting_cons, presenting_append] at hin
  obtain ⟨u, hopcode, hinu, hidx, hu⟩ := opcode_run hr hs ha.1 hop hin
  obtain ⟨t, hdata, hint, ht⟩ := hu.data_run (bs := bs) (rest := rest) (by simp [hidx])
    (by rw [hidx, tableLen, ← hlen, List.length_cons, Nat.add_comm]; rfl) ha.2 hinu
  rw [List.flatten_cons, cellsLength_append, ← Nat.add_assoc, ← Nat.add_assoc]
  exact ⟨t, (runSteps_add hopcode).trans hdata, hint, ht⟩

/-- The stop bit of a segment and the rising edge after it (41_bit_byte_stop.md R158). -/
theorem StopBegins.stop_run {w : Nat} (h : StopBegins s i g pos new u) (hw : 1 ≤ w)
    (hin : u.input = presenting (List.replicate (w - 1) false ++ [true]) rest) :
    ∃ v, runSteps w u = .next (segmentDone v) ∧ v.input = rest ∧
      InSegment s i g (pos + w) (new ++ [⟨pos, pos + w, .stopBit s.stopBitWidth⟩]) v := by
  obtain ⟨-, -, -, -, hwidth⟩ := loaded_eq_iff.1 h.loaded
  have hstop := stop_end_run h.run h.state h.phase hw (by rw [h.stopStart, h.n]) hin
  refine ⟨_, hstop, rfl, h.run, h.state, h.loaded, h.seg, h.cmdLen, h.rspLen, ?_, ?_⟩
  · simp only [h.n]; omega
  · simp [h.events, h.stopStart, hwidth]

/-- The response segment, from the rising edge after the command's stop bit to the first low sample of
its own (42_frame_fsm.md R182 to R187). -/
theorem InSegment.response_segment_run {gap : Nat} {bs : List (List Cell)}
    (h : InSegment s i .cmd pos new u) (hg : 1 ≤ gap) (hgt : gap ≤ s.responseTimeout)
    (hlen : bs.length = i.spec.responseLen) (ha : bs.all (acceptedByte s.bitTimeout) = true)
    (hin : u.input = presenting (List.replicate (gap - 1) true ++ [false])
      (presenting (bytesSamples bs ++ [false]).tail rest)) :
    ∃ t, runSteps (gap + cellsLength bs.flatten) (segmentDone u) = .next t ∧ t.input = rest ∧
      StopBegins s i .rsp (pos + gap + cellsLength bs.flatten)
        (new ++ byteEvents s.bitMidpoint .responseData (pos + gap) bs) t := by
  obtain ⟨-, -, -, htime, -⟩ := loaded_eq_iff.1 h.loaded
  have hwait : segmentDone u = { u with phase := .rspWait, tmr := 0 } := by
    rw [segmentDone, h.seg]
  have hfirst : InSegment s i .rsp (pos + gap) new { u with
      phase := .rspWait, tmr := 0, input := presenting (bytesSamples bs ++ [false]).tail rest,
      n := u.n + gap, evCount := 0, seg := .rsp, byteIdx := 0 } :=
    ⟨h.run, h.state, h.loaded, rfl, h.cmdLen, h.rspLen, by simp only [h.n]; omega, h.events⟩
  have hmissing : u.rspLen ≠ 0 := hfirst.segmentLen_ne_zero
  have hgap := response_begins_run (s := { u with phase := .rspWait, tmr := 0 }) h.run h.state rfl
    rfl hg (htime ▸ hgt) hmissing hin
  obtain ⟨t, hdata, hint, ht⟩ := hfirst.data_run (rest := rest) nofun
    (by simpa [tableLen] using hlen) ha rfl
  have hedge : u.n + gap - 1 = pos + gap := by rw [h.n]; omega
  rw [hfirst.afterByte_first rfl, ← hedge] at hdata
  rw [hwait]
  exact ⟨t, (runSteps_add hgap).trans hdata, hint, ht⟩

/-- THE FRAME ON THE WIRE: an accepted frame, run from IDLE, gives exactly its events and leads back to IDLE
(42_frame_fsm.md R193): the runs over its four parts, one after the other. -/
theorem wireFrame_run {w : WireFrame} (hr : s.run = .running) (hs : s.state = .idle)
    (ha : w.accepted s.bitMidpoint s.bitTimeout s.responseTimeout i = true)
    (hin : s.input = presenting w.samples rest) :
    ∃ t, runSteps w.samples.length s = .next t ∧ t.run = .running ∧ t.state = .idle ∧
      t.input = rest ∧ t.n = s.n + w.samples.length ∧
      t.events = s.events ++ w.events s.bitMidpoint s.stopBitWidth s.n := by
  obtain ⟨hclen, hrlen, hop, hcmd, hrsp, hcs, hg, hgt, hrs⟩ := WireFrame.accepted_iff.1 ha
  obtain ⟨hpos, -⟩ := spec_bounds i
  obtain ⟨b, bs, hbs⟩ := List.exists_cons_of_length_pos (hclen ▸ hpos)
  rw [WireFrame.presenting_samples hcs hg hrs hrsp, hbs] at hin
  rw [hbs] at hclen hop hcmd
  obtain ⟨t1, hrun1, hin1, h1⟩ := command_segment_run hr hs hclen hcmd hop hin
  obtain ⟨t2, hrun2, hin2, h2⟩ := h1.stop_run hcs hin1
  obtain ⟨t3, hrun3, hin3, h3⟩ := h2.response_segment_run hg hgt hrlen hrsp hin2
  obtain ⟨t4, hrun4, hin4, h4⟩ := h3.stop_run hrs hin3
  have hidle : segmentDone t4 = { t4 with state := .idle } := by rw [segmentDone, h4.seg]
  rw [hidle] at hrun4
  rw [WireFrame.length_samples, hbs]
  refine ⟨{ t4 with state := .idle }, ?_, h4.run, rfl, hin4, ?_, ?_⟩
  · have hrun := (runSteps_add hrun2).trans ((runSteps_add hrun3).trans hrun4)
    rw [← hrun, ← runSteps_add hrun1]
    congr 1
    omega
  · simp only [h4.n]; omega
  · simp [h4.events, WireFrame.events, hbs]

/-! ### The bytes of a frame's events -/

theorem cellEvents_filterMap_byte? (m pos : Nat) (cs : List Cell) :
    (cellEvents m pos cs).filterMap Event.byte? = [] := by
  induction cs generalizing pos with
  | nil => rfl
  | cons c cs ih => exact ih (pos + c.length)

theorem byteEvents_filterMap_byte? {mk : Byte → Payload}
    (hmk : ∀ a b v, (Event.mk a b (mk v)).byte? = some v) (m pos : Nat) (bs : List (List Cell)) :
    (byteEvents m mk pos bs).filterMap Event.byte? = bs.map (cellsByte m) := by
  induction bs generalizing pos with
  | nil => rfl
  | cons b bs ih =>
    rw [byteEvents, List.filterMap_append, cellEvents_filterMap_byte?,
      List.filterMap_cons_some (hmk _ _ _), ih]
    rfl

/-- The byte-level events of a frame carry its bytes, in wire order (20_memory.md R68). -/
theorem WireFrame.events_filterMap_byte? (m sw pos : Nat) (w : WireFrame) :
    (w.events m sw pos).filterMap Event.byte? = w.bytes m := by
  have hstop (a b : Nat) : [Event.mk a b (.stopBit sw)].filterMap Event.byte? = [] := rfl
  simp only [WireFrame.events, List.filterMap_append, hstop, List.append_nil,
    byteEvents_filterMap_byte? (mk := fun v => .command v true) fun _ _ _ => rfl,
    byteEvents_filterMap_byte? (mk := .commandData) fun _ _ _ => rfl,
    byteEvents_filterMap_byte? (mk := .responseData) fun _ _ _ => rfl,
    ← List.map_append, List.take_append_drop, WireFrame.bytes]

/-! ### The bytes of a frame with one cell shape -/

section Shape

variable {sh : CellShape} {m t : Nat}

theorem wireBits_getElem? (v : Byte) {j : Nat} (hj : j < 8) :
    (wireBits v)[7 - j]? = some (v.getLsbD j) := by
  interval_cases j <;> rfl

/-- The cells of a byte carry the byte, when its two cell shapes lie on the two sides of the midpoint. -/
theorem cellsByte_byteCells (h0 : m < sh.zero.low) (h1 : sh.one.low ≤ m) (v : Byte) :
    cellsByte m (byteCells sh v) = v := by
  refine BitVec.eq_of_getLsbD_eq fun j hj => ?_
  have hcell : (byteCells sh v)[7 - j]? = some (bitCell sh (v.getLsbD j)) := by
    rw [byteCells, List.getElem?_map, wireBits_getElem? v hj]
    rfl
  have hbit := firstCellIsMostSignificant m _ _ _ (by simp [byteCells, wireBits]) hcell
  rw [Nat.sub_sub_self (by omega)] at hbit
  rw [hbit]
  cases v.getLsbD j with
  | true => simpa [bitCell] using h1
  | false => simpa [bitCell] using h0

theorem map_cellsByte_byteCells (h0 : m < sh.zero.low) (h1 : sh.one.low ≤ m) (vs : List Byte) :
    (vs.map (byteCells sh)).map (cellsByte m) = vs := by
  rw [List.map_map]
  exact List.map_id'' (cellsByte_byteCells h0 h1) vs

theorem acceptedByte_byteCells (h0 : sh.zero.accepted t = true) (h1 : sh.one.accepted t = true)
    (v : Byte) : acceptedByte t (byteCells sh v) = true := by
  have hcell (b : Bool) : (bitCell sh b).accepted t = true := by cases b <;> assumption
  simp [acceptedByte, byteCells, wireBits, hcell]

/-- The wire form of a frame carries the bytes of its encoding. -/
theorem wireFrame_bytes (h0 : m < sh.zero.low) (h1 : sh.one.low ≤ m) (f : Frame)
    (cmdStop gap rspStop : Nat) :
    (wireFrame sh cmdStop gap rspStop f).bytes m = encodeFrame f := by
  simp only [WireFrame.bytes, wireFrame, ← List.map_append, map_cellsByte_byteCells h0 h1]
  rfl

/-- A well-formed frame put on the wire with accepted cells is accepted. -/
theorem wireFrame_accepted {f : Frame} {cmdStop gap rspStop rt : Nat} (hf : f.wellFormed = true)
    (ha0 : sh.zero.accepted t = true) (ha1 : sh.one.accepted t = true)
    (h0 : m < sh.zero.low) (h1 : sh.one.low ≤ m) (hc : 1 ≤ cmdStop) (hg : 1 ≤ gap) (hgt : gap ≤ rt)
    (hr : 1 ≤ rspStop) :
    (wireFrame sh cmdStop gap rspStop f).accepted m t rt f.instr = true := by
  obtain ⟨hcmd, hrsp⟩ := (frame_wellFormed_iff f).1 hf
  have hall (vs : List Byte) : (vs.map (byteCells sh)).all (acceptedByte t) = true := by
    simp [acceptedByte_byteCells ha0 ha1]
  exact WireFrame.accepted_iff.2 ⟨by simpa [wireFrame] using hcmd, by simpa [wireFrame] using hrsp,
    cellsByte_byteCells h0 h1 _, hall _, hall _, hc, hg, hgt, hr⟩

end Shape

/-- Settles O10: `wireFrame_run` gives the events, whose bytes are the frame's encoding, which decodes to
the frame by the round trip of bytes (O8). -/
theorem frameOnWireDecodes : Obligations.FrameOnWireDecodes := by
  intro s f sh cmdStop gap rspStop rest hr hs hf ha0 ha1 h0 h1 hc hg hgt hrs hin
  obtain ⟨t, hrun, -, hidle, hint, -, hev⟩ :=
    wireFrame_run hr hs (wireFrame_accepted hf ha0 ha1 h0 h1 hc hg hgt hrs) hin
  have hbytes := WireFrame.events_filterMap_byte? s.bitMidpoint s.stopBitWidth s.n
    (wireFrame sh cmdStop gap rspStop f)
  rw [wireFrame_bytes h0 h1] at hbytes
  refine ⟨t, _, hrun, hidle, hint, hev, hbytes, ?_⟩
  rw [hbytes]
  exact (frameBytesRoundTrip f _ []).1 ⟨hf, (List.append_nil _).symm⟩

end Sys2Proof.Machine
end

section
/-! The timing profile (40_timing_profile.md R121 to R129), Configure, and the fatal run status that a
failing one leads to. -/

namespace Sys2Proof.Machine

/-! ### The conversion to samples -/

section Samples

variable {fs fs' : Nat} {m m' : Micros}

/-- What the floor is for: no fewer than `k` samples, exactly if `k` samples fit (R121). -/
theorem le_samples_iff (hd : 0 < m.den) (k fs : Nat) :
    k ≤ samples fs m ↔ k * (1000000 * m.den) ≤ fs * m.num :=
  Nat.le_div_iff_mul_le (Nat.mul_pos (by decide) hd)

/-- More time at the same rate is no fewer samples. -/
theorem samples_le_of_micros_le (hd : 0 < m.den) (hd' : 0 < m'.den)
    (h : m.num * m'.den ≤ m'.num * m.den) (fs : Nat) : samples fs m ≤ samples fs m' := by
  have hfloor : samples fs m * (1000000 * m.den) ≤ fs * m.num := (le_samples_iff hd _ fs).1 le_rfl
  refine (le_samples_iff hd' _ fs).2 (Nat.le_of_mul_le_mul_right ?_ hd)
  calc samples fs m * (1000000 * m'.den) * m.den
      = samples fs m * (1000000 * m.den) * m'.den := by ring
    _ ≤ fs * m.num * m'.den := Nat.mul_le_mul_right _ hfloor
    _ = fs * (m.num * m'.den) := Nat.mul_assoc ..
    _ ≤ fs * (m'.num * m.den) := Nat.mul_le_mul_left _ h
    _ = fs * m'.num * m.den := (Nat.mul_assoc ..).symm

theorem samples_le_of_rate_le (m : Micros) (h : fs ≤ fs') : samples fs m ≤ samples fs' m :=
  Nat.div_le_div_right (Nat.mul_le_mul_right _ h)

theorem samples_five_halves (fs : Nat) : samples fs ⟨5, 2⟩ = fs / 400000 := by
  simp only [samples]
  omega

theorem micros_pos (h : m.wellFormed = true) : 0 < m.num ∧ 0 < m.den := by
  simpa [Micros.wellFormed] using h

end Samples

/-- Settles O40: floor and monotonicity by `le_samples_iff`. -/
theorem samplesIsTheExactFloor : Obligations.SamplesIsTheExactFloor := by
  intro fs fs' m m' hd hd'
  refine ⟨⟨(le_samples_iff hd _ fs).1 le_rfl, ?_⟩, ?_, samples_le_of_rate_le m,
    fun h => samples_le_of_micros_le hd hd' h fs, samples_five_halves fs, by decide⟩
  · exact not_le.1 fun h => Nat.not_succ_le_self _ ((le_samples_iff hd _ fs).2 h)
  · simp [samples]

/-! ### The fields of a profile -/

section Profile

variable {mid : Micros} {fs : Nat} {r : Role} {p : TimingProfile}

/-- The five fields for CONSOLE (R122). -/
theorem rawProfile_console (mid : Micros) (fs : Nat) : rawProfile mid fs .console =
    ⟨fs / 10000, fs / 400000, fs / 100000, fs / 20000, fs / 200000⟩ := by
  simp only [rawProfile, bitMidUs, bitMidConsoleUs, samples, idleUs, bitTimeoutUs,
    responseTimeoutUs, stopUs, TimingProfile.mk.injEq]
  omega

/-- The five fields for CONTROLLER, whose midpoint is open (R122). -/
theorem rawProfile_controller (mid : Micros) (fs : Nat) : rawProfile mid fs .controller =
    ⟨fs / 10000, samples fs mid, fs / 100000, fs / 20000, fs / 250000⟩ := by
  simp only [rawProfile, bitMidUs, samples, idleUs, bitTimeoutUs, responseTimeoutUs, stopUs,
    TimingProfile.mk.injEq, true_and]
  omega

/-- Profile fails exactly when a field is 0; rate 0 makes every field 0 (R123). -/
theorem profileWith_eq_none_iff :
    profileWith mid fs r = none ↔ ¬ (rawProfile mid fs r).wellFormed = true := by
  rcases profileWith_cases mid fs r with ⟨-, hw, he⟩ | ⟨rfl | hw, he⟩
  · simp [he, hw]
  · simp [he, wellFormed_iff, rawProfile, samples]
  · simp [he, hw]

/-- Profile answers the formula's fields, all positive. -/
theorem eq_rawProfile_of_profileWith (h : profileWith mid fs r = some p) :
    p = rawProfile mid fs r ∧ p.wellFormed = true := by
  rcases profileWith_cases mid fs r with ⟨-, hw, he⟩ | ⟨-, he⟩
  · obtain rfl : rawProfile mid fs r = p := Option.some.inj (he.symm.trans h)
    exact ⟨rfl, hw⟩
  · cases he.symm.trans h

theorem profileWith_console_eq_none_iff :
    profileWith mid fs .console = none ↔ fs < 400000 := by
  rw [profileWith_eq_none_iff, rawProfile_console, wellFormed_iff]
  dsimp only
  omega

theorem profileWith_controller_eq_none_iff (hd : 0 < mid.den) :
    profileWith mid fs .controller = none ↔
      fs * mid.num < 1000000 * mid.den ∨ fs * 4 < 1000000 := by
  have hmid : 0 < samples fs mid ↔ 1000000 * mid.den ≤ fs * mid.num := by
    rw [← Nat.succ_le_iff, le_samples_iff hd, Nat.one_mul]
  rw [profileWith_eq_none_iff, rawProfile_controller, wellFormed_iff]
  dsimp only
  omega

/-- What Profile answers for CONSOLE, and the lowest rate at which it answers. -/
theorem profileWith_console_eq (h : profileWith mid fs .console = some p) :
    p = ⟨fs / 10000, fs / 400000, fs / 100000, fs / 20000, fs / 200000⟩ ∧ 400000 ≤ fs := by
  obtain ⟨hp, -⟩ := eq_rawProfile_of_profileWith h
  refine ⟨hp.trans (rawProfile_console mid fs), not_lt.1 fun hlt => ?_⟩
  rw [profileWith_console_eq_none_iff.2 hlt] at h
  cases h

/-- What Profile answers for CONTROLLER, whose stop-bit width of 4 µs needs 250 kHz. -/
theorem profileWith_controller_eq (h : profileWith mid fs .controller = some p) :
    p = ⟨fs / 10000, samples fs mid, fs / 100000, fs / 20000, fs / 250000⟩ ∧ 250000 ≤ fs := by
  obtain ⟨hp, hw⟩ := eq_rawProfile_of_profileWith h
  obtain rfl := hp.trans (rawProfile_controller mid fs)
  obtain ⟨-, -, -, -, hstop⟩ := (wellFormed_iff _).1 hw
  exact ⟨rfl, by dsimp only at hstop; omega⟩

end Profile

/-- Settles O41: when Profile fails by the lemma of each role, the fields by what it answers. -/
theorem profileFailsExactlyWhenDegenerate : Obligations.ProfileFailsExactlyWhenDegenerate := by
  intro mid fs hmid
  obtain ⟨-, hd⟩ := micros_pos hmid
  refine ⟨profileWith_console_eq_none_iff, profileWith_controller_eq_none_iff hd, fun r p hp => ?_⟩
  obtain ⟨-, hw⟩ := eq_rawProfile_of_profileWith hp
  cases r with
  | console =>
    obtain ⟨rfl, -⟩ := profileWith_console_eq hp
    exact ⟨hw, rfl, rfl, rfl, fun _ => ⟨rfl, rfl⟩, nofun⟩
  | controller =>
    obtain ⟨rfl, -⟩ := profileWith_controller_eq hp
    exact ⟨hw, rfl, rfl, rfl, nofun, fun _ => ⟨rfl, rfl⟩⟩

/-- Settles O42: the fixed fields by arithmetic on the rate, the open midpoint of CONTROLLER by comparing
it with the constants of the other fields, 100, 10 and 5 µs. -/
theorem profileFieldsAreBounded : Obligations.ProfileFieldsAreBounded := by
  intro mid fs r p hmid hp
  cases r with
  | console =>
    obtain ⟨rfl, hfs⟩ := profileWith_console_eq hp
    simp only [reduceCtorEq, true_or, forall_const, false_imp_iff, and_true]
    omega
  | controller =>
    obtain ⟨rfl, hfs⟩ := profileWith_controller_eq hp
    obtain ⟨-, hd⟩ := micros_pos hmid
    have hmidpoint (k : Nat) (h : mid.num ≤ k * mid.den) : samples fs mid ≤ fs * k / 1000000 :=
      samples_le_of_micros_le (m' := ⟨k, 1⟩) hd Nat.one_pos (by simpa using h) fs
    dsimp only
    refine ⟨by omega, by omega, by omega, by omega, ?_, nofun, ?_, ?_⟩
    · rintro (h | h)
      · cases h
      · have := hmidpoint 100 h
        omega
    · intro _ h
      have := hmidpoint 10 h.le
      omega
    · intro _ h
      have := hmidpoint 5 h
      omega

/-! ### Configure -/

/-- Settles O43: the two rows of R192 for a Configure that does not fail. -/
theorem configureLoadsTheProfile : Obligations.ConfigureLoadsTheProfile := by
  intro s f r rest hin
  exact ⟨fun p hr hp => step_of_transition (.configureLoads rest f r p hin hr hp),
    fun hr => step_of_transition (.configureIgnored rest f r hin hr)⟩

/-! ### FATAL -/

/-- In FATAL a sample is counted, and a Configure is ignored (R125, R172). -/
theorem step_of_fatal {s : State} {e : InputEvent} {rest : List InputEvent} (hr : s.run = .fatal)
    (he : e ≠ .reset) (hin : s.input = e :: rest) :
    step s = .next { s with
      input := rest, n := s.n + (if isSample e then 1 else 0), evCount := 0 } := by
  cases e with
  | reset => exact absurd rfl he
  | configure f r => exact step_of_transition (.configureIgnored rest f r hin hr)
  | sample x => exact step_fatal hr hin

/-- Settles O38, by induction on the input events, each of which leaves the machine in FATAL. -/
theorem fatalIsSticky : Obligations.FatalIsSticky := by
  intro s es
  induction es generalizing s with
  | nil =>
    intro rest _ _ hin
    simp only [List.nil_append] at hin
    simp [← hin]
  | cons e es ih =>
    intro rest hr hreset hin
    obtain ⟨he, hes⟩ := List.forall_mem_cons.1 hreset
    refine (runSteps_succ (step_of_fatal hr he hin)).trans ((ih _ rest (by exact hr) hes rfl).trans ?_)
    simp only [List.countP_cons, List.length_cons, Nat.succ_ne_zero, ite_self, if_false]
    rw [Nat.add_assoc, Nat.add_comm (List.countP ..)]

end Sys2Proof.Machine
end

section
/-! The invariant is kept by every step: what each way of going on in a frame leaves of it is said once,
and the rows of 42_frame_fsm.md R192 are uses of that. -/

namespace Sys2Proof.Machine

variable {s u t : State} {i : Nat}

/-! ### The shift register -/

/-- A shift makes room for one more bit, and fills it (R150). -/
theorem shiftIn_toNat_lt {v : Byte} {k : Nat} (b : Bool) (h : v.toNat < 2 ^ k) :
    (shiftIn v b).toNat < 2 ^ (k + 1) := by
  have hdouble : (v <<< 1).toNat < 2 ^ (k + 1) := by
    rw [BitVec.toNat_shiftLeft, Nat.shiftLeft_eq, Nat.pow_succ]
    have := Nat.mod_le (v.toNat * 2 ^ 1) (2 ^ 8)
    omega
  have hbit : (if b then 1 else 0 : Byte).toNat < 2 ^ (k + 1) := by
    have := Nat.one_le_two_pow (n := k)
    rw [Nat.pow_succ]
    cases b
    · simp
    · simp; omega
  rw [shiftIn, BitVec.toNat_and, BitVec.toNat_or]
  exact Nat.and_le_left.trans_lt (Nat.or_lt_two_pow hdouble hbit)

/-- The bit counter counts without wrapping until the byte is complete (R36). -/
theorem toNat_bitCnt_add_one {c : BitVec 3} (h : c ≠ 7) : (c + 1).toNat = c.toNat + 1 := by
  bv_omega

/-! ### The phases' clauses -/

theorem phaseInv_bitLow (hp : s.phase = .bitLow) : PhaseInv s ↔
    ByteInv s ∧ s.bitStart + s.tmr + 1 = s.n ∧ s.tmr < s.bitTimeout := by
  rw [PhaseInv, hp]

theorem phaseInv_bitHigh (hp : s.phase = .bitHigh) : PhaseInv s ↔
    ByteInv s ∧ s.bitStart + s.lowDur + s.tmr + 1 = s.n ∧ s.tmr < s.bitTimeout ∧
      1 ≤ s.lowDur ∧ s.lowDur ≤ s.bitTimeout ∧ s.bitVal = classify s.lowDur s.bitMidpoint := by
  rw [PhaseInv, hp]

theorem phaseInv_stopLow (hp : s.phase = .stopLow) : PhaseInv s ↔
    ¬ inOpcode s ∧ s.byteIdx = segmentLen s ∧ s.byteStart < s.stopStart ∧ s.stopStart < s.n := by
  rw [PhaseInv, hp]

theorem phaseInv_rspWait (hp : s.phase = .rspWait) : PhaseInv s ↔
    s.seg = .cmd ∧ ¬ inOpcode s ∧ s.byteIdx = s.cmdLen ∧ s.tmr < s.responseTimeout ∧
      s.byteStart < s.stopStart ∧ s.stopStart + s.tmr + 1 < s.n := by
  rw [PhaseInv, hp]

/-! ### Between the borders of a byte -/

/-- The registers that change only where a byte or a segment begins or ends are those of `s`. Of an
update that writes none of them this needs no proof. -/
structure SameByte (s t : State) : Prop where
  seg : t.seg = s.seg := by rfl
  frameStart : t.frameStart = s.frameStart := by rfl
  byteStart : t.byteStart = s.byteStart := by rfl
  opcode : t.opcode = s.opcode := by rfl
  cmdLen : t.cmdLen = s.cmdLen := by rfl
  rspLen : t.rspLen = s.rspLen := by rfl
  byteIdx : t.byteIdx = s.byteIdx := by rfl

theorem SameByte.inOpcode_iff (hb : SameByte s t) : inOpcode t ↔ inOpcode s := by
  rw [inOpcode, inOpcode, hb.seg, hb.byteIdx]

theorem SameByte.segmentLen_eq (hb : SameByte s t) : segmentLen t = segmentLen s := by
  rw [segmentLen, segmentLen, hb.seg, hb.cmdLen, hb.rspLen]

/-- A byte that goes on, with the cell it is in and the bits it has. -/
theorem ByteInv.goes_on (h : ByteInv s) (hb : SameByte s t)
    (hshift : t.shreg.toNat < 2 ^ t.bitCnt.toNat) (hord : t.byteStart ≤ t.bitStart) : ByteInv t where
  missing := by
    rw [hb.inOpcode_iff, hb.segmentLen_eq, hb.byteIdx]
    exact h.missing
  shifted := hshift
  ordered := hord

/-- A frame that goes on keeps what does not depend on the phase. -/
theorem CommandInv.goes_on (h : CommandInv s) (hb : SameByte s t) (hphase : PhaseInv t) :
    CommandInv t where
  started := by
    rw [hb.frameStart, hb.byteStart]
    exact h.started
  first := by
    rw [hb.inOpcode_iff, hb.byteStart, hb.frameStart]
    exact h.first
  latched := by
    rw [hb.inOpcode_iff, hb.opcode, hb.cmdLen, hb.rspLen]
    exact h.latched
  inPhase := hphase

/-! ### What begins at a falling edge -/

/-- The opcode and the lengths are those of a row of the table (R37). -/
def Latched (s : State) : Prop :=
  ∃ c, lookup s.opcode = some c ∧
    s.cmdLen = BitVec.ofNat 6 c.commandLen ∧ s.rspLen = BitVec.ofNat 6 c.responseLen

/-- ByteStart at the sample just consumed, when a byte is missing (R148, R187). -/
theorem commandInv_startByte (hn : u.n = i + 1) (hstart : u.frameStart ≤ i)
    (hfirst : inOpcode u → i = u.frameStart) (hlatched : ¬ inOpcode u → Latched u)
    (hmissing : inOpcode u ∨ u.byteIdx < segmentLen u) (ht : 0 < u.bitTimeout) :
    CommandInv (startByte i u) where
  started := hstart
  first := hfirst
  latched := hlatched
  inPhase := (phaseInv_bitLow rfl).2 ⟨⟨hmissing, Nat.one_pos, le_rfl⟩, hn.symm, ht⟩

/-- StopStart at the sample just consumed, when every byte of the segment is complete (R157, R187). -/
theorem commandInv_startStop (hn : u.n = i + 1) (hstart : u.frameStart ≤ u.byteStart)
    (hdata : ¬ inOpcode u) (hlatched : Latched u) (hidx : u.byteIdx = segmentLen u)
    (hbyte : u.byteStart < i) : CommandInv (startStop i u) where
  started := hstart
  first := fun ho => absurd ho hdata
  latched := fun _ => hlatched
  inPhase := (phaseInv_stopLow rfl).2 ⟨hdata, hidx, hbyte, hn ▸ i.lt_succ_self⟩

/-- AfterByte at the sample just consumed, the completed byte being counted (R187): the next byte or the
stop bit. -/
theorem commandInv_afterByte (hn : u.n = i + 1) (hstart : u.frameStart ≤ u.byteStart)
    (hdata : ¬ inOpcode u) (hlatched : Latched u) (hidx : u.byteIdx ≤ segmentLen u)
    (hbyte : u.byteStart < i) (ht : 0 < u.bitTimeout) :
    CommandInv (afterByte u.byteIdx (segmentLen u) i u) := by
  rcases afterByte_cases u.byteIdx (segmentLen u) i u with ⟨heq, h⟩ | ⟨hne, h⟩ <;> rw [h]
  · exact commandInv_startStop hn hstart hdata hlatched heq hbyte
  · exact commandInv_startByte hn (hstart.trans hbyte.le) (fun ho => absurd ho hdata)
      (fun _ => hlatched) (.inr (BitVec.lt_of_le_ne hidx hne)) ht

/-! ### The clauses outside a frame -/

/-- A machine that is not RUNNING has nothing to keep but INITIAL (R27). -/
theorem inv_of_not_running (hr : s.run ≠ .running) (hs : s.state = .initial) : Inv s where
  parked _ := hs
  profiled h := absurd h hr
  counting h := absurd h hr
  frozen h := absurd h hr
  framed h := absurd h hr

/-- The run status and the configuration are those of `s`: what a sample keeps while RUNNING (R126).
Of an update that writes none of these registers this needs no proof. -/
structure SameConfig (s t : State) : Prop where
  run : t.run = s.run := by rfl
  fs : t.fs = s.fs := by rfl
  role : t.role = s.role := by rfl
  profile : loaded t = loaded s := by rfl

theorem Inv.profiled_of_sameConfig (h : Inv s) (hr : s.run = .running) (hc : SameConfig s t) :
    profile t.fs.toNat t.role = some (loaded t) := by
  rw [hc.fs, hc.role, hc.profile]
  exact h.profiled hr

/-- A successful Configure starts over in INITIAL, with a profile whose idle minimum is positive (R124). -/
theorem inv_loadProfile {f : SampleRate} {r : Role} {p : TimingProfile}
    (hp : profile f.toNat r = some p) : Inv (loadProfile f r p s) where
  parked hne := absurd rfl hne
  profiled _ := hp
  counting _ _ := by
    obtain ⟨hpos, -⟩ := profileWith_pos hp
    exact hpos
  frozen _ hne := absurd rfl hne
  framed _ hs := nomatch hs

theorem Inv.idleMin_pos (h : Inv s) (hr : s.run = .running) : 0 < s.idleMin := by
  obtain ⟨hpos, -⟩ := profileWith_pos (h.profiled hr)
  exact hpos

theorem Inv.bitTimeout_pos (h : Inv s) (hr : s.run = .running) : 0 < s.bitTimeout := by
  obtain ⟨-, -, hpos, -⟩ := profileWith_pos (h.profiled hr)
  exact hpos

theorem Inv.responseTimeout_pos (h : Inv s) (hr : s.run = .running) : 0 < s.responseTimeout := by
  obtain ⟨-, -, -, hpos, -⟩ := profileWith_pos (h.profiled hr)
  exact hpos

theorem Inv.to_initial (h : Inv s) (hr : s.run = .running) (hc : SameConfig s t)
    (hs : t.state = .initial) (hlt : t.hiCnt < t.idleMin) : Inv t where
  parked _ := hs
  profiled _ := h.profiled_of_sameConfig hr hc
  counting _ _ := hlt
  frozen _ hne := absurd hs hne
  framed _ hcmd := nomatch hs.symm.trans hcmd

theorem Inv.to_idle (h : Inv s) (hr : s.run = .running) (hc : SameConfig s t)
    (hs : t.state = .idle) (hcnt : t.hiCnt = t.idleMin) : Inv t where
  parked hne := absurd (hc.run.trans hr) hne
  profiled _ := h.profiled_of_sameConfig hr hc
  counting _ hi := nomatch hs.symm.trans hi
  frozen _ _ := hcnt
  framed _ hcmd := nomatch hs.symm.trans hcmd

theorem Inv.to_command (h : Inv s) (hr : s.run = .running) (hc : SameConfig s t)
    (hs : t.state = .command) (hcnt : t.hiCnt = t.idleMin) (hcmd : CommandInv t) : Inv t where
  parked hne := absurd (hc.run.trans hr) hne
  profiled _ := h.profiled_of_sameConfig hr hc
  counting _ hi := nomatch hs.symm.trans hi
  frozen _ _ := hcnt
  framed _ _ := hcmd

/-- Frame-local errors, and a low sample in INITIAL, empty the idle count (R174, R245). -/
theorem Inv.resynced (h : Inv s) (hr : s.run = .running) (hc : SameConfig s t)
    (hs : t.state = .initial) (hcnt : t.hiCnt = 0) : Inv t := by
  refine h.to_initial hr hc hs ?_
  have hmin : t.idleMin = s.idleMin := congrArg TimingProfile.idleMin hc.profile
  rw [hcnt, hmin]
  exact h.idleMin_pos hr

/-- Outside INITIAL the idle count is frozen at its bound (R30). -/
theorem Inv.frozen_of_sameConfig (h : Inv s) (hr : s.run = .running) (hc : SameConfig s t)
    (hs : s.state ≠ .initial) (hcnt : t.hiCnt = s.hiCnt) : t.hiCnt = t.idleMin := by
  have hmin : t.idleMin = s.idleMin := congrArg TimingProfile.idleMin hc.profile
  rw [hcnt, hmin]
  exact h.frozen hr hs

/-! ### Inside a frame -/

section Frame

variable {p : Phase} {x : Bool} {rest : List InputEvent}

theorem run_of_waiting (hw : Waiting s p x rest) : s.run = .running := by
  obtain ⟨hr, -⟩ := hw
  exact hr

theorem state_of_waiting (hw : Waiting s p x rest) : s.state = .command := by
  obtain ⟨-, hs, -⟩ := hw
  exact hs

theorem Inv.commandInv (h : Inv s) (hw : Waiting s p x rest) : CommandInv s :=
  h.framed (run_of_waiting hw) (state_of_waiting hw)

/-- A sample that leaves the machine in the frame it is in. -/
theorem Inv.goes_on (h : Inv s) (hw : Waiting s p x rest) (hc : SameConfig s t)
    (hs : t.state = s.state) (hcnt : t.hiCnt = s.hiCnt) (hcmd : CommandInv t) : Inv t := by
  have hr := run_of_waiting hw
  have hcommand := state_of_waiting hw
  exact h.to_command hr hc (hs.trans hcommand)
    (h.frozen_of_sameConfig hr hc (by simp [hcommand]) hcnt) hcmd

/-- A frame-local error: back to INITIAL with an empty idle count (R245). -/
theorem Inv.times_out (h : Inv s) (hw : Waiting s p x rest) (e : FrameError) :
    Inv (takeError (.frameLocal e) i (taken rest s)) :=
  h.resynced (run_of_waiting hw) {} rfl rfl

/-- FrameStart (R176): every latch at the falling edge, and the whole opcode byte still to come. -/
theorem Inv.frame_starts (h : Inv s) (hr : s.run = .running) (hs : s.state = .idle) :
    Inv (startFrame s.n (taken rest s)) := by
  have hc : SameConfig s (startFrame s.n (taken rest s)) := {}
  have hbit := h.bitTimeout_pos hr
  have hopcode : inOpcode (startFrame s.n (taken rest s)) := ⟨rfl, rfl⟩
  exact h.to_command hr hc rfl (h.frozen_of_sameConfig hr hc (by simp [hs]) rfl)
    (commandInv_startByte rfl le_rfl (fun _ => rfl) (absurd hopcode) (.inl hopcode) hbit)

/-- The rising edge ends the low part of a cell, whose length is within the timeout (R142). -/
theorem CommandInv.low_ends (hc : CommandInv s) (hp : s.phase = .bitLow) :
    CommandInv { taken rest s with
      lowDur := s.tmr + 1, bitVal := classify (s.tmr + 1) s.bitMidpoint,
      phase := .bitHigh, tmr := 0 } := by
  obtain ⟨hbyte, hn, ht⟩ := (phaseInv_bitLow hp).1 hc.inPhase
  refine hc.goes_on {} ((phaseInv_bitHigh rfl).2 ?_)
  exact ⟨hbyte.goes_on {} hbyte.shifted hbyte.ordered, congrArg (· + 1) hn,
    Nat.zero_lt_of_lt ht, Nat.succ_pos _, ht, rfl⟩

/-- A cell's low or high part goes on below the timeout (R143, R145). -/
theorem CommandInv.cell_counts (hc : CommandInv s) (hp : s.phase.inCell)
    (ht : s.tmr + 1 ≠ s.bitTimeout) : CommandInv { taken rest s with tmr := s.tmr + 1 } := by
  refine hc.goes_on {} ?_
  rcases hp with hp | hp
  · obtain ⟨hbyte, hn, hlt⟩ := (phaseInv_bitLow hp).1 hc.inPhase
    exact (phaseInv_bitLow (by exact hp)).2
      ⟨hbyte.goes_on {} hbyte.shifted hbyte.ordered,
      congrArg (· + 1) hn, lt_of_le_of_ne hlt ht⟩
  · obtain ⟨hbyte, hn, hlt, hlow⟩ := (phaseInv_bitHigh hp).1 hc.inPhase
    exact (phaseInv_bitHigh (by exact hp)).2
      ⟨hbyte.goes_on {} hbyte.shifted hbyte.ordered,
      congrArg (· + 1) hn, lt_of_le_of_ne hlt ht, hlow⟩

/-- The gap before the response goes on below its bound (R183). -/
theorem CommandInv.gap_counts (hc : CommandInv s) (hp : s.phase = .rspWait)
    (ht : s.tmr + 1 ≠ s.responseTimeout) : CommandInv { taken rest s with tmr := s.tmr + 1 } := by
  obtain ⟨hseg, hdata, hidx, hlt, hbyte, hn⟩ := (phaseInv_rspWait hp).1 hc.inPhase
  exact hc.goes_on {} ((phaseInv_rspWait (by exact hp)).2
    ⟨hseg, hdata, hidx, lt_of_le_of_ne hlt ht, hbyte, Nat.succ_lt_succ hn⟩)

/-- The falling edge within a byte: one more bit is counted and shifted in (R144). -/
theorem CommandInv.cell_done (hc : CommandInv s) (hp : s.phase = .bitHigh) (hb : s.bitCnt ≠ 7) :
    CommandInv (nextCell s.n (assembled rest s)) := by
  obtain ⟨hbyte, hn, ht, -⟩ := (phaseInv_bitHigh hp).1 hc.inPhase
  have hordered := hbyte.ordered
  have hsame : SameByte s (nextCell s.n (assembled rest s)) := by constructor <;> simp
  have hbyte' : ByteInv (nextCell s.n (assembled rest s)) := by
    refine hbyte.goes_on hsame ?_ (by simp; omega)
    simp only [nextCell_bitCnt, completeCell_bitCnt, consume_bitCnt, beginStep_bitCnt]
    rw [toNat_bitCnt_add_one hb]
    exact shiftIn_toNat_lt s.bitVal hbyte.shifted
  exact hc.goes_on hsame ((phaseInv_bitLow rfl).2 ⟨hbyte', rfl, Nat.zero_lt_of_lt ht⟩)

/-- The stop bit is still low (R159). -/
theorem CommandInv.stop_waits (hc : CommandInv s) (hp : s.phase = .stopLow) :
    CommandInv (taken rest s) := by
  obtain ⟨hdata, hidx, hbyte, hn⟩ := (phaseInv_stopLow hp).1 hc.inPhase
  exact hc.goes_on {} ((phaseInv_stopLow (by exact hp)).2
    ⟨hdata, hidx, hbyte, hn.trans (Nat.lt_succ_self _)⟩)

/-- The rising edge that ends the stop bit of the command: the gap is counted from here (R182). -/
theorem CommandInv.command_stops (hc : CommandInv s) (hp : s.phase = .stopLow) (hs : s.seg = .cmd)
    (ht : 0 < s.responseTimeout) (e : Event) :
    CommandInv { emit e (taken rest s) with phase := .rspWait, tmr := 0 } := by
  obtain ⟨hdata, hidx, hbyte, hn⟩ := (phaseInv_stopLow hp).1 hc.inPhase
  rw [segmentLen, hs] at hidx
  exact hc.goes_on {} ((phaseInv_rspWait rfl).2
    ⟨hs, hdata, hidx, ht, hbyte, Nat.succ_lt_succ hn⟩)

/-- The falling edge that begins a response with bytes (R184). -/
theorem CommandInv.response_begins (hc : CommandInv s) (hp : s.phase = .rspWait)
    (hl : s.rspLen ≠ 0) (ht : 0 < s.bitTimeout) :
    CommandInv (startByte s.n { taken rest s with seg := .rsp, byteIdx := 0 }) := by
  obtain ⟨-, hdata, -, -, hbyte, hn⟩ := (phaseInv_rspWait hp).1 hc.inPhase
  have hstart := hc.started
  have hpos : 0 < s.rspLen := by bv_omega
  exact commandInv_startByte rfl (by simp; omega) (fun ho => nomatch ho.1)
    (fun _ => hc.latched hdata) (.inr hpos) ht

/-- The falling edge that begins a response without bytes is its stop bit's (R184). -/
theorem CommandInv.empty_response (hc : CommandInv s) (hp : s.phase = .rspWait)
    (hl : s.rspLen = 0) :
    CommandInv (startStop s.n { taken rest s with seg := .rsp, byteIdx := 0 }) := by
  obtain ⟨-, hdata, -, -, hbyte, hn⟩ := (phaseInv_rspWait hp).1 hc.inPhase
  exact commandInv_startStop rfl hc.started (fun ho => nomatch ho.1) (hc.latched hdata) hl.symm
    (by simp; omega)

/-- A completed byte is about to be counted: nothing of `s` is changed but the sample is consumed, and
the registers of R36 and R37 and the event stream are written. -/
structure ByteCounted (s u : State) : Prop extends SameConfig s u where
  state : u.state = s.state
  hiCnt : u.hiCnt = s.hiCnt
  n : u.n = s.n + 1
  frameStart : u.frameStart = s.frameStart
  byteStart : u.byteStart = s.byteStart

/-- AfterByte in a state that has counted the completed byte, within the segment's length (R187). -/
theorem Inv.after_byte {k len : Length6} (h : Inv s) (hw : Waiting s .bitHigh false rest)
    (hu : ByteCounted s u) (hk : u.byteIdx = k) (hlen : segmentLen u = len) (hle : k ≤ len)
    (hdata : ¬ inOpcode u) (hlatched : Latched u) : Inv (afterByte k len s.n u) := by
  subst hk hlen
  have hc := h.commandInv hw
  obtain ⟨hbyte, hn, -⟩ := (phaseInv_bitHigh (phase_of_waiting hw)).1 hc.inPhase
  have hstart := hc.started
  have hordered := hbyte.ordered
  have hbit : u.bitTimeout = s.bitTimeout := congrArg TimingProfile.bitTimeout hu.profile
  have hconfig : SameConfig s (afterByte u.byteIdx (segmentLen u) s.n u) :=
    ⟨by simp [hu.run], by simp [hu.fs], by simp [hu.role],
      by rw [← hu.profile]; simp [loaded]⟩
  refine h.goes_on hw hconfig (by simp [hu.state]) (by simp [hu.hiCnt]) ?_
  refine commandInv_afterByte hu.n ?_ hdata hlatched hle ?_ ?_
  · rw [hu.frameStart, hu.byteStart]
    exact hstart
  · rw [hu.byteStart]
    omega
  · rw [hbit]
    exact h.bitTimeout_pos (run_of_waiting hw)

/-- OpcodeDone for a known opcode: one byte of its row's length is complete (R179). -/
theorem Inv.opcode_known (h : Inv s) (hw : Waiting s .bitHigh false rest) (ho : inOpcode s)
    (c : Instr) : Inv (recognise (encodeOpcode c) (BitVec.ofNat 6 c.spec.commandLen)
      (BitVec.ofNat 6 c.spec.responseLen) (assembled rest s)) := by
  obtain ⟨hseg, -⟩ := ho
  have hle : (1 : Length6) ≤ BitVec.ofNat 6 c.spec.commandLen := by
    obtain ⟨hpos, hmax, -, -⟩ := spec_bounds c
    bv_omega
  rw [recognise, assembled_cursor]
  refine h.after_byte hw ⟨?_, ?_, ?_, ?_, ?_, ?_⟩ rfl ?_ hle ?_
    ⟨c.spec, lookup_encodeOpcode c, rfl, rfl⟩
  case refine_1 => constructor <;> simp [loaded]
  case refine_7 => simp [segmentLen, hseg]
  case refine_8 => simp [inOpcode]
  all_goals simp

/-- A data byte of either segment: one more byte of its length is complete (R181, R185). -/
theorem Inv.data_done (h : Inv s) (hw : Waiting s .bitHigh false rest) (ho : ¬ inOpcode s)
    {len : Length6} (hlen : segmentLen s = len) (e : Event) :
    Inv (afterByte ((assembled rest s).byteIdx + 1) len s.n
      { emit e (assembled rest s) with byteIdx := (assembled rest s).byteIdx + 1 }) := by
  subst hlen
  have hc := h.commandInv hw
  obtain ⟨hbyte, -⟩ := (phaseInv_bitHigh (phase_of_waiting hw)).1 hc.inPhase
  have hlt : s.byteIdx < segmentLen s := hbyte.missing.resolve_left ho
  have hle : s.byteIdx + 1 ≤ segmentLen s := by bv_omega
  have hne : s.byteIdx + 1 ≠ 0 := by bv_omega
  refine h.after_byte hw ⟨?_, ?_, ?_, ?_, ?_, ?_⟩ rfl ?_ hle ?_ ?_
  case refine_1 => constructor <;> simp [loaded]
  case refine_7 => simp [segmentLen]
  case refine_8 => exact fun ho' => hne ho'.2
  case refine_9 => simpa [Latched] using hc.latched ho
  all_goals simp

end Frame

/-! ### Every step -/

/-- Settles O49, row by row of R192: a row outside a frame by its idle count, a row inside one by what it
leaves of the frame's consistency. -/
theorem everyStepKeepsInvariant : Obligations.EveryStepKeepsInvariant := by
  intro s t h hstep
  cases transition_of_step hstep with
  | noInput hin => exact h
  | reset rest hin => exact inv_of_not_running nofun rfl
  | configureIgnored rest f r hin hr =>
    exact inv_of_not_running (by simp [hr]) (h.parked (by simp [hr]))
  | configureFails rest f r hin hr hp => exact inv_of_not_running nofun rfl
  | configureLoads rest f r p hin hr hp => exact inv_loadProfile hp
  | notConfigured rest x hin hr => exact inv_of_not_running nofun rfl
  | ignored rest x hin hr => exact inv_of_not_running (by simp [hr]) (h.parked (by simp [hr]))
  | idleReached rest hin hr hs hcnt => exact h.to_idle hr {} rfl hcnt
  | highCounted rest hin hr hs hcnt =>
    exact h.to_initial hr {} hs (lt_of_le_of_ne (h.counting hr hs) hcnt)
  | lowInInitial rest hin hr hs => exact h.resynced hr {} hs rfl
  | idleHigh rest hin hr hs =>
    exact h.to_idle hr {} hs (h.frozen hr (by simp [hs]))
  | frameStarts rest hin hr hs => exact h.frame_starts hr hs
  | lowEnds rest hw =>
    exact h.goes_on hw {} rfl rfl ((h.commandInv hw).low_ends (phase_of_waiting hw))
  | lowTimesOut rest hw ht => exact h.times_out hw _
  | lowCounts rest hw ht =>
    exact h.goes_on hw {} rfl rfl
      ((h.commandInv hw).cell_counts (.inl (phase_of_waiting hw)) ht)
  | highTimesOut rest hw ht => exact h.times_out hw _
  | highCounts rest hw ht =>
    exact h.goes_on hw {} rfl rfl
      ((h.commandInv hw).cell_counts (.inr (phase_of_waiting hw)) ht)
  | cellDone rest hw hb =>
    exact h.goes_on hw (by constructor <;> simp [loaded]) (by simp) (by simp)
      ((h.commandInv hw).cell_done (phase_of_waiting hw) hb)
  | opcodeKnown rest c hw hb ho hd => exact h.opcode_known hw ho c
  | opcodeUnknown rest hw hb ho hd =>
    exact h.resynced (run_of_waiting hw) (by constructor <;> simp [loaded]) (by simp) (by simp)
  | commandData rest hw hb hs hi =>
    exact h.data_done hw (fun ho => hi ho.2) (by simp [segmentLen, hs]) _
  | responseData rest hw hb hs =>
    exact h.data_done hw (fun ho => nomatch hs.symm.trans ho.1) (by simp [segmentLen, hs]) _
  | stopWaits rest hw =>
    exact h.goes_on hw {} rfl rfl ((h.commandInv hw).stop_waits (phase_of_waiting hw))
  | commandStops rest hw hs =>
    exact h.goes_on hw {} rfl rfl
      ((h.commandInv hw).command_stops (phase_of_waiting hw) hs
        (h.responseTimeout_pos (run_of_waiting hw)) _)
  | responseStops rest hw hs =>
    have hr := run_of_waiting hw
    exact h.to_idle hr {} rfl (h.frozen hr (by simp [state_of_waiting hw]))
  | responseTimesOut rest hw ht => exact h.times_out hw _
  | gapCounts rest hw ht =>
    exact h.goes_on hw {} rfl rfl ((h.commandInv hw).gap_counts (phase_of_waiting hw) ht)
  | responseBegins rest hw hl =>
    exact h.goes_on hw {} rfl rfl
      ((h.commandInv hw).response_begins (phase_of_waiting hw) hl
        (h.bitTimeout_pos (run_of_waiting hw)))
  | emptyResponse rest hw hl =>
    exact h.goes_on hw {} rfl rfl
      ((h.commandInv hw).empty_response (phase_of_waiting hw) hl)

end Sys2Proof.Machine
end

section
/-! The bit reader and the stop bit (41_bit_byte_stop.md R140 to R159): single steps are rows of
42_frame_fsm.md R192, pulses and stop bits of any length are runs. -/

namespace Sys2Proof.Machine

variable {s t : State} {x : Bool} {rest : List InputEvent}

/-! ### One step of the bit reader -/

/-- Settles O1: the falling edge after the eighth cell is ByteDone, and a byte that decodes is OpcodeDone
for its command. -/
theorem stepRunsDecodedCommand : Obligations.StepRunsDecodedCommand := by
  intro s rest i hr hc hp hb hseg hidx hin hdec _
  obtain ⟨hop, -⟩ := List.cons.inj (decode_eq_ok_iff.1 hdec)
  rw [step_byteDone ⟨hr, hc, hp, hin⟩ hb, byteDone_opcode (by exact hseg) (by exact hidx),
    opcodeDone_known (decodeOpcode_eq_some_iff.2 hop)]
  rfl

/-- Settles O15: the row of the rising edge, and the invariant's clause for BIT_LOW. -/
theorem risingEdgeClassifiesBit : Obligations.RisingEdgeClassifiesBit := by
  intro s rest hr hc hp hin
  have hbit : classify (s.tmr + 1) s.bitMidpoint = decide (¬ s.tmr + 1 > s.bitMidpoint) := by
    simp only [classify_eq, not_lt]
  refine ⟨?_, fun hinv => ?_⟩
  · rw [← hbit]
    exact step_of_transition (.lowEnds rest ⟨hr, hc, hp, hin⟩)
  · obtain ⟨-, hn, hlt⟩ := (phaseInv_bitLow hp).1 (hinv.framed hr hc).inPhase
    omega

/-- Settles O16: the two rows of BIT_LOW without an edge, and the invariant's clause for it. -/
theorem lowPhaseCountsOrTimesOut : Obligations.LowPhaseCountsOrTimesOut := by
  intro s rest hr hc hp hin
  refine ⟨fun ht => step_of_transition (.lowTimesOut rest ⟨hr, hc, hp, hin⟩ ht),
    fun ht => step_of_transition (.lowCounts rest ⟨hr, hc, hp, hin⟩ ht), fun hinv => ?_⟩
  obtain ⟨-, hn, -⟩ := (phaseInv_bitLow hp).1 (hinv.framed hr hc).inPhase
  omega

/-- Settles O17: the row of a cell that is not the last of its byte. -/
theorem fallingEdgeCompletesCell : Obligations.FallingEdgeCompletesCell := by
  intro s rest hr hc hp hb hin
  exact step_of_transition (.cellDone rest ⟨hr, hc, hp, hin⟩ hb)

/-- Settles O18: the two rows of BIT_HIGH without an edge, and the invariant's clause for it. -/
theorem highPhaseCountsOrTimesOut : Obligations.HighPhaseCountsOrTimesOut := by
  intro s rest hr hc hp hin
  refine ⟨fun ht => step_of_transition (.highTimesOut rest ⟨hr, hc, hp, hin⟩ ht),
    fun ht => step_of_transition (.highCounts rest ⟨hr, hc, hp, hin⟩ ht), fun hinv => ?_⟩
  obtain ⟨-, hn, -⟩ := (phaseInv_bitHigh hp).1 (hinv.framed hr hc).inPhase
  omega

/-- Settles O22: the rows of the stop bit's rising edge, one for each segment. -/
theorem stopBitEndsSegment : Obligations.StopBitEndsSegment := by
  intro s rest hr hc hp hin
  exact ⟨fun hseg => step_of_transition (.commandStops rest ⟨hr, hc, hp, hin⟩ hseg),
    fun hseg => step_of_transition (.responseStops rest ⟨hr, hc, hp, hin⟩ hseg)⟩

/-! ### A pulse and a stop bit of any length -/

/-- Settles O19: the low samples before the last are counted below the timeout, and the rising edge
classifies the count. -/
theorem lowPulseOfAnyLengthIsClassified : Obligations.LowPulseOfAnyLengthIsClassified := by
  intro s d rest hr hc hp ht hd hle hin
  obtain ⟨k, rfl⟩ : ∃ k, d = k + 1 := ⟨d - 1, by omega⟩
  rw [Nat.add_sub_cancel, presenting_append] at hin
  obtain ⟨e, hlow⟩ := low_run hr hc hp (by omega) hin
  refine ⟨_, (runSteps_add hlow).trans ((runSteps_one _).trans
    (step_of_transition (.lowEnds rest ⟨hr, hc, hp, rfl⟩))), rfl, hc, ?_, ?_, rfl, rfl⟩
  · simp only [ht, Nat.zero_add]
  · simp only [ht, Nat.zero_add, classify_eq, decide_eq_false_iff_not, not_le, gt_iff_lt]

/-- Settles O23: `stop_run` says it of every register but the port `ev_count`, which the last of the low
samples leaves 0. -/
theorem stopBitWaitHasNoBound : Obligations.StopBitWaitHasNoBound := by
  intro s k rest hr hc hp hin
  cases k with
  | zero => rw [← show s.input = rest from hin]; rfl
  | succ k =>
    rw [List.replicate_succ', presenting_append] at hin
    obtain ⟨e, hwait⟩ := stop_run hr hc hp hin
    exact (runSteps_add hwait).trans ((runSteps_one _).trans
      (step_of_transition (.stopWaits rest ⟨hr, hc, hp, rfl⟩)))

/-! ### The level of the line -/

/-- The level of the line in a phase, whose other level is the awaited edge (R140). -/
def Phase.level : Phase → Bool
  | .bitLow => false
  | .bitHigh => true
  | .stopLow => false
  | .rspWait => true

/-- The line's latest level `x` is the one listed for the phase, and high in IDLE. -/
structure LevelFits (t : State) (x : Bool) : Prop where
  command : t.state = .command → t.phase.level = x
  idle : t.state = .idle → x = true

theorem levelFits_of_initial (hs : t.state = .initial) : LevelFits t x where
  command hc := nomatch hs.symm.trans hc
  idle hi := nomatch hs.symm.trans hi

theorem levelFits_of_idle (hs : t.state = .idle) (hx : x = true) : LevelFits t x where
  command hc := nomatch hs.symm.trans hc
  idle _ := hx

theorem levelFits_of_command (hs : t.state = .command) (hp : t.phase.level = x) :
    LevelFits t x where
  command _ := hp
  idle hi := nomatch hs.symm.trans hi

/-- What begins after a byte begins with a low line. -/
theorem level_afterByte (k len : Length6) (i : Nat) (s : State) :
    (afterByte k len i s).phase.level = false := by
  rcases afterByte_cases k len i s with ⟨-, h⟩ | ⟨-, h⟩ <;> rw [h] <;> rfl

theorem sample_eq_of_input {y : Bool} {rest' : List InputEvent} (h : s.input = .sample y :: rest')
    (hin : s.input = .sample x :: rest) : y = x := by
  cases h.symm.trans hin
  rfl

section Waiting

variable {p : Phase} {y : Bool} {rest' : List InputEvent}

theorem sample_eq_of_waiting (hw : Waiting s p y rest') (hin : s.input = .sample x :: rest) :
    y = x := by
  obtain ⟨-, -, -, h⟩ := hw
  exact sample_eq_of_input h hin

theorem level_of_waiting (hw : Waiting s p y rest') (hp : p.level = y) : s.phase.level = y := by
  rw [phase_of_waiting hw, hp]

/-- A sample that leaves the machine in the frame it is in, in a phase that lists its level. -/
theorem levelFits_of_waiting (hw : Waiting s p y rest') (hin : s.input = .sample x :: rest)
    (hs : t.state = s.state) (hp : t.phase.level = y) : LevelFits t x :=
  levelFits_of_command (hs.trans (state_of_waiting hw)) (hp.trans (sample_eq_of_waiting hw hin))

end Waiting

/-- Every sample taken while RUNNING leads to a phase that lists its level, row by row of R192: an edge
leads to a phase of its own level, and a wait without an edge stays in its phase. -/
theorem levelFits_of_transition (h : Transition s t) (hr : s.run = .running)
    (hin : s.input = .sample x :: rest) : LevelFits t x := by
  cases h with
  | noInput h => cases hin.symm.trans h
  | reset _ h => cases hin.symm.trans h
  | configureIgnored _ _ _ h => cases hin.symm.trans h
  | configureFails _ _ _ h => cases hin.symm.trans h
  | configureLoads _ _ _ _ h => cases hin.symm.trans h
  | notConfigured _ _ _ hr' => cases hr.symm.trans hr'
  | ignored _ _ _ hr' => cases hr.symm.trans hr'
  | idleReached _ h => exact levelFits_of_idle rfl (sample_eq_of_input h hin).symm
  | highCounted _ _ _ hs => exact levelFits_of_initial hs
  | lowInInitial _ _ _ hs => exact levelFits_of_initial hs
  | idleHigh _ h _ hs => exact levelFits_of_idle hs (sample_eq_of_input h hin).symm
  | frameStarts _ h => exact levelFits_of_command rfl (sample_eq_of_input h hin)
  | lowEnds _ hw => exact levelFits_of_waiting hw hin rfl rfl
  | lowTimesOut => exact levelFits_of_initial rfl
  | lowCounts _ hw => exact levelFits_of_waiting hw hin rfl (level_of_waiting (s := s) hw rfl)
  | highTimesOut => exact levelFits_of_initial rfl
  | highCounts _ hw => exact levelFits_of_waiting hw hin rfl (level_of_waiting (s := s) hw rfl)
  | cellDone _ hw => exact levelFits_of_waiting hw hin rfl rfl
  | opcodeKnown _ _ hw => exact levelFits_of_waiting hw hin (by simp) (level_afterByte ..)
  | opcodeUnknown => exact levelFits_of_initial rfl
  | commandData _ hw => exact levelFits_of_waiting hw hin (by simp) (level_afterByte ..)
  | responseData _ hw => exact levelFits_of_waiting hw hin (by simp) (level_afterByte ..)
  | stopWaits _ hw => exact levelFits_of_waiting hw hin rfl (level_of_waiting (s := s) hw rfl)
  | commandStops _ hw => exact levelFits_of_waiting hw hin rfl rfl
  | responseStops _ hw => exact levelFits_of_idle rfl (sample_eq_of_waiting hw hin).symm
  | responseTimesOut => exact levelFits_of_initial rfl
  | gapCounts _ hw => exact levelFits_of_waiting hw hin rfl (level_of_waiting (s := s) hw rfl)
  | responseBegins _ hw => exact levelFits_of_waiting hw hin rfl rfl
  | emptyResponse _ hw => exact levelFits_of_waiting hw hin rfl rfl

/-- Settles O29: the four phases and IDLE, read off `levelFits_of_transition`. -/
theorem lineLevelMatchesPhase : Obligations.LineLevelMatchesPhase := by
  intro s t x rest hr hin hstep
  obtain ⟨hcommand, hidle⟩ := levelFits_of_transition (transition_of_step hstep) hr hin
  have hphase {p : Phase} (hc : t.state = .command) (hp : t.phase = p) : x = p.level :=
    hp ▸ (hcommand hc).symm
  exact ⟨hphase, hphase, hphase, hphase, hidle⟩

end Sys2Proof.Machine
end

section
/-! Bytes that fail in some cell (41_bit_byte_stop.md R152): the cells before it, then the phase that
times out, from the first falling edge of any byte or from IDLE. -/

namespace Sys2Proof.Machine

variable {s : State} {bt low : Nat} {cs : List Cell} {tail : List Bool} {rest : List InputEvent}

/-- The falling edge that begins a cell has just been consumed. -/
structure CellBegins (s : State) : Prop where
  run : s.run = .running
  state : s.state = .command
  phase : s.phase = .bitLow
  tmr : s.tmr = 0
  n : s.bitStart + 1 = s.n

/-- The sample `stop` has just ended, by a bit timeout, the frame that began at `frame`, after the
events `old` (60_exceptions.md R246). -/
def AbortedAt (old : List Event) (frame stop : Nat) (rest : List InputEvent) (t : State) : Prop :=
  t.run = .running ∧ t.state = .initial ∧ t.hiCnt = 0 ∧ t.input = rest ∧ t.n = stop + 1 ∧
    t.events = old ++ [⟨frame, stop, .error .bitTimeout⟩]

/-- A bit timeout that the sample `stop` raises in a frame ends it there. -/
theorem abortedAt_takeError {stop : Nat} (hr : s.run = .running) (hn : s.n = stop + 1) :
    AbortedAt s.events s.frameStart stop s.input (takeError (.frameLocal .bitTimeout) stop s) :=
  ⟨hr, rfl, rfl, rfl, hn, rfl⟩

/-- After the falling edge that begins a cell, the samples `tail` make it time out at the last one. -/
def CellTimesOut (bt : Nat) (tail : List Bool) : Prop :=
  ∀ (u : State) (rest : List InputEvent), CellBegins u → u.bitTimeout = bt →
    u.input = presenting tail rest → ∃ t, runSteps tail.length u = .next t ∧
      AbortedAt u.events u.frameStart (u.bitStart + tail.length) rest t

/-- A low phase that goes on `bit_timeout` samples past its falling edge (R143). -/
theorem cellTimesOut_low (h : 1 ≤ bt) : CellTimesOut bt (List.replicate bt false) := by
  intro u rest hu hbt hin
  obtain ⟨k, rfl⟩ : ∃ k, bt = k + 1 := ⟨bt - 1, by omega⟩
  obtain ⟨hr, hs, hp, htmr, hn⟩ := hu
  have hrun := low_timeout_run hr hs hp (by omega) hin
  have hstop : u.n + k = u.bitStart + (k + 1) := by omega
  rw [hstop] at hrun
  rw [List.length_replicate]
  exact ⟨_, hrun, abortedAt_takeError hr rfl⟩

/-- A high phase that goes on `bit_timeout` samples past its rising edge (R145): without its last sample
the cell is an accepted one. -/
theorem cellTimesOut_high (h1 : 1 ≤ low) (hle : low ≤ bt) :
    CellTimesOut bt (List.replicate (low - 1) false ++ List.replicate (bt + 1) true) := by
  intro u rest hu hbt hin
  obtain ⟨hr, hs, hp, htmr, hn⟩ := hu
  have hcell : (Cell.mk low bt).accepted u.bitTimeout = true :=
    (accepted_iff _ _).2 ⟨h1, hbt ▸ hle, h1.trans hle, hbt.ge⟩
  have hlen : (List.replicate (low - 1) false ++ List.replicate (bt + 1) true).length =
      (Cell.mk low bt).length - 1 + 1 := by
    simp only [List.length_append, List.length_replicate, Cell.length]
    omega
  rw [List.replicate_succ', ← List.append_assoc, presenting_append] at hin
  obtain ⟨e, hrun⟩ := cell_run hr hs hp htmr hcell hin
  have hlast := high_timeout_run (k := 0) (rest := rest) (s := { u with
    input := presenting [true] rest, n := u.n + ((Cell.mk low bt).length - 1), lowDur := low,
    bitVal := classify low u.bitMidpoint, phase := .bitHigh, tmr := bt - 1, evCount := e })
    hr hs rfl (by simp only; omega) rfl
  have hstop : u.n + ((Cell.mk low bt).length - 1) + 0 =
      u.bitStart + ((Cell.mk low bt).length - 1 + 1) := by omega
  simp only [hstop] at hlast
  rw [hlen]
  exact ⟨_, (runSteps_add hrun).trans hlast, abortedAt_takeError hr rfl⟩

/-- Cells that are complete, then the first low sample of one that is not. -/
theorem cells_then_low (h : cs.all (Cell.accepted bt) = true) (tail : List Bool) :
    cs.flatMap Cell.samples ++ false :: tail =
      false :: ((cs.flatMap Cell.samples ++ [false]).tail ++ tail) := by
  rw [List.append_cons, cells_head h, List.cons_append, List.tail_cons]

/-- A byte whose next cell times out once the cells `cs` are complete, from its first falling edge on. -/
theorem CellTimesOut.byte_run (ht : CellTimesOut s.bitTimeout tail) (hs : CellBegins s)
    (h0 : s.bitCnt = 0) (hlen : cs.length ≤ 7) (ha : cs.all (Cell.accepted s.bitTimeout) = true)
    (hin : s.input = presenting ((cs.flatMap Cell.samples ++ [false]).tail ++ tail) rest) :
    ∃ t, runSteps (cellsLength cs + tail.length) s = .next t ∧
      AbortedAt (s.events ++ cellEvents s.bitMidpoint s.bitStart cs) s.frameStart
        (s.bitStart + cellsLength cs + tail.length) rest t := by
  obtain ⟨hr, hc, hp, htmr, hn⟩ := hs
  rw [presenting_append] at hin
  obtain ⟨d, b, e, hcells⟩ := cells_run hr hc hp htmr hn (by simpa [h0] using hlen) ha hin
  obtain ⟨t, hrun, hab⟩ := ht { s with
    input := presenting tail rest, n := s.n + cellsLength cs,
    events := s.events ++ cellEvents s.bitMidpoint s.bitStart cs,
    shreg := shiftCells s.bitMidpoint s.shreg cs,
    bitCnt := s.bitCnt + BitVec.ofNat 3 cs.length, bitStart := s.bitStart + cellsLength cs,
    lowDur := d, bitVal := b, evCount := e } rest ⟨hr, hc, hp, htmr, by simp only; omega⟩ rfl rfl
  exact ⟨t, (runSteps_add hcells).trans hrun, hab⟩

/-- The same for the first byte of a frame, from IDLE: its falling edge begins the frame. -/
theorem CellTimesOut.frame_run (ht : CellTimesOut s.bitTimeout tail) (hr : s.run = .running)
    (hs : s.state = .idle) (hlen : cs.length ≤ 7)
    (ha : cs.all (Cell.accepted s.bitTimeout) = true)
    (hin : s.input = presenting (cs.flatMap Cell.samples ++ false :: tail) rest) :
    ∃ t, runSteps (cellsLength cs + tail.length + 1) s = .next t ∧
      AbortedAt (s.events ++ cellEvents s.bitMidpoint s.n cs) s.n
        (s.n + cellsLength cs + tail.length) rest t := by
  rw [cells_then_low ha, presenting_cons] at hin
  rw [runSteps_succ (step_of_transition (.frameStarts _ hin hr hs))]
  exact CellTimesOut.byte_run (s := startFrame s.n (taken _ s)) ht ⟨hr, rfl, rfl, rfl, rfl⟩ rfl hlen
    ha rfl

/-- Both of them, for the samples `xs` of such a byte, of which the last `d` follow the falling edge of
the cell that times out. -/
theorem CellTimesOut.aborts {xs : List Bool} {d : Nat} (ht : CellTimesOut s.bitTimeout tail)
    (hr : s.run = .running) (hlen : cs.length ≤ 7) (ha : cs.all (Cell.accepted s.bitTimeout) = true)
    (hxs : xs = cs.flatMap Cell.samples ++ false :: tail) (hd : tail.length = d) :
    (s.state = .idle → s.input = presenting xs rest → ∃ t, runSteps xs.length s = .next t ∧
      AbortedAt (s.events ++ cellEvents s.bitMidpoint s.n cs) s.n
        (s.n + cellsLength cs + d) rest t) ∧
    (CellBegins s → s.bitCnt = 0 → .sample false :: s.input = presenting xs rest →
      ∃ t, runSteps (xs.length - 1) s = .next t ∧
        AbortedAt (s.events ++ cellEvents s.bitMidpoint s.bitStart cs) s.frameStart
          (s.bitStart + cellsLength cs + d) rest t) := by
  subst hxs hd
  have hlength : (cs.flatMap Cell.samples ++ false :: tail).length =
      cellsLength cs + tail.length + 1 := by
    rw [List.length_append, length_cellSamples, List.length_cons, Nat.add_assoc]
  rw [hlength, Nat.add_sub_cancel]
  refine ⟨fun hs hin => ht.frame_run hr hs hlen ha hin, fun hs h0 hin => ?_⟩
  rw [cells_then_low ha, presenting_cons] at hin
  exact ht.byte_run hs h0 hlen ha (List.cons.inj hin).2

/-- Settles O14: either failing cell, after its first low sample, times out; and so does then a frame's
first byte, from IDLE, or any byte, from its first falling edge. -/
theorem truncatedByteIsAborted : Obligations.TruncatedByteIsAborted := by
  intro s cs low rest hr hlen ha highFails lowFails aborted
  have hhigh (h1 : 1 ≤ low) (hle : low ≤ s.bitTimeout) :=
    (cellTimesOut_high h1 hle).aborts (xs := highFails) (d := low + s.bitTimeout) (rest := rest)
      hr hlen ha
      (by
        obtain ⟨k, rfl⟩ : ∃ k, low = k + 1 := ⟨low - 1, by omega⟩
        simp [highFails, List.replicate_succ])
      (by simp only [List.length_append, List.length_replicate]; omega)
  have hlow (h1 : 1 ≤ s.bitTimeout) :=
    (cellTimesOut_low h1).aborts (xs := lowFails) (rest := rest) hr hlen ha
      (by simp [lowFails, List.replicate_succ]) List.length_replicate
  rw [Nat.add_assoc _ low, Nat.add_assoc _ low]
  refine ⟨fun hs => ⟨fun h1 hle => (hhigh h1 hle).1 hs, fun h1 => (hlow h1).1 hs⟩,
    fun hs hp ht h0 hn => ?_⟩
  have hbegins : CellBegins s := ⟨hr, hs, hp, ht, hn⟩
  exact ⟨fun h1 hle => (hhigh h1 hle).2 hbegins h0, fun h1 => (hlow h1).2 hbegins h0⟩

end Sys2Proof.Machine
end

section
/-! The frame state machine, step by step (42_frame_fsm.md R174 to R191): a single step is a row of R192,
and what a step can emit or leave is read off the rows. -/

namespace Sys2Proof.Machine

variable {s t : State} {x : Bool} {rest : List InputEvent}

/-! ### INITIAL, IDLE and the response gap, one sample -/

/-- Settles O27: the three rows of INITIAL. -/
theorem debounceStep : Obligations.DebounceStep := by
  intro s rest hr hs
  exact ⟨fun hin hc => step_of_transition (.idleReached rest hin hr hs hc),
    fun hin hc => step_of_transition (.highCounted rest hin hr hs hc),
    fun hin => step_of_transition (.lowInInitial rest hin hr hs)⟩

/-- Settles O26: the two rows of IDLE. -/
theorem fallingEdgeStartsFrame : Obligations.FallingEdgeStartsFrame := by
  intro s rest hr hs
  exact ⟨fun hin => step_of_transition (.frameStarts rest hin hr hs),
    fun hin => step_of_transition (.idleHigh rest hin hr hs)⟩

/-- Settles O24: the four rows of RSP_WAIT. -/
theorem responseWaitStep : Obligations.ResponseWaitStep := by
  intro s rest hr hc hp
  exact ⟨fun hin hl => step_of_transition (.responseBegins rest ⟨hr, hc, hp, hin⟩ hl),
    fun hin hl => step_of_transition (.emptyResponse rest ⟨hr, hc, hp, hin⟩ hl),
    fun hin ht => step_of_transition (.responseTimesOut rest ⟨hr, hc, hp, hin⟩ ht),
    fun hin ht => step_of_transition (.gapCounts rest ⟨hr, hc, hp, hin⟩ ht)⟩

/-! ### The byte that recognises a command -/

/-- The length register tells a command of one byte from a longer one. -/
theorem one_eq_commandLen_iff (i : Instr) :
    1 = BitVec.ofNat 6 i.spec.commandLen ↔ i.spec.commandLen = 1 := by
  obtain ⟨-, hmax, -⟩ := spec_bounds i
  rw [← BitVec.toNat_inj, BitVec.toNat_ofNat]
  show 1 = _ ↔ _
  omega

/-- A command of one byte: AfterByte begins the stop bit (R179, R187, R157). -/
theorem exec_opcodeOnly {i : Instr} (h : i.spec.commandLen = 1) (s : State) :
    exec i s = .next { s with
      opcode := encodeOpcode i, cmdLen := 1, rspLen := BitVec.ofNat 6 i.spec.responseLen,
      byteIdx := 1, stopStart := s.cursor, phase := .stopLow,
      events := s.events ++ [⟨s.byteStart, s.cursor, .command (encodeOpcode i) true⟩],
      evCount := s.evCount + 1 } := by
  have hone := (one_eq_commandLen_iff i).2 h
  rw [exec_eq_recognise, recognise, afterByte, if_pos hone, ← hone]
  rfl

/-- A command of more bytes: AfterByte begins the first data byte (R179, R187, R148). -/
theorem exec_withData {i : Instr} (h : i.spec.commandLen ≠ 1) (s : State) :
    exec i s = .next { s with
      opcode := encodeOpcode i, cmdLen := BitVec.ofNat 6 i.spec.commandLen,
      rspLen := BitVec.ofNat 6 i.spec.responseLen, byteIdx := 1,
      byteStart := s.cursor, bitStart := s.cursor, bitCnt := 0, shreg := 0, phase := .bitLow,
      tmr := 0, events := s.events ++ [⟨s.byteStart, s.cursor, .command (encodeOpcode i) true⟩],
      evCount := s.evCount + 1 } := by
  rw [exec_eq_recognise, recognise, afterByte, if_neg (mt (one_eq_commandLen_iff i).1 h)]
  rfl

theorem cursor_of_n {p : Nat} (hn : s.n = p + 1) : s.cursor = p := by
  rw [State.cursor, hn, Nat.add_sub_cancel]

/-- Settles O2: the command length of each of the four rows of the table is 1. -/
theorem opcodeOnlyCommandsComplete : Obligations.OpcodeOnlyCommandsComplete := by
  intro s p hn
  obtain rfl := cursor_of_n hn
  exact ⟨exec_opcodeOnly (i := .info) rfl s, exec_opcodeOnly (i := .controllerState) rfl s,
    exec_opcodeOnly (i := .readOrigin) rfl s, exec_opcodeOnly (i := .reset) rfl s⟩

/-- Settles O3: the command length of none of the eleven rows of the table is 1. -/
theorem dataCommandsComplete : Obligations.DataCommandsComplete := by
  intro s p hn
  obtain rfl := cursor_of_n hn
  have hdone (i : Instr) (h : i.spec.commandLen ≠ 1) := exec_withData h s
  exact ⟨hdone .readAccessory (by decide), hdone .writeAccessory (by decide),
    hdone .readEeprom (by decide), hdone .writeEeprom (by decide), hdone .readGba (by decide),
    hdone .writeGba (by decide), hdone .shortPoll (by decide), hdone .calibrate (by decide),
    hdone .longPoll (by decide), hdone .fixDevice (by decide), hdone .keyboardPoll (by decide)⟩

/-- Settles O4: what no OpcodeDone writes is said by the frame laws of `recognise`; the registers of a
byte are kept when the stop bit begins, and those of the stop bit when a byte does. -/
theorem commandsLeaveTheRest : Obligations.CommandsLeaveTheRest := by
  intro i s t h
  have hexec := h
  rw [exec_eq_recognise] at hexec
  cases hexec
  refine ⟨?_, ?_, ?_, ?_, ?_, ?_, ?_, ?_, ?_, ?_, ?_, ?_, ?_, ?_, ?_, ?_, ?_, fun k hk => ?_,
    fun hlen => ?_, fun hlen => ?_⟩
  case refine_18 => rw [recognise_events, List.getElem?_append_left hk]
  case refine_19 =>
    rw [← Host.Outcome.next.inj ((exec_opcodeOnly hlen s).symm.trans h)]
    exact ⟨rfl, rfl, rfl, rfl, rfl⟩
  case refine_20 => rw [← Host.Outcome.next.inj ((exec_withData hlen s).symm.trans h)]
  all_goals simp

/-! ### The byte that does not, and the data bytes -/

theorem lookup_eq_none_iff {b : Byte} : lookup b = none ↔ decodeOpcode b = none := by
  rw [lookup_eq_decodeOpcode, Option.map_eq_none_iff]

/-- Settles O5: the row of the unknown opcode, which latches the opcode too (log 10). -/
theorem unknownOpcodeRaisesError : Obligations.UnknownOpcodeRaisesError := by
  intro s rest hr hc hp hb hseg hidx hin hlook
  refine ⟨shiftIn s.shreg s.bitVal,
    (step_of_transition (.opcodeUnknown rest ⟨hr, hc, hp, hin⟩ hb ⟨hseg, hidx⟩
      (lookup_eq_none_iff.1 hlook))).trans ?_⟩
  simp [unknownOpcode, takeError, emit, completeCell, State.cursor]

section Data

variable {len : Length6} {pl : Payload}

/-- The falling edge after the last cell of a data byte, of either segment: the byte is counted, and
AfterByte follows (R181, R185). -/
theorem step_dataByte (hw : Waiting s .bitHigh false rest) (hb : s.bitCnt = 7)
    (hdata : s.seg = .cmd → s.byteIdx ≠ 0) (hlen : segmentLen s = len)
    (hpl : dataPayload s.seg (shiftIn s.shreg s.bitVal) = pl) :
    step s = .next (afterByte (s.byteIdx + 1) len s.n { s with
      input := rest, n := s.n + 1, shreg := shiftIn s.shreg s.bitVal, byteIdx := s.byteIdx + 1,
      events := s.events ++ [⟨s.bitStart, s.n, .bit s.bitVal⟩, ⟨s.byteStart, s.n, pl⟩],
      evCount := 2 }) := by
  subst hlen hpl
  rw [step_byteDone hw hb, byteDone_data (by exact hdata)]
  simp [emit, completeCell, segmentLen]

theorem step_lastDataByte (hw : Waiting s .bitHigh false rest) (hb : s.bitCnt = 7)
    (hdata : s.seg = .cmd → s.byteIdx ≠ 0) (hlen : segmentLen s = len)
    (hpl : dataPayload s.seg (shiftIn s.shreg s.bitVal) = pl) (hlast : s.byteIdx + 1 = len) :
    step s = .next { s with
      input := rest, n := s.n + 1, shreg := shiftIn s.shreg s.bitVal, byteIdx := s.byteIdx + 1,
      events := s.events ++ [⟨s.bitStart, s.n, .bit s.bitVal⟩, ⟨s.byteStart, s.n, pl⟩],
      evCount := 2, stopStart := s.n, phase := .stopLow } := by
  rw [step_dataByte hw hb hdata hlen hpl, afterByte, if_pos hlast]
  rfl

theorem step_innerDataByte (hw : Waiting s .bitHigh false rest) (hb : s.bitCnt = 7)
    (hdata : s.seg = .cmd → s.byteIdx ≠ 0) (hlen : segmentLen s = len)
    (hpl : dataPayload s.seg (shiftIn s.shreg s.bitVal) = pl) (hmore : s.byteIdx + 1 ≠ len) :
    step s = .next { s with
      input := rest, n := s.n + 1, byteIdx := s.byteIdx + 1,
      events := s.events ++ [⟨s.bitStart, s.n, .bit s.bitVal⟩, ⟨s.byteStart, s.n, pl⟩],
      evCount := 2,
      byteStart := s.n, bitStart := s.n, bitCnt := 0, shreg := 0, phase := .bitLow, tmr := 0 } := by
  rw [step_dataByte hw hb hdata hlen hpl, afterByte, if_neg hmore]
  rfl

end Data

/-- Settles O20: a data byte of the command, the last one or not. -/
theorem commandDataByteCompletes : Obligations.CommandDataByteCompletes := by
  intro s rest hr hc hp hb hseg hidx hin
  have hw : Waiting s .bitHigh false rest := ⟨hr, hc, hp, hin⟩
  have hlen : segmentLen s = s.cmdLen := by rw [segmentLen, hseg]
  have hpl := congrArg (dataPayload · (shiftIn s.shreg s.bitVal)) hseg
  exact ⟨step_lastDataByte hw hb (fun _ => hidx) hlen hpl,
    step_innerDataByte hw hb (fun _ => hidx) hlen hpl⟩

/-- Settles O21: a byte of the response, the last one or not. -/
theorem responseDataByteCompletes : Obligations.ResponseDataByteCompletes := by
  intro s rest hr hc hp hb hseg hin
  have hw : Waiting s .bitHigh false rest := ⟨hr, hc, hp, hin⟩
  have hdata : s.seg = .cmd → s.byteIdx ≠ 0 := fun h => nomatch hseg.symm.trans h
  have hlen : segmentLen s = s.rspLen := by rw [segmentLen, hseg]
  have hpl := congrArg (dataPayload · (shiftIn s.shreg s.bitVal)) hseg
  exact ⟨step_lastDataByte hw hb hdata hlen hpl, step_innerDataByte hw hb hdata hlen hpl⟩

/-! ### Every state has a next state -/

theorem byteDone_total (v : Byte) (i : Nat) (s : State) : ∃ t, byteDone v i s = .next t := by
  rcases byteDone_cases v i s with ⟨c, -, -, -, h⟩ | ⟨-, -, -, h⟩ | ⟨-, -, h⟩ | ⟨-, h⟩
  · exact ⟨_, h.trans (exec_eq_recognise c s)⟩
  · exact ⟨_, h⟩
  · exact ⟨_, h⟩
  · exact ⟨_, h⟩

theorem stepBitHigh_total (x : Bool) (i : Nat) (s : State) : ∃ t, stepBitHigh x i s = .next t := by
  cases x with
  | true => exact ⟨_, rfl⟩
  | false =>
    by_cases hb : s.bitCnt = 7
    · rw [stepBitHigh_byte hb]
      exact byteDone_total ..
    · exact ⟨_, stepBitHigh_cell hb⟩

theorem stepRunning_total (x : Bool) (i : Nat) (s : State) : ∃ t, stepRunning x i s = .next t := by
  unfold stepRunning
  cases s.state with
  | initial => exact ⟨_, rfl⟩
  | idle => exact ⟨_, rfl⟩
  | command =>
    simp only [stepCommand]
    cases s.phase with
    | bitHigh => exact stepBitHigh_total x i s
    | bitLow => exact ⟨_, rfl⟩
    | stopLow => exact ⟨_, rfl⟩
    | rspWait => exact ⟨_, rfl⟩

/-- Settles O31: by the pending input event and the run status; all cases but a sample while RUNNING are
plain next states. -/
theorem everyStepHasANextState : Obligations.EveryStepHasANextState := by
  intro s
  cases hin : s.input with
  | nil => exact ⟨s, step_nil hin⟩
  | cons e rest =>
    cases e with
    | reset => exact ⟨_, step_reset hin⟩
    | configure f r => exact ⟨_, step_configure hin⟩
    | sample x =>
      cases hr : s.run with
      | unconfigured => exact ⟨_, step_unconfigured hr hin⟩
      | fatal => exact ⟨_, step_fatal hr hin⟩
      | running =>
        rw [step_running hr hin]
        exact stepRunning_total ..

/-! ### What a step emits -/

/-- The lists of events that a step from `s` can emit (R190). -/
inductive StepEvents (s : State) : List Event → Prop
  | silent : StepEvents s []
  | bit : StepEvents s [⟨s.bitStart, s.n, .bit s.bitVal⟩]
  | stopBit : StepEvents s [⟨s.stopStart, s.n, .stopBit s.stopBitWidth⟩]
  | timeout (e : FrameError) (he : e = .bitTimeout ∨ e = .responseTimeout) :
      StepEvents s [⟨s.frameStart, s.n, .error e⟩]
  | byte (v : Byte) (p : Payload)
      (hp : p = .command v true ∨ p = .commandData v ∨ p = .responseData v) :
      StepEvents s [⟨s.bitStart, s.n, .bit s.bitVal⟩, ⟨s.byteStart, s.n, p⟩]
  | unknown (v : Byte) (hv : lookup v = none) :
      StepEvents s [⟨s.bitStart, s.n, .bit s.bitVal⟩, ⟨s.byteStart, s.n, .command v false⟩,
        ⟨s.frameStart, s.n, .error .unknownCommand⟩]

/-- Every row of R192 emits one of them. -/
theorem stepEvents_of_transition (h : Transition s t) :
    ∃ new, t.events = s.events ++ new ∧ StepEvents s new := by
  cases h with
  | noInput | reset | configureIgnored | configureFails | configureLoads | notConfigured | ignored
  | idleReached | highCounted | lowInInitial | idleHigh | frameStarts | lowEnds | lowCounts
  | highCounts | stopWaits | gapCounts | responseBegins | emptyResponse =>
    exact ⟨[], (List.append_nil _).symm, .silent⟩
  | lowTimesOut | highTimesOut => exact ⟨_, rfl, .timeout _ (.inl rfl)⟩
  | responseTimesOut => exact ⟨_, rfl, .timeout _ (.inr rfl)⟩
  | cellDone => exact ⟨_, rfl, .bit⟩
  | opcodeKnown rest i =>
    exact ⟨_, by simp [assembled_cursor], .byte (encodeOpcode i) _ (.inl rfl)⟩
  | opcodeUnknown rest hw hb ho hd =>
    exact ⟨_, by simp [assembled_cursor], .unknown _ (lookup_eq_none_iff.2 hd)⟩
  | commandData => exact ⟨_, by simp, .byte (shiftIn s.shreg s.bitVal) _ (.inr (.inl rfl))⟩
  | responseData => exact ⟨_, by simp, .byte (shiftIn s.shreg s.bitVal) _ (.inr (.inr rfl))⟩
  | commandStops | responseStops => exact ⟨_, rfl, .stopBit⟩

theorem StepEvents.stop_eq {new : List Event} (h : StepEvents s new) : ∀ e ∈ new, e.stop = s.n := by
  cases h <;> simp

/-- Settles O32: the list of events by the row that the step takes, their number by the port. -/
theorem eventsOfOneStep : Obligations.EventsOfOneStep := by
  intro s t h
  obtain ⟨new, happ, hnew⟩ := stepEvents_of_transition (transition_of_step h)
  have hcount (hin : s.input ≠ []) : t.evCount = new.length := by
    obtain ⟨-, hcount, -⟩ := evPort_of_step hin h happ
    exact hcount
  refine ⟨new, happ, hcount, hnew.stop_eq, ?_⟩
  cases hnew with
  | silent => exact .inl rfl
  | bit => exact .inr (.inl rfl)
  | stopBit => exact .inr (.inr (.inl rfl))
  | timeout e he =>
    rcases he with rfl | rfl
    · exact .inr (.inr (.inr (.inl rfl)))
    · exact .inr (.inr (.inr (.inr (.inl rfl))))
  | byte v p hp => exact .inr (.inr (.inr (.inr (.inr (.inl ⟨v, p, hp, rfl⟩)))))
  | unknown v hv => exact .inr (.inr (.inr (.inr (.inr (.inr ⟨v, hv, rfl⟩)))))

/-! ### How COMMAND is left -/

/-- A frame-local error has just ended, at the sample consumed in `s`, the frame that `s` was in. -/
def EndsInError (s t : State) : Prop :=
  t.state = .initial ∧ t.hiCnt = 0 ∧
    ∃ e : FrameError, t.events.getLast? = some ⟨s.frameStart, s.n, .error e⟩ ∧ s.phase ≠ .stopLow

theorem endsInError_takeError {p : Phase} (hw : Waiting s p x rest) (hp : p ≠ .stopLow)
    (e : FrameError) : EndsInError s (takeError (.frameLocal e) s.n (taken rest s)) :=
  ⟨rfl, rfl, e, by simp, phase_of_waiting hw ▸ hp⟩

/-- A sample in COMMAND leaves the frame going on, completes it, or ends it in an error, row by row of
R192. -/
theorem command_left (h : Transition s t) (hr : s.run = .running) (hs : s.state = .command)
    (hin : s.input = .sample x :: rest) :
    t.state = .command ∨
      (t.state = .idle ∧ s.phase = .stopLow ∧ s.seg = .rsp ∧ x = true ∧
        t.events = s.events ++ [⟨s.stopStart, s.n, .stopBit s.stopBitWidth⟩]) ∨
      EndsInError s t := by
  cases h with
  | noInput h | reset _ h | configureIgnored _ _ _ h | configureFails _ _ _ h
  | configureLoads _ _ _ _ h => cases hin.symm.trans h
  | notConfigured _ _ _ h | ignored _ _ _ h => cases hr.symm.trans h
  | idleReached _ _ _ h | highCounted _ _ _ h | lowInInitial _ _ _ h | idleHigh _ _ _ h
  | frameStarts _ _ _ h => cases hs.symm.trans h
  | lowEnds | lowCounts | highCounts | stopWaits | commandStops | gapCounts =>
    exact .inl hs
  | cellDone | opcodeKnown | commandData | responseData | responseBegins | emptyResponse =>
    exact .inl (by simp [hs])
  | lowTimesOut _ hw | highTimesOut _ hw | responseTimesOut _ hw =>
    exact .inr (.inr (endsInError_takeError hw nofun _))
  | opcodeUnknown _ hw =>
    exact .inr (.inr ⟨rfl, rfl, .unknownCommand, by simp [assembled_cursor],
      by simp [phase_of_waiting hw]⟩)
  | responseStops _ hw hseg =>
    exact .inr (.inl ⟨rfl, phase_of_waiting hw, hseg, (sample_eq_of_waiting hw hin).symm, rfl⟩)

/-- Settles O30: RUNNING is a law of the samples, the rest is `command_left`. -/
theorem commandIsLeftOnlyByCompletionOrError : Obligations.CommandIsLeftOnlyByCompletionOrError := by
  intro s t x rest hr hs hin h
  exact ⟨step_sample_run hin hr h, command_left (transition_of_step h) hr hs hin⟩

end Sys2Proof.Machine
end

section
/-! The frame state machine over runs (42_frame_fsm.md): the idle gap, the bound on the response, and the
events of a whole frame. -/

namespace Sys2Proof.Machine

variable {s : State} {k : Nat} {rest : List InputEvent}

/-! ### The idle gap -/

/-- The idle count after some samples in INITIAL, `c` before them (42_frame_fsm.md R174). -/
def idleCount (c : Nat) (xs : List Bool) : Nat := xs.foldl (fun c x => if x then c + 1 else 0) c

@[simp] theorem idleCount_replicate (c k : Nat) : idleCount c (List.replicate k true) = c + k := by
  induction k generalizing c with
  | zero => rfl
  | succ k ih => exact (ih (c + 1)).trans (Nat.add_right_comm ..)

/-- High samples that end below the bound are no gap. -/
theorem noIdleGap_replicate {c m : Nat} (h : c + k < m) :
    noIdleGap m c (List.replicate k true) = true := by
  induction k generalizing c with
  | zero => rfl
  | succ k ih =>
    have hhead : c + 1 < m := by omega
    simp [List.replicate_succ, noIdleGap, hhead, ih (c := c + 1) (by omega)]

/-- Samples without an idle gap keep the machine in INITIAL, and only the idle count follows them. -/
theorem debounce_run {xs : List Bool} (hr : s.run = .running) (hs : s.state = .initial)
    (hgap : noIdleGap s.idleMin s.hiCnt xs = true) (hin : s.input = presenting xs rest) :
    ∃ e, runSteps xs.length s = .next { s with
      input := rest, n := s.n + xs.length, hiCnt := idleCount s.hiCnt xs, evCount := e } := by
  induction xs generalizing s with
  | nil => exact ⟨s.evCount, by rw [← show s.input = rest from hin]; rfl⟩
  | cons x xs ih =>
    have hhead : step s = .next { s with
        input := presenting xs rest, n := s.n + 1, hiCnt := if x then s.hiCnt + 1 else 0,
        evCount := 0 } ∧ noIdleGap s.idleMin (if x then s.hiCnt + 1 else 0) xs = true := by
      cases x with
      | true =>
        rw [noIdleGap, if_pos rfl, Bool.and_eq_true, decide_eq_true_eq] at hgap
        obtain ⟨hbelow, hgap⟩ := hgap
        exact ⟨step_of_transition (.highCounted _ hin hr hs hbelow.ne), hgap⟩
      | false => exact ⟨step_of_transition (.lowInInitial _ hin hr hs), hgap⟩
    obtain ⟨hstep, hgap'⟩ := hhead
    obtain ⟨e, he⟩ := ih (s := { s with
      input := presenting xs rest, n := s.n + 1, hiCnt := if x then s.hiCnt + 1 else 0,
      evCount := 0 }) hr hs hgap' rfl
    refine ⟨e, (runSteps_succ hstep).trans (he.trans ?_)⟩
    simp only [List.length_cons, Nat.add_assoc, Nat.add_comm 1, idleCount, List.foldl_cons]

/-- High samples that fill the idle count lead to IDLE at the last of them. -/
theorem idle_gap_run (hr : s.run = .running) (hs : s.state = .initial)
    (hk : s.hiCnt + k + 1 = s.idleMin)
    (hin : s.input = presenting (List.replicate (k + 1) true) rest) :
    runSteps (k + 1) s = .next { s with
      input := rest, n := s.n + k + 1, hiCnt := s.hiCnt + k + 1, state := .idle, evCount := 0 } := by
  rw [List.replicate_succ', presenting_append] at hin
  obtain ⟨e, hbelow⟩ := debounce_run hr hs (noIdleGap_replicate (by omega)) hin
  rw [List.length_replicate, idleCount_replicate] at hbelow
  rw [runSteps_add hbelow, runSteps_one]
  exact step_of_transition (.idleReached rest rfl hr hs hk)

/-- Settles O28: the gap is `idle_gap_run`, and without one `debounce_run` says where the machine is. -/
theorem onlyAnIdleGapLeavesInitial : Obligations.OnlyAnIdleGapLeavesInitial := by
  intro s xs rest hr hs hin
  refine ⟨fun h0 hpos hxs => ?_, fun hgap => ?_⟩
  · obtain ⟨k, hk⟩ : ∃ k, s.idleMin = k + 1 := ⟨s.idleMin - 1, by omega⟩
    rw [hxs, hk] at hin
    rw [hxs, List.length_replicate, hk]
    exact ⟨_, idle_gap_run hr hs (by omega) hin, rfl, hr, rfl, rfl, rfl⟩
  · obtain ⟨e, hrun⟩ := debounce_run hr hs hgap hin
    exact ⟨_, hrun, hs, hr, rfl, rfl, rfl⟩

/-! ### The bound on the response -/

/-- A gap of `response_timeout` high samples past the rising edge of the command's stop bit (R183). -/
theorem gap_timeout_run (hr : s.run = .running) (hc : s.state = .command) (hp : s.phase = .rspWait)
    (hk : s.tmr + k + 1 = s.responseTimeout)
    (hin : s.input = presenting (List.replicate (k + 1) true) rest) :
    runSteps (k + 1) s = .next (takeError (.frameLocal .responseTimeout) (s.n + k) { s with
      input := rest, n := s.n + k + 1, tmr := s.tmr + k, evCount := 0 }) := by
  rw [List.replicate_succ', presenting_append] at hin
  obtain ⟨e, hbelow⟩ := gap_run hr hc hp (by omega) hin
  rw [runSteps_add hbelow, runSteps_one]
  exact step_of_transition (.responseTimesOut rest ⟨hr, hc, hp, rfl⟩ hk)

/-- Settles O25: below the bound `gap_run`, at it `gap_timeout_run`. -/
theorem responseTimeoutIsExact : Obligations.ResponseTimeoutIsExact := by
  intro s k rest hr hc hp ht hpos hle hin
  rcases hle.lt_or_eq with hlt | rfl
  · obtain ⟨e, hrun⟩ := gap_run hr hc hp (by omega) hin
    exact ⟨_, hrun, rfl, rfl, fun _ => ⟨hc, hp, rfl⟩, fun heq => absurd heq hlt.ne⟩
  · obtain ⟨k, hk⟩ : ∃ k, s.responseTimeout = k + 1 := ⟨s.responseTimeout - 1, by omega⟩
    rw [hk] at hin ⊢
    exact ⟨_, gap_timeout_run hr hc hp (by omega) hin, rfl, rfl,
      fun hlt => absurd hlt (Nat.lt_irrefl _), fun _ => ⟨rfl, rfl⟩⟩

/-- The machine after the rising edge of the command's stop bit (42_frame_fsm.md R182). -/
abbrev awaiting (rest : List InputEvent) (s : State) : State :=
  { stopped rest s with phase := .rspWait, tmr := 0 }

/-- Settles O52: the rising edge of the command's stop bit begins the wait with `tmr` at 0; after it the
gap stays below its bound, reaches it, or ends with the falling edge. -/
theorem responseBoundCountsFromTheStopBit : Obligations.ResponseBoundCountsFromTheStopBit := by
  intro s k rest hr hc hp hseg
  have hedge {xs : List Bool} {j : Nat} (hin : s.input = .sample true :: presenting xs rest) :
      runSteps (j + 1) s = runSteps j (awaiting (presenting xs rest) s) :=
    runSteps_succ (step_of_transition (.commandStops _ ⟨hr, hc, hp, hin⟩ hseg))
  refine ⟨fun hlt hin => ?_, fun hpos hk hin => ?_, fun hlt hl hin => ?_⟩
  · rw [hedge hin]
    obtain ⟨e, hrun⟩ := gap_run (s := awaiting _ s) (rest := rest) hr hc rfl (by simpa) rfl
    exact ⟨_, hrun, hc, rfl, rfl, Nat.add_right_comm .., rfl⟩
  · obtain ⟨j, rfl⟩ : ∃ j, k = j + 1 := ⟨k - 1, by omega⟩
    rw [hedge hin]
    refine ⟨_, gap_timeout_run (s := awaiting _ s) (rest := rest) hr hc rfl (by simpa) rfl,
      rfl, rfl, rfl, ?_⟩
    simp [← hk, Nat.add_assoc, Nat.add_comm 1]
  · rw [hedge hin]
    exact ⟨_, response_begins_run (s := awaiting _ s) (rest := rest) hr hc rfl rfl
      (Nat.succ_pos k) hlt hl rfl, hc, rfl, rfl, rfl, Nat.add_right_comm .., Nat.add_right_comm ..,
      rfl, rfl⟩

/-! ### The events of a whole frame -/

/-- Settles O11: the run over the four parts of the frame. -/
theorem wellFormedFrameEmitsItsEvents : Obligations.WellFormedFrameEmitsItsEvents := by
  intro s i w rest hr hs ha hin
  exact wireFrame_run hr hs ha hin

/-- What a predicate on events answers for each kind that a well-formed frame produces, whatever the
span and the value. Of the predicates of the model this needs no proof. -/
structure SeesKind (q : Event → Bool) (bit command commandData responseData stopBit : Bool) :
    Prop where
  bit : ∀ a b v, q ⟨a, b, .bit v⟩ = bit := by exact fun _ _ _ => rfl
  command : ∀ a b v, q ⟨a, b, .command v true⟩ = command := by exact fun _ _ _ => rfl
  commandData : ∀ a b v, q ⟨a, b, .commandData v⟩ = commandData := by exact fun _ _ _ => rfl
  responseData : ∀ a b v, q ⟨a, b, .responseData v⟩ = responseData := by exact fun _ _ _ => rfl
  stopBit : ∀ a b v, q ⟨a, b, .stopBit v⟩ = stopBit := by exact fun _ _ _ => rfl

section Count

variable {q : Event → Bool} {x y y₁ y₂ z : Bool} {m pos : Nat}

theorem countP_singleton_eq_toNat (q : Event → Bool) (e : Event) : [e].countP q = (q e).toNat := by
  cases h : q e <;> simp [h]

/-- One Bit event for each cell. -/
theorem cellEvents_countP (hbit : ∀ a b v, q ⟨a, b, .bit v⟩ = x) (cs : List Cell) :
    (cellEvents m pos cs).countP q = x.toNat * cs.length := by
  induction cs generalizing pos with
  | nil => rfl
  | cons c cs ih =>
    rw [cellEvents, List.countP_cons, ih, hbit, List.length_cons, Nat.mul_succ]
    cases x <;> rfl

/-- One Bit event for each cell and one event of its own for each byte. -/
theorem byteEvents_countP {mk : Byte → Payload} (hbit : ∀ a b v, q ⟨a, b, .bit v⟩ = x)
    (hmk : ∀ a b v, q ⟨a, b, mk v⟩ = y) (bs : List (List Cell)) :
    (byteEvents m mk pos bs).countP q = x.toNat * bs.flatten.length + y.toNat * bs.length := by
  induction bs generalizing pos with
  | nil => rfl
  | cons b bs ih =>
    rw [byteEvents, List.append_cons, List.countP_append, List.countP_append,
      countP_singleton_eq_toNat, cellEvents_countP hbit, hmk, ih, List.flatten_cons,
      List.length_append, List.length_cons]
    ring

theorem SeesKind.countP_events (h : SeesKind q x y y₁ y₂ z) (sw : Nat) (w : WireFrame) :
    (w.events m sw pos).countP q =
      x.toNat * (w.cmdBytes.flatten.length + w.rspBytes.flatten.length) +
        y.toNat * (w.cmdBytes.take 1).length + y₁.toNat * (w.cmdBytes.drop 1).length +
        y₂.toNat * w.rspBytes.length + z.toNat * 2 := by
  have hcells : w.cmdBytes.flatten.length =
      (w.cmdBytes.take 1).flatten.length + (w.cmdBytes.drop 1).flatten.length := by
    rw [← List.length_append, ← List.flatten_append, List.take_append_drop]
  simp only [WireFrame.events, List.countP_append, countP_singleton_eq_toNat, h.stopBit,
    byteEvents_countP h.bit h.command, byteEvents_countP h.bit h.commandData,
    byteEvents_countP h.bit h.responseData, hcells]
  ring

/-- Accepted bytes have eight cells each. -/
theorem accepted_flatten_length {t : Nat} {bs : List (List Cell)}
    (h : bs.all (acceptedByte t) = true) : bs.flatten.length = 8 * bs.length := by
  induction bs with
  | nil => rfl
  | cons b bs ih =>
    rw [List.all_cons, Bool.and_eq_true] at h
    obtain ⟨hb, hbs⟩ := h
    rw [acceptedByte, Bool.and_eq_true, beq_iff_eq] at hb
    obtain ⟨height, -⟩ := hb
    rw [List.flatten_cons, List.length_append, ih hbs, height, List.length_cons]
    ring

/-- The number of events of each kind in an accepted frame, by the lengths of its command's row. -/
theorem SeesKind.countP_accepted (h : SeesKind q x y y₁ y₂ z) {i : Instr} {w : WireFrame}
    {bt rt : Nat} (ha : w.accepted m bt rt i = true) (sw : Nat) :
    (w.events m sw pos).countP q =
      x.toNat * (8 * (i.spec.commandLen + i.spec.responseLen)) + y.toNat +
        y₁.toNat * (i.spec.commandLen - 1) + y₂.toNat * i.spec.responseLen + z.toNat * 2 := by
  obtain ⟨hclen, hrlen, -, hcmd, hrsp, -⟩ := WireFrame.accepted_iff.1 ha
  obtain ⟨hpos, -⟩ := spec_bounds i
  rw [h.countP_events, accepted_flatten_length hcmd, accepted_flatten_length hrsp,
    List.length_take, List.length_drop, hclen, hrlen, Nat.min_eq_left hpos, Nat.mul_one,
    Nat.mul_add 8]

end Count

/-- Settles O12: the events are those of O11, counted kind by kind. -/
theorem frameLengthCorrectness : Obligations.FrameLengthCorrectness := by
  intro s i w rest hr hs ha hin
  obtain ⟨t, hrun, -, hidle, -, -, hev⟩ := wireFrame_run hr hs ha hin
  have hcount {q : Event → Bool} {x y y₁ y₂ z : Bool} (h : SeesKind q x y y₁ y₂ z) :=
    h.countP_accepted (pos := s.n) ha s.stopBitWidth
  refine ⟨t, _, hrun, hev, hidle, ?_, ?_, ?_, ?_, ?_, ?_⟩
  · simpa using hcount ({} : SeesKind Event.isCommand false true false false false)
  · simpa using hcount ({} : SeesKind Event.isCommandData false false true false false)
  · simpa using hcount ({} : SeesKind Event.isResponseData false false false true false)
  · simpa using hcount ({} : SeesKind Event.isStopBit false false false false true)
  · simpa using hcount ({} : SeesKind Event.isError false false false false false)
  · simpa using hcount ({} : SeesKind Event.isBit true false false false false)

end Sys2Proof.Machine
end

section
/-! The frame with an unknown opcode (43_commands.md R228): its first byte, run from IDLE, reaches
OpcodeDone, which takes the error. -/

namespace Sys2Proof.Machine

variable {s : State} {cs : List Cell} {rest : List InputEvent}

/-- OpcodeDone is about to see the first byte `cs` of the frame that began in `s`, its eight cells
complete: the last sample consumed is the falling edge that ends the byte (R176 to R178). -/
structure AtOpcodeDone (s : State) (cs : List Cell) (rest : List InputEvent) (u : State) : Prop where
  run : u.run = .running
  input : u.input = rest
  cursor : u.cursor = s.n + cellsLength cs
  frameStart : u.frameStart = s.n
  byteStart : u.byteStart = s.n
  events : u.events = s.events ++ cellEvents s.bitMidpoint s.n cs

/-- The first byte of a frame, from IDLE, of whatever opcode: eight Bit events, and OpcodeDone on the
byte that the cells carry (42_frame_fsm.md R176 to R178). -/
theorem first_byte_run (hr : s.run = .running) (hs : s.state = .idle)
    (ha : acceptedByte s.bitTimeout cs = true)
    (hin : s.input = presenting (cs.flatMap Cell.samples ++ [false]) rest) :
    ∃ u, runSteps (cellsLength cs + 1) s = opcodeDone (cellsByte s.bitMidpoint cs) u ∧
      AtOpcodeDone s cs rest u := by
  have hcells := ha
  rw [acceptedByte, Bool.and_eq_true] at hcells
  obtain ⟨-, hcells⟩ := hcells
  rw [cells_head hcells, presenting_cons] at hin
  have hstart := step_of_transition (.frameStarts _ hin hr hs)
  obtain ⟨d, b, m, k, hbyte⟩ := byte_run (cs := cs) (rest := rest)
    (s := startFrame s.n (taken (presenting (cs.flatMap Cell.samples ++ [false]).tail rest) s))
    hr rfl rfl rfl rfl rfl rfl ha rfl
  refine ⟨_, (runSteps_succ hstart).trans (hbyte.trans (byteDone_opcode rfl rfl)),
    { run := hr, input := rfl, cursor := ?_, frameStart := rfl, byteStart := rfl, events := rfl }⟩
  exact cursor_of_n (Nat.add_right_comm s.n 1 _)

/-- Settles O13: the first byte reaches OpcodeDone whatever it is, and the table has no row for it. -/
theorem unknownFrameIsAborted : Obligations.UnknownFrameIsAborted := by
  intro s cs rest hr hs ha hlook hin
  obtain ⟨u, hrun, hu⟩ := first_byte_run hr hs ha hin
  rw [opcodeDone_unknown (lookup_eq_none_iff.1 hlook)] at hrun
  exact ⟨_, hrun, hu.run, rfl, rfl, hu.input, by
    rw [unknownOpcode_events, hu.events, hu.cursor, hu.frameStart, hu.byteStart, List.append_assoc]
    rfl⟩

end Sys2Proof.Machine
end

section
/-! The exceptions (60_exceptions.md): ConfigError, which of the rows of 42_frame_fsm.md R192 raise
a frame-local error, and the return from one. -/

namespace Sys2Proof.Machine

variable {s t : State} {rest : List InputEvent}

/-! ### ConfigError -/

/-- Settles O37: the row of R192 for a Configure that fails. -/
theorem failingConfigureIsFatal : Obligations.FailingConfigureIsFatal := by
  intro s f r rest hr hin hp
  exact step_of_transition (.configureFails rest f r hin hr hp)

/-- Settles O39: the row writes INITIAL too (log 11), which the invariant has there already. -/
theorem sampleBeforeConfigureIsFatal : Obligations.SampleBeforeConfigureIsFatal := by
  intro s x rest hinv hr hin
  have hparked : s.state = .initial := hinv.parked (by simp [hr])
  rw [hparked]
  exact step_of_transition (.notConfigured rest x hin hr)

/-! ### Which step raises what -/

/-- Where in a frame the machine is when the sample comes that raises the error (R242). -/
def ErrorCause (s : State) : FrameError → Prop
  | .bitTimeout => s.phase = .bitLow ∨ s.phase = .bitHigh
  | .unknownCommand => s.phase = .bitHigh ∧ s.bitCnt = 7 ∧ inOpcode s
  | .responseTimeout => s.phase = .rspWait

/-- A step from `s` to `t` takes the frame-local error `e` (R245, R246). The fields about `t` need no
proof where `t` is written out. -/
structure RaisesError (s t : State) (e : FrameError) : Prop where
  running : s.run = .running
  inFrame : s.state = .command
  cause : ErrorCause s e
  run : t.run = s.run := by rfl
  state : t.state = .initial := by rfl
  hiCnt : t.hiCnt = 0 := by rfl
  n : t.n = s.n + 1 := by rfl

/-- What a step from `s` to `t` that emits a list of events raises: nothing, or one error, at its end
and over the frame so far. -/
inductive StepErrors (s t : State) : List Event → Prop
  | none {new : List Event} (h : new.countP Event.isError = 0) : StepErrors s t new
  | raised {old : List Event} {e : FrameError} (hold : old.countP Event.isError = 0)
      (h : RaisesError s t e) : StepErrors s t (old ++ [⟨s.frameStart, s.n, .error e⟩])

theorem StepErrors.countP_le_one {new : List Event} (h : StepErrors s t new) :
    new.countP Event.isError ≤ 1 := by
  cases h with
  | none h => exact h.le.trans zero_le_one
  | raised hold h => simp [hold, List.countP_singleton, Event.isError]

/-- A bound of a phase is reached (R143, R145, R183): the error is the only event. -/
theorem stepErrors_takeError {p : Phase} {x : Bool} {e : FrameError} (hw : Waiting s p x rest)
    (hc : ErrorCause s e) :
    StepErrors s (takeError (.frameLocal e) s.n (taken rest s)) [⟨s.frameStart, s.n, .error e⟩] :=
  .raised (old := []) rfl
    { running := run_of_waiting hw, inFrame := state_of_waiting hw, cause := hc }

/-- An unknown opcode (R180): the error follows the events of the byte. -/
theorem stepErrors_unknownOpcode (hw : Waiting s .bitHigh false rest) (hb : s.bitCnt = 7)
    (ho : inOpcode s) (v : Byte) :
    StepErrors s (unknownOpcode v (assembled rest s))
      ([⟨s.bitStart, s.n, .bit s.bitVal⟩, ⟨s.byteStart, s.n, .command v false⟩] ++
        [⟨s.frameStart, s.n, .error .unknownCommand⟩]) :=
  .raised rfl
    { running := run_of_waiting hw, inFrame := state_of_waiting hw
      cause := ⟨phase_of_waiting hw, hb, ho⟩
      run := unknownOpcode_run .., state := unknownOpcode_state ..
      hiCnt := unknownOpcode_hiCnt .., n := unknownOpcode_n .. }

/-- Of the rows of R192, three reach a bound, one meets an unknown opcode, and no other raises an
error. -/
theorem stepErrors_of_transition (h : Transition s t) :
    ∃ new, t.events = s.events ++ new ∧ StepErrors s t new := by
  cases h with
  | noInput | reset | configureIgnored | configureFails | configureLoads | notConfigured | ignored
  | idleReached | highCounted | lowInInitial | idleHigh | frameStarts | lowEnds | lowCounts
  | highCounts | stopWaits | gapCounts | responseBegins | emptyResponse =>
    exact ⟨[], (List.append_nil _).symm, .none rfl⟩
  | lowTimesOut rest hw =>
    exact ⟨_, rfl, stepErrors_takeError hw (.inl (phase_of_waiting hw))⟩
  | highTimesOut rest hw =>
    exact ⟨_, rfl, stepErrors_takeError hw (.inr (phase_of_waiting hw))⟩
  | responseTimesOut rest hw => exact ⟨_, rfl, stepErrors_takeError hw (phase_of_waiting hw)⟩
  | opcodeUnknown rest hw hb ho =>
    exact ⟨_, by simp [assembled_cursor], stepErrors_unknownOpcode hw hb ho _⟩
  | cellDone => exact ⟨[⟨s.bitStart, s.n, .bit s.bitVal⟩], rfl, .none rfl⟩
  | commandStops | responseStops =>
    exact ⟨[⟨s.stopStart, s.n, .stopBit s.stopBitWidth⟩], rfl, .none rfl⟩
  | opcodeKnown rest i =>
    exact ⟨[⟨s.bitStart, s.n, .bit s.bitVal⟩, ⟨s.byteStart, s.n, .command (encodeOpcode i) true⟩],
      by simp [assembled_cursor], .none rfl⟩
  | commandData =>
    exact ⟨[⟨s.bitStart, s.n, .bit s.bitVal⟩,
      ⟨s.byteStart, s.n, .commandData (shiftIn s.shreg s.bitVal)⟩], by simp, .none rfl⟩
  | responseData =>
    exact ⟨[⟨s.bitStart, s.n, .bit s.bitVal⟩,
      ⟨s.byteStart, s.n, .responseData (shiftIn s.shreg s.bitVal)⟩], by simp, .none rfl⟩

/-- Settles O35: a step has one list of events, and `stepErrors_of_transition` says what it raises. -/
theorem errorsOfOneStep : Obligations.ErrorsOfOneStep := by
  intro s t new hstep happ
  obtain ⟨new', happ', herr⟩ := stepErrors_of_transition (transition_of_step hstep)
  obtain rfl : new' = new := List.append_cancel_left (happ'.symm.trans happ)
  refine ⟨herr.countP_le_one, fun hone => ?_⟩
  cases herr with
  | none hzero => exact absurd (hzero.symm.trans hone) Nat.zero_ne_one
  | @raised _ e _ h =>
    refine ⟨h.running, h.inFrame, h.run.trans h.running, h.state, h.hiCnt, h.n, e,
      List.getLast?_concat, ?_, ?_, ?_⟩ <;> (rintro rfl; exact h.cause)

/-! ### The return from a frame-local error -/

/-- From INITIAL with an empty idle count, `idle_min` high samples and a low one begin a frame at the
low one (R174, R176, R247). -/
theorem resync_frame_run (hr : s.run = .running) (hs : s.state = .initial) (h0 : s.hiCnt = 0)
    (hpos : 0 < s.idleMin)
    (hin : s.input = presenting (List.replicate s.idleMin true ++ [false]) rest) :
    runSteps (s.idleMin + 1) s = .next (startFrame (s.n + s.idleMin) { s with
      input := rest, n := s.n + s.idleMin + 1, hiCnt := s.idleMin, evCount := 0 }) := by
  obtain ⟨k, hk⟩ : ∃ k, s.idleMin = k + 1 := ⟨s.idleMin - 1, by omega⟩
  rw [hk, presenting_append] at hin
  have hgap := idle_gap_run hr hs (by omega) hin
  rw [h0, Nat.zero_add, Nat.add_assoc, ← hk] at hgap
  rw [runSteps_add hgap, runSteps_one]
  exact step_of_transition (.frameStarts rest rfl hr rfl)

/-- Settles O36: COMMAND is left for INITIAL only by an error, which empties the idle count, and then
`resync_frame_run` is the way back. -/
theorem returnFromErrorIsExact : Obligations.ReturnFromErrorIsExact := by
  intro s t x rest hinv hr hs hin hstep hinit
  obtain ⟨hinput, hn, -, -, hmin, -⟩ := step_sample_keeps hin hstep
  have hcnt : t.hiCnt = 0 := by
    rcases command_left (transition_of_step hstep) hr hs hin with hcmd | ⟨hidle, -⟩ | ⟨-, hcnt, -⟩
    · exact nomatch hinit.symm.trans hcmd
    · exact nomatch hinit.symm.trans hidle
    · exact hcnt
  rw [← hmin] at hinput
  have hrun := resync_frame_run (step_sample_run hin hr hstep) hinit hcnt
    (hmin ▸ hinv.idleMin_pos hr) hinput
  rw [hmin, hn, Nat.add_right_comm] at hrun
  exact ⟨_, (runSteps_succ hstep).trans hrun, rfl, rfl, rfl, rfl⟩

end Sys2Proof.Machine
end

section
/-! Reset (70_reset_and_hazards.md R280): one step to the state after reset, and what holds there. -/

namespace Sys2Proof.Machine

variable {s : State} {rest : List InputEvent}

/-- Of the state before a Reset only the events emitted so far are left (log 4). -/
theorem step_reset_eq (hin : s.input = .reset :: rest) :
    step s = .next { State.reset with input := rest, events := s.events } :=
  step_reset hin

/-- Two Resets are as one: the state after the first still lists the events of `s`, and no others. -/
theorem runSteps_two_resets (hin : s.input = .reset :: .reset :: rest) :
    runSteps 2 s = .next { State.reset with input := rest, events := s.events } := by
  rw [runSteps_succ (step_reset_eq hin), runSteps_one]
  exact step_reset_eq rfl

/-- Settles O44: what a Reset leads to does not depend on the registers before it, and `State.reset`
writes each of them. -/
theorem resetClearsEveryRegister : Obligations.ResetClearsEveryRegister :=
  ⟨fun _ _ hin => step_reset_eq hin, fun _ _ hin => runSteps_two_resets hin, by decide⟩

/-- Settles O48: the machine is UNCONFIGURED after reset, and there the invariant asks for INITIAL only. -/
theorem resetSatisfiesInvariant : Obligations.ResetSatisfiesInvariant :=
  inv_of_not_running nofun rfl

end Sys2Proof.Machine
end
